-- ==== Sys2Proof/Word.lean ====
section
/-! DEFINITION. The word types: a wire byte and a segment mask are 8 bits (MASKW, R5; R46), a line is one of two (R11). -/

namespace Sys2Proof

/-- A wire byte, and a segment mask: 8 bits (R5 `MASKW`, R46, R140). -/
abbrev Byte := BitVec 8

/-- The two lines of the bus, `L` of R11. -/
inductive Line where
  | clk
  | dio
  deriving DecidableEq, Repr

end Sys2Proof
end

