-- ==== Sys2Proof/Config.lean ====
section
/-! DEFINITION. The parameters of R5, the default segment bits and ROM definition list (R141, R153), and the free values:
constants without a body, of which nothing can be proved. -/

namespace Sys2Proof

/-! ## Fixed parameters (R5) -/

/-- `NPOS`, the number of digit positions (R5). -/
def Config.npos : Nat := 6
/-- `BRIGHT_MAX`, the largest brightness (R5). -/
def Config.brightMax : Nat := 7
/-- `MAXMASKS`, the most masks in one SET_SEGMENTS (R5). -/
def Config.maxMasks : Nat := 6
/-- `T_BIT_MIN` in microseconds, the least duration of one WAIT (R5, R86). -/
def Config.tBitMin : Nat := 1

/-! ## Segments and the ROM's definition list -/

/-- The seven segments of a glyph, A to G. H is no member: a ROM definition cannot name it (R143, R144). -/
inductive Seg where
  | a | b | c | d | e | f | g
  deriving DecidableEq, Repr

/-- `SEGDEF`: one bit of the byte for each of the names A to H (R141). -/
structure SegDef where
  a : Byte
  b : Byte
  c : Byte
  d : Byte
  e : Byte
  f : Byte
  g : Byte
  h : Byte
  deriving DecidableEq, Repr

/-- One entry of BUILD's ordered definition list (R143): its key, the earlier entries it composes, and the raw segment
bits it adds. -/
structure RomDef where
  key  : Char
  refs : List Char
  bits : List Seg
  deriving DecidableEq, Repr

/-- The default `SEGDEF` (R141, decision D17). -/
def Config.defaultSegDef : SegDef :=
  { a := 0x01, b := 0x02, c := 0x04, d := 0x08, e := 0x10, f := 0x20, g := 0x40, h := 0x80 }

/-- The default definition list, entries 0 to 17 (R153). -/
def Config.defaultDefsLow : List RomDef :=
  [ ⟨' ', [], []⟩, ⟨'-', [], [.g]⟩, ⟨'_', [], [.d]⟩, ⟨'1', [], [.b, .c]⟩, ⟨'7', ['1'], [.a]⟩, ⟨'R', ['-'], [.e]⟩,
    ⟨'I', ['1'], []⟩, ⟨'L', ['_'], [.e, .f]⟩, ⟨'N', ['R'], [.c]⟩, ⟨'J', ['1', '_'], [.e]⟩, ⟨'4', ['1', '-'], [.f]⟩,
    ⟨'3', ['7', '-', '_'], []⟩, ⟨'C', ['L'], [.a]⟩, ⟨'T', ['L', '-'], []⟩, ⟨'F', ['R'], [.a, .f]⟩,
    ⟨'?', ['R'], [.a, .b]⟩, ⟨'°', ['-'], [.a, .b, .f]⟩, ⟨'U', ['J'], [.f]⟩ ]

/-- The default definition list, entries 18 to 35 (R153). -/
def Config.defaultDefsHigh : List RomDef :=
  [ ⟨'H', ['4'], [.e]⟩, ⟨'Y', ['4', '_'], []⟩, ⟨'Q', ['4'], [.a]⟩, ⟨'9', ['3'], [.f]⟩, ⟨'2', ['?', '_'], []⟩,
    ⟨'@', ['3'], [.e]⟩, ⟨'D', ['J', '-'], []⟩, ⟨'G', ['C'], [.c]⟩, ⟨'0', ['C', '1'], []⟩, ⟨'O', ['0'], []⟩,
    ⟨'E', ['F', '_'], []⟩, ⟨'P', ['F'], [.b]⟩, ⟨'A', ['P'], [.c]⟩, ⟨'B', ['T'], [.c]⟩, ⟨'5', ['-', '_'], [.a, .c, .f]⟩,
    ⟨'S', ['5'], []⟩, ⟨'6', ['5'], [.e]⟩, ⟨'8', ['0', '-'], []⟩ ]

/-- The default definition list in build order (R153, decision D18). -/
def Config.defaultDefs : List RomDef := Config.defaultDefsLow ++ Config.defaultDefsHigh

/-! ## The open parameters that a machine fixes -/

/-- `ACK_POLICY`: what the host does with a missed ACK (R5, R194). -/
inductive AckPolicy where
  | ignore
  | warn
  deriving DecidableEq, Repr

/-- Which physical pins are CLK and DIO (R5 "pins", U15). -/
structure Pins where
  clk : Nat
  dio : Nat
  deriving DecidableEq, Repr

/-- The `OPEN` parameters of R5, each "an argument of the model". They are constant: no step writes them. The parameter
`ROM` is given by the definition list that BUILD makes it of (R142). -/
structure Params where
  segdef     : SegDef
  romDefs    : List RomDef
  ackPolicy  : AckPolicy
  /-- "no rule depends on it" (R5). -/
  pins       : Pins
  /-- `F_CLK` in hertz. No rule depends on it (log 19). -/
  fClk       : Nat
  /-- `WAIT_CYCLES`. No rule depends on it (log 19). -/
  waitCycles : Nat
  deriving DecidableEq, Repr

/-- The defaults: SEGDEF of R141, the definition list of R153, `warn` (R5); for F_CLK, WAIT_CYCLES and the pins the spec
gives none. DESIGN CHOICE (log 19). -/
def Config.defaultParams : Params :=
  { segdef := Config.defaultSegDef, romDefs := Config.defaultDefs, ackPolicy := .warn, pins := ⟨0, 1⟩, fClk := 1000000,
    waitCycles := 1 }

/-! ## Free values: nothing constrains them beyond their type -/

/-- What SAMPLE reads from a released DIO, one free bit per sample "under no law" (U8, D23). Log 7. -/
opaque Config.freeDraw : Nat → Bool
/-- The mask output of a LOOKUP that misses (U4, R150): any value, the same for the same key. Log 8. -/
opaque Config.missMask : Char → Byte
/-- SHIFT outside WRITE_BYTE (R15). Log 6. -/
opaque Config.freeShift : Nat → Byte
/-- BITCNT outside a frame, values 0 to 8 (R16). Log 6. -/
opaque Config.freeBitCnt : Nat → Fin 9
/-- BYTEIDX outside a frame, values 0 to 6 (R16). Log 6. -/
opaque Config.freeByteIdx : Nat → Fin 7
/-- A pad bit, ACKBIT or a bit of the slave after a hardware reset that finds the machine running (U5, U11). Log 21. -/
opaque Config.freeBit : Nat → Bool
/-- The rising edges the slave's decoder has counted when a hardware reset finds it in mid-frame (U11). Log 21. -/
opaque Config.freeEdges : Nat → Nat
/-- The bits of a partial byte in the slave's decoder then (U11). Log 21. -/
opaque Config.freeBits : Nat → List Bool
/-- The bytes in the slave's decoder then (U11). Log 21. -/
opaque Config.freeBytes : Nat → List Byte
/-- The data bit the slave's decoder reads at a rise of CLK while it does not know DIO (R114), by the edges, bits and bytes it
has of the frame. Log 21. -/
opaque Config.freeRead : Nat → List Bool → List Byte → Bool
/-- A display register of a clobbered slave (U3, R53): any value, by time and position. Log 15. -/
opaque Config.freeDisp : Nat → Nat → Byte

end Sys2Proof
end

