-- ==== Sys2Proof/Machine/Memory.lean ====
section
/-! DEFINITION. A memory as a list of (address, byte) cells in one canonical form, used for both address spaces of R40: the
ROM (a key not listed is absent) and the display registers (an address not listed reads 0x00, log 27). -/

namespace Sys2Proof.Machine

/-- A sparse memory. -/
abbrev Memory := List Host.Cell

/-- The byte listed at an address, if one is. -/
def Memory.find : Memory → Nat → Option Byte
  | [], _ => none
  | (a, v) :: m, k => if k = a then some v else Memory.find m k

/-- List a byte at an address, keeping the addresses rising. -/
def Memory.insert (k : Nat) (v : Byte) : Memory → Memory
  | [] => [(k, v)]
  | (a, w) :: m =>
    if k < a then (k, v) :: (a, w) :: m
    else if k = a then (k, v) :: m
    else (a, w) :: Memory.insert k v m

/-- Take an address off the list. -/
def Memory.erase (k : Nat) : Memory → Memory
  | [] => []
  | (a, w) :: m => if k = a then m else (a, w) :: Memory.erase k m

/-- All addresses are at least `lo` and strictly rising. -/
def Memory.risingFrom (lo : Nat) : Memory → Bool
  | [] => true
  | (a, _) :: m => decide (lo ≤ a) && Memory.risingFrom (a + 1) m

/-- Addresses strictly rising: the ROM's canonical form (a key that is not listed has no value, so no entry can equal
it). -/
def Memory.rising (m : Memory) : Bool := Memory.risingFrom 0 m

/-- What a display register that is not listed reads as. DESIGN CHOICE (log 27). -/
def Memory.unlisted : Byte := 0x00

/-- Read one display register. -/
def Memory.read (m : Memory) (k : Nat) : Byte := (Memory.find m k).getD Memory.unlisted

/-- Write one display register. -/
def Memory.write (k : Nat) (v : Byte) (m : Memory) : Memory :=
  if v = Memory.unlisted then Memory.erase k m else Memory.insert k v m

/-- The display memory's canonical form: addresses strictly rising, no entry equal to what an unlisted address reads
as, and no address outside the six positions (R40). -/
def Memory.wf (m : Memory) : Bool :=
  Memory.rising m && m.all fun cell => cell.2 != Memory.unlisted && decide (cell.1 < Config.npos)

end Sys2Proof.Machine
end

