-- ==== Sys2Proof/Syntax.lean ====
section
/-! DEFINITION. The operations of the block, one constructor per row of spec/opcode_table.json, and the command record in
which one of them is named to the machine. -/

namespace Sys2Proof

/-- One constructor per row of spec/opcode_table.json, in the table's order. -/
inductive Instr where
  /-- DATA_CMD: the byte 0x40 as first byte of a frame (R61). -/
  | dataCmd
  /-- ADDR_CMD: the byte `0xC0 | position` as first byte of a frame (R62). -/
  | addrCmd (position : BitVec 3)
  /-- DISP_CTRL: the byte `0x80 | show bit | brightness` as first byte of a frame (R63). -/
  | dispCtrl (shown : Bool) (brightness : BitVec 3)
  /-- SEG_DATA: a segment mask as a further byte of an address frame (R64). -/
  | segData (mask : Byte)
  /-- DRIVE_LOW (R81). -/
  | driveLow (line : Line)
  /-- RELEASE (R82). -/
  | release (line : Line)
  /-- SAMPLE (R83). -/
  | sample
  /-- WAIT (R85). -/
  | wait
  /-- CFG_PULL (R87). -/
  | cfgPull (line : Line)
  /-- START (R100). -/
  | start
  /-- WRITE_BIT (R102); true is the bit value 1. -/
  | writeBit (bit : Bool)
  /-- ACK_SLOT (R104). -/
  | ackSlot
  /-- WRITE_BYTE (R105). -/
  | writeByte (byte : Byte)
  /-- STOP (R106). -/
  | stop
  /-- INIT (R121). `brightness` is a mathematical integer (D13). -/
  | init (brightness : Int) (shown : Bool)
  /-- SET_SEGMENTS (R125). `startPosition` is a mathematical integer (D13). -/
  | setSegments (masks : List Byte) (startPosition : Int)
  /-- SET_BRIGHTNESS (R129). -/
  | setBrightness (brightness : Int) (shown : Bool)
  /-- LOOKUP (R150). A key is a Unicode scalar value (R147, D19), which is what `Char` holds. -/
  | lookup (key : Char)
  /-- PRINT of the adapter (R171). -/
  | print (chars : List Char)
  deriving DecidableEq, Repr

/-- Who names an operation to the machine: the host at the command port (R25), or the block's own sequencer, which alone
performs classes 0 and 1 and puts bytes on the wire (R66, R68). -/
inductive Issuer where
  | host
  | sequencer
  deriving DecidableEq, Repr

/-- The code space a code byte is read in. The table's wire rows are decoded by position (R65), its other rows by an
8-bit tag that is never on the wire (R66), so one byte value may stand in several spaces. -/
inductive CodeSpace where
  | tag
  | wireFirst
  | wireData
  deriving DecidableEq, Repr

/-- The operands of a tagged operation: "typed values beside the tag, not bit fields" (R66). An operation reads those it
has; the default of each is the zero of its type (log 3). -/
structure Operands where
  line          : Line := .clk
  bit           : Bool := false
  byte          : Byte := 0
  brightness    : Int := 0
  shown         : Bool := false
  masks         : List Byte := []
  startPosition : Int := 0
  key           : Char := Char.ofNat 0
  chars         : List Char := []
  deriving DecidableEq, Repr

/-- A command record (R25): who issues it, the code byte with the space it is read in, and the operands beside it. -/
structure Record where
  issuer : Issuer
  space  : CodeSpace
  code   : Byte
  ops    : Operands := {}
  deriving DecidableEq, Repr

end Sys2Proof
end

