-- ==== Sys2Proof/WellFormed.lean ====
section
/-! DEFINITION. What an operation, a segment definition and a ROM definition list must satisfy to be legal. -/

namespace Sys2Proof

/-- An instruction is well formed when every encoded operand is legal: only ADDR_CMD encodes an operand that can be
illegal, a position of 6 or 7 (R62, R68). Integers out of range are legal operands that end in an error (D13), and seven
masks are a legal operand that is refused (R199). -/
def Instr.wf : Instr → Bool
  | .addrCmd p => p.toNat < Config.npos
  | .dataCmd | .dispCtrl _ _ | .segData _ | .driveLow _ | .release _ | .sample | .wait | .cfgPull _ | .start
  | .writeBit _ | .ackSlot | .writeByte _ | .stop | .init _ _ | .setSegments _ _ | .setBrightness _ _ | .lookup _
  | .print _ => true

/-- A byte with exactly one bit set (R141). -/
def oneHot (x : Byte) : Bool :=
  (List.range 8).any fun i => x == 1#8 <<< i

/-- The eight bits in the order A to H. -/
def SegDef.all (sd : SegDef) : List Byte := [sd.a, sd.b, sd.c, sd.d, sd.e, sd.f, sd.g, sd.h]

/-- R141: "the eight values are one-hot and pairwise distinct". -/
def SegDef.wf (sd : SegDef) : Bool :=
  sd.all.all oneHot && decide sd.all.Nodup

/-- R143, R148: going down the list with the keys `seen` so far, no entry names a key that is not yet defined and no key is
defined a second time. -/
def defsOrdered (seen : List Char) : List RomDef → Bool
  | [] => true
  | d :: ds => !seen.contains d.key && d.refs.all (seen.contains ·) && defsOrdered (d.key :: seen) ds

/-- What R5 asks of the parameters by themselves: SEGDEF is legal (R141), and `WAIT_CYCLES >= ceil(T_BIT_MIN x F_CLK)`, with
T_BIT_MIN in microseconds and F_CLK in hertz. What it asks of the ROM is paramsAdmissible. -/
def Params.wf (p : Params) : Bool :=
  p.segdef.wf && decide ((Config.tBitMin * p.fClk + 999999) / 1000000 ≤ p.waitCycles)

end Sys2Proof
end

