-- ==== Sys2Proof/Machine/Rom.lean ====
section
/-! DEFINITION. The character ROM: BUILD (R142, R143) and the pure read behind LOOKUP (R150). -/

namespace Sys2Proof.Machine

/-- The bit `SEGDEF` gives a segment (R141). -/
def segBit (sd : SegDef) : Seg → Byte
  | .a => sd.a
  | .b => sd.b
  | .c => sd.c
  | .d => sd.d
  | .e => sd.e
  | .f => sd.f
  | .g => sd.g

/-- `SEG7`, the OR of A to G (R141). -/
def seg7 (sd : SegDef) : Byte := sd.a ||| sd.b ||| sd.c ||| sd.d ||| sd.e ||| sd.f ||| sd.g

/-- The ROM's location of a character: its code point (R42, R147). -/
def romKey (c : Char) : Nat := c.toNat

/-- `m(c)` of the entries built so far (R153). -/
def romFind (rom : Memory) (c : Char) : Option Byte := Memory.find rom (romKey c)

/-- The OR of the masks of earlier entries; none when a name is not yet defined (R143). -/
def orRefs (rom : Memory) : List Char → Option Byte
  | [] => some 0
  | c :: cs =>
    match romFind rom c, orRefs rom cs with
    | some m, some r => some (m ||| r)
    | _, _ => none

/-- The OR of raw segment bits (R143). -/
def orBits (sd : SegDef) (bits : List Seg) : Byte := bits.foldr (fun seg acc => segBit sd seg ||| acc) 0

/-- One entry: rejected when its key is already defined (R148) or a name it composes is not yet (R143). -/
def buildEntry (sd : SegDef) (rom : Memory) (d : RomDef) : Option Memory :=
  match romFind rom d.key, orRefs rom d.refs with
  | none, some m => some (Memory.insert (romKey d.key) (m ||| orBits sd d.bits) rom)
  | _, _ => none

/-- The entries in order, each over those before it. -/
def buildFrom (sd : SegDef) : List RomDef → Memory → Option Memory
  | [], rom => some rom
  | d :: ds, rom =>
    match buildEntry sd rom d with
    | some rom' => buildFrom sd ds rom'
    | none => none

/-- BUILD (R142): a pure function of SEGDEF and the definition list. None is the failure at build time that R142 and R143
ask for: "rejected, not repaired". R143's algorithm defines the zero-segment and one-segment entries first, and the
rejections it names are of bad references only: a list in another dependency order is accepted. DESIGN CHOICE (log 24). -/
def build (sd : SegDef) (defs : List RomDef) : Option Memory := buildFrom sd defs []

/-! ## What R5 asks of the ROM (decision D18) -/

/-- The keys every ROM has: space, the digits, 'H', 'I' and the five symbols (R147). -/
def requiredKeys : List Char :=
  [' ', '0', '1', '2', '3', '4', '5', '6', '7', '8', '9', 'H', 'I', '-', '_', '?', '@', '°']

/-- The keys no ROM has: control characters and lower-case letters (R149). That these are the control characters and the
lower-case letters of ASCII and the C1 controls is DEDUCED (log 9). -/
def forbiddenKey (k : Nat) : Bool :=
  decide (k < 0x20) || (decide (0x7F ≤ k) && decide (k ≤ 0x9F)) || (decide (0x61 ≤ k) && decide (k ≤ 0x7A))

/-- "constrained (D18)" (R5): one mask a key (R148), bit H in none (R143, R144), space blank (R145), '8' all of A to G
(R146), the required keys present (R147) and those of R149 absent. -/
def romAdmissible (sd : SegDef) (rom : Memory) : Bool :=
  Memory.rising rom && (rom.all fun cell => cell.2 &&& sd.h == 0 && !forbiddenKey cell.1) &&
    romFind rom ' ' == some 0x00 && romFind rom '8' == some (seg7 sd) &&
    requiredKeys.all fun c => (romFind rom c).isSome

/-- Parameters that R5 admits: well formed, and the definition list builds a ROM that meets its constraints. -/
def paramsAdmissible (p : Params) : Bool :=
  p.wf && match build p.segdef p.romDefs with
    | some rom => romAdmissible p.segdef rom
    | none => false

/-- The answer of the ROM port: hit and mask (R27, R150). -/
structure RomAnswer where
  hit  : Bool
  mask : Byte
  deriving DecidableEq, Repr

/-- The read of R150, `MemRead(c, 1)`. On a miss the mask is any value (U4), a free value of the key (log 8). -/
def romRead (rom : Memory) (c : Char) : RomAnswer :=
  match romFind rom c with
  | some m => { hit := true, mask := m }
  | none => { hit := false, mask := Config.missMask c }

end Sys2Proof.Machine
end

