-- ==== Sys2Proof/Decode.lean ====
section
/-! DEFINITION. The decoder, total on every record and rejecting by name; the encoder, from the same tables (R61 to R66);
and the reading of a bare word of spec/opcode_table.json. -/

namespace Sys2Proof

/-- Why a record names no operation. -/
inductive DecodeError where
  /-- The tag stands in no row of R66's table. -/
  | unknownTag
  /-- `0xC6`, `0xC7`: "an address pattern with no position behind it" (R68). -/
  | noSuchPosition
  /-- A byte that no command pattern of R61 to R63 covers stands first in a frame (R68). -/
  | reservedFirstByte
  deriving DecidableEq, Repr

/-! ## The wire patterns -/

/-- R61: DATA_CMD is 0x40. -/
def isDataCmd (b : Byte) : Bool := b == 0x40
/-- R62: bits 7:3 are 11000. -/
def isAddrCmd (b : Byte) : Bool := b &&& 0xF8 == 0xC0
/-- R63: bits 7:4 are 1000. -/
def isDispCtrl (b : Byte) : Bool := b &&& 0xF0 == 0x80

/-- The first byte of a frame (R61 to R63, R65, R68). -/
def decodeFirstByte (b : Byte) : Except DecodeError Instr :=
  if isDataCmd b then .ok .dataCmd
  else if isAddrCmd b then
    if (b.extractLsb' 0 3).toNat < Config.npos then .ok (.addrCmd (b.extractLsb' 0 3)) else .error .noSuchPosition
  else if isDispCtrl b then .ok (.dispCtrl (b.getLsbD 3) (b.extractLsb' 0 3))
  else .error .reservedFirstByte

/-! ## The tags (R66) -/

/-- The tag table of R66. -/
def decodeTag (tag : Byte) (o : Operands) : Except DecodeError Instr :=
  match tag.toNat with
  | 0x00 => .ok (.driveLow o.line)
  | 0x01 => .ok (.release o.line)
  | 0x02 => .ok .sample
  | 0x03 => .ok .wait
  | 0x04 => .ok (.cfgPull o.line)
  | 0x10 => .ok .start
  | 0x11 => .ok (.writeBit o.bit)
  | 0x12 => .ok .ackSlot
  | 0x13 => .ok (.writeByte o.byte)
  | 0x14 => .ok .stop
  | 0x20 => .ok (.init o.brightness o.shown)
  | 0x21 => .ok (.setSegments o.masks o.startPosition)
  | 0x22 => .ok (.setBrightness o.brightness o.shown)
  | 0x30 => .ok (.lookup o.key)
  | 0x40 => .ok (.print o.chars)
  | _ => .error .unknownTag

/-- The operation a record names. Every further byte of an address frame is SEG_DATA "whatever its value" (R65). -/
def decode (r : Record) : Except DecodeError Instr :=
  match r.space with
  | .tag => decodeTag r.code r.ops
  | .wireFirst => decodeFirstByte r.code
  | .wireData => .ok (.segData r.code)

/-- The operations the host may issue: "Only the class 0x2 and 0x3 operations are available to the host" (R66), and PRINT
of the host-side adapter (R171). -/
def hostMayIssue : Instr → Bool
  | .init _ _ | .setSegments _ _ | .setBrightness _ _ | .lookup _ | .print _ => true
  | .dataCmd | .addrCmd _ | .dispCtrl _ _ | .segData _ | .driveLow _ | .release _ | .sample | .wait | .cfgPull _
  | .start | .writeBit _ | .ackSlot | .writeByte _ | .stop => false

/-- Who issues an operation: the host where it may, else the block's sequencer (R66). -/
def issuerOf (i : Instr) : Issuer := if hostMayIssue i then .host else .sequencer

/-! ## The encoder -/

/-- The code byte of an operation with its code space: the bit rows of R61 to R64, the tag column of R66. -/
def codeOf : Instr → CodeSpace × Byte
  | .dataCmd => (.wireFirst, 0b01000000#8)
  | .addrCmd p => (.wireFirst, 0b11000#5 ++ p)
  | .dispCtrl s b => (.wireFirst, 0b1000#4 ++ BitVec.ofBool s ++ b)
  | .segData m => (.wireData, m)
  | .driveLow _ => (.tag, 0x00)
  | .release _ => (.tag, 0x01)
  | .sample => (.tag, 0x02)
  | .wait => (.tag, 0x03)
  | .cfgPull _ => (.tag, 0x04)
  | .start => (.tag, 0x10)
  | .writeBit _ => (.tag, 0x11)
  | .ackSlot => (.tag, 0x12)
  | .writeByte _ => (.tag, 0x13)
  | .stop => (.tag, 0x14)
  | .init _ _ => (.tag, 0x20)
  | .setSegments _ _ => (.tag, 0x21)
  | .setBrightness _ _ => (.tag, 0x22)
  | .lookup _ => (.tag, 0x30)
  | .print _ => (.tag, 0x40)

/-- The operands that stand beside the code byte (R66). -/
def operandsOf : Instr → Operands
  | .driveLow l | .release l | .cfgPull l => { line := l }
  | .writeBit b => { bit := b }
  | .writeByte v => { byte := v }
  | .init b s | .setBrightness b s => { brightness := b, shown := s }
  | .setSegments ms p => { masks := ms, startPosition := p }
  | .lookup c => { key := c }
  | .print cs => { chars := cs }
  | .dataCmd | .addrCmd _ | .dispCtrl _ _ | .segData _ | .sample | .wait | .start | .ackSlot | .stop => {}

/-- The record that names an operation. -/
def encode (i : Instr) : Record :=
  { issuer := issuerOf i, space := (codeOf i).1, code := (codeOf i).2, ops := operandsOf i }

/-! ## A bare word of the opcode table -/

/-- The code space in which a bare word of the table is read. The table mixes three spaces and two of its rows share words
with others (0x40 is DATA_CMD and the tag of PRINT; SEG_DATA's mask is 0, so it matches every word). DESIGN CHOICE (log
2): the wire commands of R61 to R63 first, then the tags of R66, and a word no other row matches is SEG_DATA. -/
def tableSpace (b : Byte) : CodeSpace :=
  if isDataCmd b || isAddrCmd b || isDispCtrl b then .wireFirst
  else
    match decodeTag b {} with
    | .ok _ => .tag
    | .error _ => .wireData

/-- The record that a bare word of the table stands for: every row has 8 bits, the operands are zero, and the issuer is
the one R66 gives the operation. -/
def tableRecord (nbits w : Nat) : Option Record :=
  if nbits = 8 ∧ w < 256 then
    let r : Record := { issuer := .sequencer, space := tableSpace (BitVec.ofNat 8 w), code := BitVec.ofNat 8 w }
    match decode r with
    | .ok i => some { r with issuer := issuerOf i }
    | .error _ => none
  else none

/-- The instruction the decoder reads from a bare word of spec/opcode_table.json. -/
def decodeTableWord (nbits w : Nat) : Option Instr :=
  match tableRecord nbits w with
  | some r =>
    match decode r with
    | .ok i => some i
    | .error _ => none
  | none => none

end Sys2Proof
end

