-- ==== Sys2Proof/Machine/Slave.lean ====
section
/-! DEFINITION. The alphabet of TRACE, the reference decoder of R114 and the informative reference slave of R52 to R54. The
slave is environment: it hears every event and the block never reads it, but for the ACK answer of R54 where the
environment selector asks for it (log 7, 13). -/

namespace Sys2Proof.Machine

/-- The events of TRACE (00_scope.md section 6). In `s v`, true is the level 1. -/
inductive Event where
  | cl
  | ch
  | dl
  | dh
  | s (v : Bool)
  | w
  | pc
  | pd
  deriving DecidableEq, Repr

/-- The state of the reference decoder (R114). `c` and `d` are the drv bits as the trace implies them, none while
unknown. -/
structure Receiver where
  c       : Option Bool
  d       : Option Bool
  inframe : Bool
  k       : Nat
  cur     : List Bool
  bytes   : List Byte
  deriving DecidableEq, Repr

/-- `sum of cur[i] * 2^i` (R114). -/
def byteOfBits (bits : List Bool) : Byte :=
  bits.foldr (fun b acc => (acc <<< 1) ||| (if b then 1#8 else 0#8)) 0

/-- `DL` of R114: a START when both lines were released. -/
def rxDriveDio (r : Receiver) : Receiver :=
  if r.c = some false ∧ r.d = some false then
    { r with inframe := true, k := 0, cur := [], bytes := [], d := some true }
  else { r with d := some true }

/-- `DH` of R114: a STOP when CLK was released and DIO was not; its output is the frame. -/
def rxReleaseDio (r : Receiver) : Receiver × Option (List Byte) :=
  if r.c = some false ∧ r.d = some true ∧ r.inframe = true then
    ({ r with inframe := false, d := some false }, some r.bytes)
  else ({ r with d := some false }, none)

/-- The bit `1 - d` read at a rise of CLK (R114). R114 gives no value while `d` is unknown: a free value of what the
decoder has of the frame. DESIGN CHOICE (log 21). -/
def rxBit (r : Receiver) : Bool :=
  match r.d with
  | some d => !d
  | none => Config.freeRead r.k r.cur r.bytes

/-- A rise of CLK inside a frame: data bit, last data bit of a byte, or ACK slot, by `k mod 9` (R114). -/
def rxRise (r : Receiver) : Receiver :=
  let cur := if r.k % 9 < 8 then r.cur ++ [rxBit r] else r.cur
  if r.k % 9 = 7 then { r with bytes := r.bytes ++ [byteOfBits cur], cur := [], k := r.k + 1 }
  else { r with cur := cur, k := r.k + 1 }

/-- `CH` of R114. -/
def rxReleaseClk (r : Receiver) : Receiver :=
  if r.c = some true ∧ r.inframe = true then { rxRise r with c := some false } else { r with c := some false }

/-- One event of the reference decoder, with the frame it outputs if it does (R114). -/
def rxHear (e : Event) (r : Receiver) : Receiver × Option (List Byte) :=
  match e with
  | .dl => (rxDriveDio r, none)
  | .dh => rxReleaseDio r
  | .ch => (rxReleaseClk r, none)
  | .cl => ({ r with c := some true }, none)
  | .w | .s _ | .pc | .pd => (r, none)

/-- The frames the reference decoder outputs for a list of events, oldest first (R114). -/
def decodeFrames : Receiver → List Event → List (List Byte)
  | _, [] => []
  | r, e :: es =>
    match rxHear e r with
    | (r', some f) => f :: decodeFrames r' es
    | (r', none) => decodeFrames r' es

/-- The decoder "started with `c` = `d` = 0" (R114). -/
def Receiver.idle : Receiver := { c := some false, d := some false, inframe := false, k := 0, cur := [], bytes := [] }

/-- The reference slave (R52), its decoder, and whether it pulls DIO low to acknowledge (R54). -/
structure Slave where
  rx        : Receiver
  pulling   : Bool
  disp      : Memory
  ptr       : BitVec 3
  autoinc   : Bool
  bright    : BitVec 3
  on        : Bool
  clobbered : Bool
  deriving DecidableEq, Repr

/-- One data byte of an address frame (R53). The pointer has 3 bits (R52 "0 to 7"; log 13). -/
def slaveData (sl : Slave) (m : Byte) : Slave :=
  if sl.ptr.toNat < Config.npos then { sl with disp := Memory.write sl.ptr.toNat m sl.disp, ptr := sl.ptr + 1 }
  else { sl with clobbered := true, ptr := sl.ptr + 1 }

/-- One decoded frame (R53). A frame with no byte is no frame of R52 and changes nothing (log 13). -/
def slaveFrame (sl : Slave) : List Byte → Slave
  | [] => sl
  | c :: ms =>
    if isDataCmd c then { sl with autoinc := true }
    else if isAddrCmd c then ms.foldl slaveData { sl with ptr := (c &&& 0x07).setWidth 3 }
    else if isDispCtrl c then { sl with bright := (c &&& 0x07).setWidth 3, on := c &&& 0x08 != 0 }
    else { sl with clobbered := true }

/-- R54: DIO is pulled low from the fall of CLK that ends the eighth pulse of a byte until the fall that follows the
ninth rise. `r` is the decoder before the event. DEDUCED (log 14). -/
def slavePull (r : Receiver) (pulling : Bool) : Event → Bool
  | .cl =>
    if r.c = some false ∧ r.inframe = true then
      if r.k % 9 = 8 then true else if r.k % 9 = 0 then false else pulling
    else pulling
  | _ => pulling

/-- The slave hears one event. -/
def slaveHear (e : Event) (sl : Slave) : Slave :=
  let sl' := { sl with rx := (rxHear e sl.rx).1, pulling := slavePull sl.rx sl.pulling e }
  match (rxHear e sl.rx).2 with
  | some f => slaveFrame sl' f
  | none => sl'

/-- The slave hears a list of events. -/
def slaveHearAll (es : List Event) (sl : Slave) : Slave := es.foldl (fun sl e => slaveHear e sl) sl

/-- What a display register shows (R53): a clobbered slave's is any value, free in time and position (log 15). -/
def slaveShows (time : Nat) (sl : Slave) (position : Nat) : Byte :=
  if sl.clobbered then Config.freeDisp time position else Memory.read sl.disp position

/-- "slave state: not the block's; unknown" (R28). The decoder starts unknown (R114); the rest is a DESIGN CHOICE (log
13). -/
def Slave.reset : Slave :=
  { rx := { c := none, d := none, inframe := false, k := 0, cur := [], bytes := [] },
    pulling := false, disp := [], ptr := 0, autoinc := false, bright := 0, on := false, clobbered := false }

/-- What is known of the slave after a reset of a running block, in mid-frame too: nothing ("any value", U10, U11, R227).
Whether its decoder is inside a frame, the edges, bits and bytes it has of one, and the registers are free values of
`time`. The lines stand as the block drives them after the reset, at values nothing is known of, and the slave sees them:
so where DIO is low, INIT's set-up is a STOP to it (R221, D6). DESIGN CHOICE (log 21): R114 has the bits unknown until an
event tells them. -/
def slaveUnknown (time : Nat) (clk dio : Bool) (sl : Slave) : Slave :=
  { sl with
    rx := { c := some clk, d := some dio, inframe := Config.freeBit (time + 3), k := Config.freeEdges time,
            cur := Config.freeBits time, bytes := Config.freeBytes time },
    pulling := Config.freeBit time,
    disp := [0, 1, 2, 3, 4, 5].foldl (fun m p => Memory.write p (Config.freeDisp time p) m) [],
    ptr := (Config.freeDisp time 6).setWidth 3, autoinc := Config.freeBit (time + 1),
    bright := (Config.freeDisp time 7).setWidth 3, on := Config.freeBit (time + 2) }

end Sys2Proof.Machine
end

