-- ==== Sys2Proof/Machine/State.lean ====
section
/-! DEFINITION. The state of the machine as plain data, its reset, and the reasons a step can stop. -/

namespace Sys2Proof.Machine

/-- One bit for each of the two lines: `drv[L]` (R11) and `pull[L]` (R12). -/
structure LineBits where
  clk : Bool
  dio : Bool
  deriving DecidableEq, Repr

/-- The frame state machine (R14). -/
inductive Fsm where
  | idle
  | started
  | transmittingByte
  | stopped
  deriving DecidableEq, Repr

/-- The status of a response (R26). -/
inductive Status where
  | ok
  | configurationError
  | rangeError
  deriving DecidableEq, Repr

/-- A response record: status, and the sampled ACK bits of the command, one per byte sent (R26). -/
structure Response where
  status : Status
  acks   : List Bool
  deriving DecidableEq, Repr

/-- A record of the diagnostic port (R27). -/
inductive Diag where
  /-- R194: the sampled ACK bit of the byte with this BYTEIDX was 1. -/
  | ackMismatch (byteIndex : BitVec 3)
  /-- R174, R193: the character has no entry. -/
  | lookupMiss (character : Char)
  deriving DecidableEq, Repr

/-- What PRINT returns (R171, R178). -/
structure PrintResult where
  written : Nat
  skipped : Nat
  deriving DecidableEq, Repr

/-- The state of the Display Session adapter (R170). -/
structure Adapter where
  col          : Nat
  clearPending : Bool
  deriving DecidableEq, Repr

/-- Who answers a SAMPLE of a released DIO (log 7). -/
inductive AckSource where
  /-- The rule (R83, D23): a draw, a free input under no law. -/
  | drawn
  /-- The reference slave of R54, which acknowledges every byte. -/
  | referenceSlave
  /-- "with no slave present every ACK sample is 1" (R210). -/
  | noSlave
  deriving DecidableEq, Repr

/-- The whole state. INVENTORY.md gives each field its rule, width and reset value. -/
structure State where
  /-- `drv[CLK]`, `drv[DIO]` (R11). -/
  drv          : LineBits
  /-- `pull[CLK]`, `pull[DIO]` (R12). -/
  pull         : LineBits
  /-- `inited` (R13). -/
  inited       : Bool
  /-- `fsm` (R14). -/
  fsm          : Fsm
  /-- `SHIFT` (R15). -/
  shift        : Byte
  /-- `BITCNT` (R16). -/
  bitcnt       : BitVec 4
  /-- `BYTEIDX` (R16). -/
  byteidx      : BitVec 3
  /-- `ACKBIT` (R17); true is the level 1. -/
  ackbit       : Bool
  /-- `TRACE`, oldest first (R20). -/
  trace        : List Event
  /-- `ROM` (R22): constant. -/
  rom          : Memory
  /-- The OPEN parameters (R5): constant. -/
  params       : Params
  /-- `acks` of the command in progress (R105). -/
  acks         : List Bool
  /-- The bytes WRITE_BYTE has sent in the frame in progress; the model's own (R65; log 12, 31). -/
  sent         : List Byte
  /-- How many WRITE_BITs of the current byte are done, 0 to 8; the model's own (R104; log 25). -/
  bitsDone     : Nat
  /-- The command port: the records still to be taken, oldest first (R25; log 1). -/
  port         : List Record
  /-- The response port, oldest first (R26; log 18). -/
  responses    : List Response
  /-- The ROM port's answers, oldest first (R27, R150; log 18). -/
  romAnswers   : List RomAnswer
  /-- The diagnostic port, oldest first (R27; log 18). -/
  diags        : List Diag
  /-- What PRINT returned, oldest first (R178; log 18). -/
  printResults : List PrintResult
  /-- The adapter's state (R170). -/
  adapter      : Adapter
  /-- The environment: the slave (R23, R52). -/
  slave        : Slave
  /-- The environment: who answers SAMPLE (log 7). -/
  ackSource    : AckSource
  /-- The environment: draws supplied from outside, used first (R54; log 7). -/
  draws        : List Bool
  /-- The model's own: how many free values have been used (log 7). -/
  fresh        : Nat
  deriving DecidableEq, Repr

/-- Why the machine stops: an internal operation outside its stated precondition. All are safe (log 10, 11, 12): no
sequence of host commands reaches one. -/
inductive Fault where
  /-- START with `fsm` other than Idle or a line driven low (R101: "it should treat that as a fault"). Safe. -/
  | startPrecondition
  /-- WRITE_BIT outside a frame (R102). Safe. -/
  | bitPrecondition
  /-- ACK_SLOT outside a frame, before eight WRITE_BITs of the current byte are done, or with CLK low (R104). Safe. -/
  | ackPrecondition
  /-- WRITE_BYTE outside a frame (R105). Safe. -/
  | bytePrecondition
  /-- STOP without a byte before it, or with CLK high (R106). Safe. -/
  | stopPrecondition
  /-- An eighth byte in one frame: BYTEIDX "is at most 6 because a frame has at most 7 bytes" (R16, R108). Safe. -/
  | frameTooLong
  /-- A wire form out of its position in the frame (R65), or an address pattern with no position behind it (R68). Safe. -/
  | wirePosition
  deriving DecidableEq, Repr

/-- Why an operation has no meaning. -/
inductive Refusal where
  /-- An operation the model does not cover, raised by exec's arms only. Safe. -/
  | notModelled (mnemonic : String)
  /-- `Refused(NotInitialized)`: SET_SEGMENTS or SET_BRIGHTNESS while `inited` = 0 (R198). Safe. -/
  | notInitialized
  /-- `Refused(TooManyMasks)`: SET_SEGMENTS with more than 6 masks and a legal position (R199). Safe. -/
  | tooManyMasks
  /-- The host issues an operation that only the block performs (R66, R68). Raised by the fetch. Safe (log 4). -/
  | notForTheHost
  /-- The record names no operation. Raised by the fetch. Safe. -/
  | undecodable (why : DecodeError)
  deriving DecidableEq, Repr

/-- The machine right after reset (R28, R220) with the OPEN parameters as its argument (R5): `inited` = 0, `fsm` = Idle,
`TRACE` empty, and the ROM that BUILD makes of the parameters before reset is released (R142, R223; empty where BUILD
rejects them, which admissible parameters exclude). Where the spec gives no value, the value a log entry names (log 5, 7,
12, 13, 18, 25, 26). DESIGN CHOICE (log 28): the adapter's `col` and `clear_pending` are 0 before any session has been
created; R170 gives 0 only when a session is created after a successful INIT. -/
def State.resetWith (p : Params) : State :=
  { drv := ⟨false, false⟩, pull := ⟨false, false⟩, inited := false, fsm := .idle, shift := 0, bitcnt := 0, byteidx := 0,
    ackbit := false, trace := [], rom := (build p.segdef p.romDefs).getD [], params := p, acks := [], sent := [],
    bitsDone := 0, port := [], responses := [], romAnswers := [], diags := [], printResults := [], adapter := ⟨0, false⟩,
    slave := Slave.reset, ackSource := .drawn, draws := [], fresh := 0 }

/-- The machine right after reset, with the spec's default parameters (log 9, 19). -/
def State.reset : State := State.resetWith Config.defaultParams

end Sys2Proof.Machine
end

