-- ==== Sys2Proof/Machine/Flags.lean ====
section
/-! DEFINITION. The one flag, ACKBIT (R17), the diagnostic it gives rise to (R194), and the status codes (R190). -/

namespace Sys2Proof.Machine

/-- The latch of the last sample (R17, R83). -/
def setAckBit (v : Bool) (s : State) : State := { s with ackbit := v }

/-- `diag(d)`: "append d to the diagnostic output; changes nothing else" (00_scope.md section 6, R200). -/
def diag (d : Diag) (s : State) : State := { s with diags := s.diags ++ [d] }

/-- `if a = 1 then diag(AckMismatch(BYTEIDX))` (R105, R194): the diagnostics alone depend on the bit. -/
def reportAck (a : Bool) (s : State) : State :=
  { s with diags := s.diags ++ if a then [.ackMismatch s.byteidx] else [] }

/-- The status numbers of decision D16, not normative (R26, R190). -/
def statusCode : Status → Nat
  | .ok => 0
  | .configurationError => 1
  | .rangeError => 2

/-- The number of the outcome LookupMiss (R190, D16). -/
def lookupMissCode : Nat := 3

/-- The diagnostics a host shows under ACK_POLICY (R194): `ignore` drops missed ACKs. DEDUCED (log 20). -/
def shownDiags (s : State) : List Diag :=
  match s.params.ackPolicy with
  | .warn => s.diags
  | .ignore => s.diags.filter fun
    | .ackMismatch _ => false
    | .lookupMiss _ => true

end Sys2Proof.Machine
end

