-- ==== Sys2Proof/Machine/Operands.lean ====
section
/-! DEFINITION. Operand checks (R120, R124, R128) and operand assembly (R67). -/

namespace Sys2Proof.Machine

/-- The legal brightness of R120 and R128: within [0,7]. -/
def brightnessLegal (b : Int) : Bool := !(decide (b < 0) || decide (b > (Config.brightMax : Int)))

/-- The legal position of R124: within [0,5]. -/
def positionLegal (p : Int) : Bool := !(decide (p < 0) || decide (p > (Config.npos : Int) - 1))

/-- `zext_8` of an operand that has passed its range check (00_scope.md section 6, R67). -/
def zext8 (n : Int) : Byte := BitVec.ofInt 8 n

/-- `0xC0 | zext_8(start_position)` (R125). -/
def addressByte (position : Int) : Byte := 0xC0 ||| zext8 position

/-- `0x80 | zext_8(brightness) | (0x08 if show else 0x00)` (R121, R129, R130). -/
def controlByte (brightness : Int) (shown : Bool) : Byte :=
  0x80 ||| zext8 brightness ||| (if shown then 0x08 else 0x00)

/-- The six zero masks of CLEAR and of INIT's clear (R70, R121). -/
def clearMasks : List Byte := [0x00, 0x00, 0x00, 0x00, 0x00, 0x00]

end Sys2Proof.Machine
end

