-- ==== Sys2Proof/Machine/Ops.lean ====
section
/-! DEFINITION. The named operations the meanings share: events, pads, samples, framing, errors, responses, the fetch of a
record. -/

namespace Sys2Proof.Machine

/-- The outcome of every meaning. -/
abbrev Result := Host.Outcome State Fault Refusal

/-- Go on from a next state; a fault or a refusal ends the sequence. -/
def andThen (r : Result) (f : State → Result) : Result :=
  match r with
  | .next s => f s
  | .fault e => .fault e
  | .refused e => .refused e

/-! ## Events and pads (R20, R80 to R89) -/

/-- `emit(e)`: append one event to TRACE (R20). The slave hears it (log 13). -/
def emit (e : Event) (s : State) : State :=
  { s with trace := s.trace ++ [e], slave := slaveHear e s.slave }

/-- The value of one bit of a line. -/
def lineBit (b : LineBits) : Line → Bool
  | .clk => b.clk
  | .dio => b.dio

/-- Write one bit of a line. -/
def setLineBit (b : LineBits) (l : Line) (v : Bool) : LineBits :=
  match l with
  | .clk => { b with clk := v }
  | .dio => { b with dio := v }

/-- `CL` or `DL` (R81). -/
def lowEvent : Line → Event
  | .clk => .cl
  | .dio => .dl

/-- `CH` or `DH` (R82). -/
def highEvent : Line → Event
  | .clk => .ch
  | .dio => .dh

/-- `PC` or `PD` (R87). -/
def pullEvent : Line → Event
  | .clk => .pc
  | .dio => .pd

/-- DRIVE_LOW (R81). -/
def driveLow (l : Line) (s : State) : State := emit (lowEvent l) { s with drv := setLineBit s.drv l true }

/-- RELEASE (R82). -/
def release (l : Line) (s : State) : State := emit (highEvent l) { s with drv := setLineBit s.drv l false }

/-- SET_DIO(b) (R84). -/
def setDio (b : Bool) (s : State) : State := if b then release .dio s else driveLow .dio s

/-- WAIT (R85). -/
def waitBit (s : State) : State := emit .w s

/-- CFG_PULL (R87). -/
def cfgPull (l : Line) (s : State) : State := emit (pullEvent l) { s with pull := setLineBit s.pull l true }

/-- `draw()`: the level a released DIO has now, by the environment (R21, R83, D23; log 7). -/
def nextDraw (s : State) : Bool :=
  match s.ackSource with
  | .drawn =>
    match s.draws with
    | b :: _ => b
    | [] => Config.freeDraw s.fresh
  | .referenceSlave => !s.slave.pulling
  | .noSlave => true

/-- The draw is used up. -/
def consumeDraw (s : State) : State :=
  match s.ackSource with
  | .drawn =>
    match s.draws with
    | _ :: ds => { s with draws := ds }
    | [] => { s with fresh := s.fresh + 1 }
  | .referenceSlave | .noSlave => s

/-- `level(L)`, true for 1: a function of the drivers, not a register (R21). -/
def level (s : State) : Line → Bool
  | .clk => !s.drv.clk
  | .dio => if s.drv.dio then false else nextDraw s

/-- SAMPLE (R83): "(0 if drv[DIO] = 1 else draw())", with no draw in the first case (D34). The value is left in
ACKBIT. -/
def sampleDio (s : State) : State :=
  let s' := if s.drv.dio then s else consumeDraw s
  emit (.s (level s .dio)) (setAckBit (level s .dio) s')

/-! ## Framing (R100 to R108) -/

/-- The precondition of START (R101). -/
def startReady (s : State) : Bool := s.fsm == .idle && !s.drv.clk && !s.drv.dio

/-- `fsm` in {Started, TransmittingByte}, the precondition of WRITE_BIT (R102) and WRITE_BYTE (R105). -/
def inFrame (s : State) : Bool := s.fsm == .started || s.fsm == .transmittingByte

/-- "eight WRITE_BITs of the current byte are done (BITCNT = 8)" (R104): eight performed one by one since START or since the
last whole byte, or BITCNT = 8 where WRITE_BYTE has written it in this frame, that is, in TransmittingByte (R16). DEDUCED
(log 25). DESIGN CHOICE (log 25): after WRITE_BYTE and then one to seven bare WRITE_BITs BITCNT is still 8, so the bracket of
R104 holds and its words do not; the model follows the bracket, and ACK_SLOT runs. -/
def byteBitsDone (s : State) : Bool := s.bitsDone == 8 || (s.fsm == .transmittingByte && s.bitcnt == 8)

/-- The precondition of ACK_SLOT (R104): the bits of the current byte are done, and `drv[CLK]` = 0. A current byte there is
inside a frame only. -/
def ackReady (s : State) : Bool := inFrame s && byteBitsDone s && !s.drv.clk

/-- The precondition of STOP (R106). -/
def stopReady (s : State) : Bool := s.fsm == .transmittingByte && s.drv.clk

/-- START's operations (R100). -/
def startOps (s : State) : State :=
  { waitBit (driveLow .dio s) with fsm := .started, byteidx := 0, sent := [], bitsDone := 0 }

/-- WRITE_BIT's operations (R102). -/
def bitOps (b : Bool) (s : State) : State :=
  waitBit (release .clk (waitBit (setDio b (waitBit (driveLow .clk s)))))

/-- The count of a WRITE_BIT performed by itself: one more bit of the current byte, or the first of the next byte. The
model's own (log 25). -/
def countBit (s : State) : State := { s with bitsDone := if s.bitsDone < 8 then s.bitsDone + 1 else 1 }

/-- ACK_SLOT's operations (R104). Its result is ACKBIT. -/
def ackOps (s : State) : State :=
  driveLow .clk (sampleDio (waitBit (release .clk (waitBit (release .dio (driveLow .clk s))))))

/-- Bit step `i` of WRITE_BYTE (R103, R105). -/
def bitStep (s : State) (i : Nat) : State :=
  let s' := bitOps (s.shift.getLsbD 0) { s with bitcnt := BitVec.ofNat 4 i }
  { s' with shift := s'.shift >>> 1 }

/-- The eight bit steps, least significant bit first (R43, R103). -/
def eightBits (s : State) : State := [0, 1, 2, 3, 4, 5, 6, 7].foldl bitStep s

/-- What WRITE_BYTE does with the ACK bit and BYTEIDX after the slot (R105). `sent` records the byte (log 12), and
WRITE_BYTE's bytes alone: a byte sent by bare WRITE_BITs and ACK_SLOT is not in it. DESIGN CHOICE (log 31). -/
def byteDone (v : Byte) (s : State) : State :=
  let s' := reportAck s.ackbit { s with acks := s.acks ++ [s.ackbit] }
  { s' with byteidx := s'.byteidx + 1, sent := s'.sent ++ [v] }

/-- WRITE_BYTE's operations (R105). -/
def byteOps (v : Byte) (s : State) : State :=
  byteDone v (ackOps { eightBits { s with fsm := .transmittingByte, shift := v } with bitcnt := 8, bitsDone := 8 })

/-- SHIFT, BITCNT and BYTEIDX are unspecified outside a frame (R15, R16): free values (log 6). -/
def leaveFrame (s : State) : State :=
  { s with
    shift := Config.freeShift s.fresh, bitcnt := BitVec.ofNat 4 (Config.freeBitCnt s.fresh).val,
    byteidx := BitVec.ofNat 3 (Config.freeByteIdx s.fresh).val, sent := [], bitsDone := 0, fresh := s.fresh + 1 }

/-- STOP's operations (R106): the machine is Stopped and passes to Idle with no further operation (R109). -/
def stopOps (s : State) : State :=
  let s' := waitBit (release .dio (waitBit (release .clk (waitBit (driveLow .dio s)))))
  leaveFrame { { s' with fsm := .stopped } with fsm := .idle }

/-- START (R100, R101). A SET_SEGMENTS or SET_BRIGHTNESS taken in the middle of a frame ends here (log 30). -/
def startFrame (s : State) : Result := if startReady s then .next (startOps s) else .fault .startPrecondition

/-- WRITE_BIT (R102). -/
def sendBit (b : Bool) (s : State) : Result := if inFrame s then .next (countBit (bitOps b s)) else .fault .bitPrecondition

/-- ACK_SLOT (R104). -/
def ackSlot (s : State) : Result := if ackReady s then .next (ackOps s) else .fault .ackPrecondition

/-- WRITE_BYTE (R105). BYTEIDX is at most 6 (R16; log 11). -/
def sendByte (v : Byte) (s : State) : Result :=
  if inFrame s then
    if s.byteidx.toNat ≤ Config.maxMasks then .next (byteOps v s) else .fault .frameTooLong
  else .fault .bytePrecondition

/-- STOP (R106). -/
def stopFrame (s : State) : Result := if stopReady s then .next (stopOps s) else .fault .stopPrecondition

/-- WRITE_BYTE of each byte in order (R108). -/
def sendBytes : List Byte → State → Result
  | [], s => .next s
  | v :: vs, s => andThen (sendByte v s) (sendBytes vs)

/-- `Frame(bytes)` (R108): the only way the block puts bytes on the wire. `Frame([])` is not defined: STOP's precondition
fails. -/
def frame (bytes : List Byte) (s : State) : Result :=
  andThen (startFrame s) fun s => andThen (sendBytes bytes s) stopFrame

/-- A wire form is one byte in its place (R65): a command first in its frame, SEG_DATA after an ADDR_CMD. First is
before any WRITE_BYTE (`fsm` = Started): bits or a whole byte sent by bare WRITE_BITs do not count. DESIGN CHOICE (log
31). -/
def sendFirstByte (v : Byte) (s : State) : Result :=
  if s.fsm = .started then sendByte v s else .fault .wirePosition

/-- R65: SEG_DATA is a "further byte of a frame whose first byte is ADDR_CMD", which bits 7:6 = 11 tell. DESIGN CHOICE (log
29): a first byte 0xC6 or 0xC7, which only a bare WRITE_BYTE of the sequencer can have put there, counts as an address
pattern here, and SEG_DATA may follow it; R62 makes 0xC0 to 0xC5 alone legal and the spec gives such a frame no
position. The first byte is WRITE_BYTE's first: an address byte sent by bare WRITE_BITs does not count. DESIGN CHOICE (log
31). -/
def inAddressFrame (s : State) : Bool :=
  s.fsm == .transmittingByte &&
    match s.sent with
    | b :: _ => isAddrCmd b
    | [] => false

/-- A further byte of an address frame (R65). -/
def sendDataByte (v : Byte) (s : State) : Result :=
  if inAddressFrame s then sendByte v s else .fault .wirePosition

/-! ## Responses and errors (R26, R132, R133, R195) -/

/-- `return (Ok, acks)` (R26, R133). -/
def respondOk (s : State) : State := { s with responses := s.responses ++ [⟨.ok, s.acks⟩], acks := [] }

/-- `raise E`: the command ends at once with status E and an empty `acks`; nothing else changes (R132, R195). -/
def raiseError (e : Status) (s : State) : Result := .next { s with responses := s.responses ++ [⟨e, []⟩] }

/-- A command starts with an empty `acks` (R26, R105). -/
def beginCommand (s : State) : State := { s with acks := [] }

/-- The body common to SET_SEGMENTS and SET_BRIGHTNESS: one frame, then the response (R125, R129). -/
def oneFrameCommand (bytes : List Byte) (s : State) : Result :=
  andThen (frame bytes (beginCommand s)) fun s => .next (respondOk s)

/-- SET_SEGMENTS with its checks in the order of R124 and R201. -/
def setSegments (masks : List Byte) (position : Int) (s : State) : Result :=
  if !s.inited then .refused .notInitialized
  else if !positionLegal position then raiseError .rangeError s
  else if masks.length > Config.maxMasks then .refused .tooManyMasks
  else oneFrameCommand (addressByte position :: masks) s

/-- CLEAR (R70). -/
def clearDisplay (s : State) : Result := setSegments clearMasks 0 s

/-! ## Reset of a running machine (R28, R220, R227) -/

/-- A hardware reset that finds the machine running: `inited` = 0, `fsm` = Idle, `TRACE` empty; the registers the spec
leaves unspecified become free values, and so does the slave's state (U5, U10, U11); parameters, ROM, environment
selector, adapter and what the ports have given out stay (log 21). -/
def hardwareReset (s : State) : State :=
  { s with
    inited := false, fsm := .idle, trace := [], acks := [], sent := [], bitsDone := 0,
    drv := ⟨Config.freeBit s.fresh, Config.freeBit (s.fresh + 1)⟩,
    pull := ⟨Config.freeBit (s.fresh + 2), Config.freeBit (s.fresh + 3)⟩,
    ackbit := Config.freeBit (s.fresh + 4),
    shift := Config.freeShift s.fresh, bitcnt := BitVec.ofNat 4 (Config.freeBitCnt s.fresh).val,
    byteidx := BitVec.ofNat 3 (Config.freeByteIdx s.fresh).val,
    slave := slaveUnknown (s.fresh + 5) (Config.freeBit s.fresh) (Config.freeBit (s.fresh + 1)) s.slave,
    fresh := s.fresh + 9 }

/-! ## The fetch of a record -/

/-- The operation a record names, or why it has none: the decoder rejects it, or the host names an operation that only
the block performs (R66, R68; log 4). -/
def fetch (r : Record) : Except Refusal Instr :=
  match decode r with
  | .error e => .error (.undecodable e)
  | .ok i => if r.issuer = .host ∧ hostMayIssue i = false then .error .notForTheHost else .ok i

end Sys2Proof.Machine
end

