-- ==== Sys2Proof/Machine/AdapterPrint.lean ====
section
/-! DEFINITION. PRINT of the Display Session adapter (R170 to R179). -/

namespace Sys2Proof.Machine

/-- The local variables of PRINT's pseudocode (R171). -/
structure PrintVars where
  written    : Nat
  skipped    : Nat
  batch      : List Byte
  batchStart : Nat
  deriving DecidableEq, Repr

/-- The outcome of a part of PRINT: the variables and the state, or the stop of a SET_SEGMENTS it issued. -/
abbrev PrintStep := Except Result (PrintVars × State)

/-- Issue a command to the block and go on when it has answered. -/
def printCommand (r : Result) (v : PrintVars) : PrintStep :=
  match r with
  | .next s => .ok (v, s)
  | .fault e => .error (.fault e)
  | .refused e => .error (.refused e)

/-- `flush()` (R171). -/
def printFlush (v : PrintVars) (s : State) : PrintStep :=
  if v.batch = [] then .ok (v, s)
  else printCommand (setSegments v.batch v.batchStart s) { v with batch := [] }

/-- Set the adapter's column. -/
def setCol (n : Nat) (s : State) : State := { s with adapter := { s.adapter with col := n } }

/-- Set the adapter's pending clear. -/
def setClearPending (b : Bool) (s : State) : State := { s with adapter := { s.adapter with clearPending := b } }

/-- "if clear_pending = 1 then (flush(); CLEAR; clear_pending <- 0; col <- 0)" (R171, R172). -/
def printClear (v : PrintVars) (s : State) : PrintStep :=
  if s.adapter.clearPending then
    match printFlush v s with
    | .error e => .error e
    | .ok (v, s) =>
      match printCommand (clearDisplay s) v with
      | .error e => .error e
      | .ok (v, s) => .ok (v, setCol 0 (setClearPending false s))
  else .ok (v, s)

/-- Place a mask at the column, or drop it at a full line (R175, R176). -/
def printPlace (m : Byte) (v : PrintVars) (s : State) : PrintVars × State :=
  if s.adapter.col > Config.npos - 1 then ({ v with skipped := v.skipped + 1 }, s)
  else
    ({ v with
        batchStart := if v.batch = [] then s.adapter.col else v.batchStart, batch := v.batch ++ [m],
        written := v.written + 1 },
      setCol (s.adapter.col + 1) s)

/-- One character (R171 to R176). Its lookup is not appended to the ROM port's answers. DESIGN CHOICE (log 18). -/
def printChar (c : Char) (v : PrintVars) (s : State) : PrintStep :=
  if c.toNat = 0x0A then .ok (v, setClearPending true s)
  else if c.toNat = 0x0D then
    match printFlush v s with
    | .error e => .error e
    | .ok (v, s) => .ok (v, setCol 0 s)
  else
    match romFind s.rom c with
    | none => .ok ({ v with skipped := v.skipped + 1 }, diag (.lookupMiss c) s)
    | some m =>
      match printClear v s with
      | .error e => .error e
      | .ok (v, s) => .ok (printPlace m v s)

/-- The characters in order (R171). -/
def printChars : List Char → PrintVars → State → PrintStep
  | [], v, s => .ok (v, s)
  | c :: cs, v, s =>
    match printChar c v s with
    | .error e => .error e
    | .ok (v, s) => printChars cs v s

/-- "return (written, skipped)" (R171, R178). -/
def printReturn (v : PrintVars) (s : State) : State :=
  { s with printResults := s.printResults ++ [⟨v.written, v.skipped⟩] }

/-- PRINT (R171). -/
def execPrint (chars : List Char) (s : State) : Result :=
  match printChars chars ⟨0, 0, [], 0⟩ s with
  | .error e => e
  | .ok (v, s) =>
    match printFlush v s with
    | .error e => e
    | .ok (v, s) => .next (printReturn v s)

end Sys2Proof.Machine
end

