-- ==== Sys2Proof/Machine/Framing.lean ====
section
/-! DEFINITION. The framing operations (R100 to R109). -/

namespace Sys2Proof.Machine

/-- START (R100). -/
def execStart (s : State) : Result := startFrame s

/-- WRITE_BIT (R102). -/
def execWriteBit (b : Bool) (s : State) : Result := sendBit b s

/-- ACK_SLOT (R104). -/
def execAckSlot (s : State) : Result := ackSlot s

/-- WRITE_BYTE (R105). -/
def execWriteByte (v : Byte) (s : State) : Result := sendByte v s

/-- STOP (R106). -/
def execStop (s : State) : Result := stopFrame s

end Sys2Proof.Machine
end

