-- ==== Sys2Proof/Machine/HostCommands.lean ====
section
/-! DEFINITION. The three host commands (R120 to R133). -/

namespace Sys2Proof.Machine

/-- INIT's idle set-up (R121, decision D6). It sets `fsm` to Idle also where a frame that the sequencer issues record by
record is in progress, which is dropped: no rule gives INIT a meaning there. DESIGN CHOICE (log 30). -/
def initSetup (s : State) : State :=
  { waitBit (release .dio (release .clk (cfgPull .dio (cfgPull .clk s)))) with fsm := .idle }

/-- INIT's last step sets `inited` (R123); a new Display Session starts with it (R170, D28(f); log 16). -/
def initDone (s : State) : State := { s with inited := true, adapter := ⟨0, false⟩ }

/-- INIT (R120, R121). -/
def execInit (brightness : Int) (shown : Bool) (s : State) : Result :=
  if !brightnessLegal brightness then raiseError .configurationError s
  else
    andThen (frame [0x40] (initSetup (beginCommand s))) fun s =>
    andThen (frame (0xC0 :: clearMasks) s) fun s =>
    andThen (frame [controlByte brightness shown] s) fun s =>
    .next (respondOk (initDone s))

/-- SET_SEGMENTS (R124, R125). -/
def execSetSegments (masks : List Byte) (position : Int) (s : State) : Result := setSegments masks position s

/-- SET_BRIGHTNESS (R128, R129). -/
def execSetBrightness (brightness : Int) (shown : Bool) (s : State) : Result :=
  if !s.inited then .refused .notInitialized
  else if !brightnessLegal brightness then raiseError .configurationError s
  else oneFrameCommand [controlByte brightness shown] s

end Sys2Proof.Machine
end

