-- ==== Sys2Proof/Machine/LinePrimitives.lean ====
section
/-! DEFINITION. The line primitives (R80 to R89). -/

namespace Sys2Proof.Machine

/-- DRIVE_LOW (R81). -/
def execDriveLow (l : Line) (s : State) : Result := .next (driveLow l s)

/-- RELEASE (R82). -/
def execRelease (l : Line) (s : State) : Result := .next (release l s)

/-- SAMPLE (R83). -/
def execSample (s : State) : Result := .next (sampleDio s)

/-- WAIT (R85). -/
def execWait (s : State) : Result := .next (waitBit s)

/-- CFG_PULL (R87). -/
def execCfgPull (l : Line) (s : State) : Result := .next (cfgPull l s)

end Sys2Proof.Machine
end

