-- ==== Sys2Proof/Machine/RomPort.lean ====
section
/-! DEFINITION. LOOKUP (R150). -/

namespace Sys2Proof.Machine

/-- LOOKUP (R150): the answer goes out at the ROM port (R27) and nothing else changes. -/
def execLookup (key : Char) (s : State) : Result :=
  .next { s with romAnswers := s.romAnswers ++ [romRead s.rom key] }

end Sys2Proof.Machine
end

