-- ==== Sys2Proof/Machine/Wire.lean ====
section
/-! DEFINITION. The wire forms (R61 to R65): each puts its byte on the wire by WRITE_BYTE (R60) in the one position R65
gives it (log 12). -/

namespace Sys2Proof.Machine

/-- DATA_CMD (R61): the byte 0x40, first in its frame. -/
def execDataCmd (s : State) : Result := sendFirstByte 0x40 s

/-- ADDR_CMD (R62): `0xC0 | position`, first in its frame, for a position of 0 to 5. The patterns 0xC6 and 0xC7 have no
position behind them and are never sent (R41, R68): the decoder gives no such instruction, and here it stops. -/
def execAddrCmd (position : BitVec 3) (s : State) : Result :=
  if position.toNat < Config.npos then sendFirstByte (0xC0 ||| position.setWidth 8) s else .fault .wirePosition

/-- DISP_CTRL (R63): `0x80 | brightness | show bit`, first in its frame. -/
def execDispCtrl (shown : Bool) (brightness : BitVec 3) (s : State) : Result :=
  sendFirstByte (0x80 ||| brightness.setWidth 8 ||| (if shown then 0x08 else 0x00)) s

/-- SEG_DATA (R64): the mask, unchanged (R156), after an address command. -/
def execSegData (mask : Byte) (s : State) : Result := sendDataByte mask s

end Sys2Proof.Machine
end

