-- ==== Sys2Proof/Machine/Dispatch.lean ====
section
/-! DEFINITION. One arm per row of spec/opcode_table.json, in the table's order. -/

namespace Sys2Proof.Machine

def exec (i : Instr) (s : State) : Host.Outcome State Fault Refusal :=
  match i with
  -- wire forms
  | .dataCmd => Sys2Proof.Machine.execDataCmd s
  | .addrCmd position => Sys2Proof.Machine.execAddrCmd position s
  | .dispCtrl shown brightness => Sys2Proof.Machine.execDispCtrl shown brightness s
  | .segData mask => Sys2Proof.Machine.execSegData mask s
  -- line primitives
  | .driveLow line => Sys2Proof.Machine.execDriveLow line s
  | .release line => Sys2Proof.Machine.execRelease line s
  | .sample => Sys2Proof.Machine.execSample s
  | .wait => Sys2Proof.Machine.execWait s
  | .cfgPull line => Sys2Proof.Machine.execCfgPull line s
  -- framing
  | .start => Sys2Proof.Machine.execStart s
  | .writeBit bit => Sys2Proof.Machine.execWriteBit bit s
  | .ackSlot => Sys2Proof.Machine.execAckSlot s
  | .writeByte byte => Sys2Proof.Machine.execWriteByte byte s
  | .stop => Sys2Proof.Machine.execStop s
  -- host commands
  | .init brightness shown => Sys2Proof.Machine.execInit brightness shown s
  | .setSegments masks startPosition => Sys2Proof.Machine.execSetSegments masks startPosition s
  | .setBrightness brightness shown => Sys2Proof.Machine.execSetBrightness brightness shown s
  -- character ROM
  | .lookup key => Sys2Proof.Machine.execLookup key s
  -- adapter
  | .print chars => Sys2Proof.Machine.execPrint chars s

end Sys2Proof.Machine
end

