-- ==== Sys2Proof/Machine/Step.lean ====
section
/-! DEFINITION. One step: the machine takes the oldest record of its port and carries the operation out whole (R25, R133;
log 17). -/

namespace Sys2Proof.Machine

/-- One step. With nothing at the port the block waits: "after reset the block does nothing until the host issues a
command" (R220). A record of the host taken while the sequencer's records have a frame in progress is carried out as any
other: no rule gives that mix a meaning. DESIGN CHOICE (log 30). -/
def step (s : State) : Host.Outcome State Fault Refusal :=
  match s.port with
  | [] => .next s
  | r :: rest =>
    match fetch r with
    | .ok i => exec i { s with port := rest }
    | .error e => .refused e

/-- The record that withFetchWord places where a bare word stands for none: a tag outside R66's table, which the fetch
rejects by name. -/
def unreadRecord : Record := { issuer := .sequencer, space := .tag, code := 0xFF }

/-- The state with the instruction of a bare table word at the head of the port, so that the next step runs it (log 1,
2). -/
def State.withFetchWord (s : State) (nbits w : Nat) : State :=
  { s with port := (tableRecord nbits w).getD unreadRecord :: s.port }

end Sys2Proof.Machine
end

