-- ==== Sys2Proof/Safety.lean ====
section
/-! DEFINITION. The terms the claims use: the event sequences the spec writes out, counts and edges of a trace, what the
pads and ACKBIT are after a list of events, command boundaries, and the states that host commands alone can reach. -/

namespace Sys2Proof.Safety

open Sys2Proof.Machine

/-! ## The event sequences as the spec writes them -/

/-- START appends `DL W` (R100). -/
def startEvents : List Event := [.dl, .w]

/-- WRITE_BIT appends `CL W DH W CH W` for 1, `CL W DL W CH W` for 0 (R102). -/
def bitEvents (b : Bool) : List Event := [.cl, .w, if b then .dh else .dl, .w, .ch, .w]

/-- ACK_SLOT appends `CL DH W CH W S(a) CL` (R104). -/
def ackEvents (a : Bool) : List Event := [.cl, .dh, .w, .ch, .w, .s a, .cl]

/-- "the eight WRITE_BIT groups for v[0], v[1], ..., v[7] in that order" (R105). -/
def dataEvents (v : Byte) : List Event :=
  bitEvents (v.getLsbD 0) ++ bitEvents (v.getLsbD 1) ++ bitEvents (v.getLsbD 2) ++ bitEvents (v.getLsbD 3) ++
  bitEvents (v.getLsbD 4) ++ bitEvents (v.getLsbD 5) ++ bitEvents (v.getLsbD 6) ++ bitEvents (v.getLsbD 7)

/-- WRITE_BYTE: the eight groups, "then the ACK_SLOT group" (R105). -/
def byteEvents (v : Byte) (a : Bool) : List Event := dataEvents v ++ ackEvents a

/-- STOP appends `DL W CH W DH W` (R106). -/
def stopEvents : List Event := [.dl, .w, .ch, .w, .dh, .w]

/-- The events of some bytes, each with the ACK bit sampled after it. -/
def bytesEvents (bytes : List (Byte × Bool)) : List Event := bytes.flatMap fun p => byteEvents p.1 p.2

/-- `Frame(bytes)` (R108): "DL W, then 55 events per byte, then DL W CH W DH W". -/
def frameEvents (bytes : List (Byte × Bool)) : List Event := startEvents ++ bytesEvents bytes ++ stopEvents

/-- INIT's idle set-up appends `PC PD CH DH W` (R121). -/
def setupEvents : List Event := [.pc, .pd, .ch, .dh, .w]

/-! ## Counts (R111, R230) -/

/-- Pad operations: `CL CH DL DH`. -/
def padOps (es : List Event) : Nat :=
  es.countP fun e => e == .cl || e == .ch || e == .dl || e == .dh

/-- Waits: `W`. -/
def waits (es : List Event) : Nat := es.countP (· == .w)

/-- Samples: `S(0)` and `S(1)`. -/
def samples (es : List Event) : Nat := es.countP fun e => e == .s false || e == .s true

/-- Pull configurations: `PC PD`. -/
def pullConfigs (es : List Event) : Nat := es.countP fun e => e == .pc || e == .pd

/-- The least duration in microseconds: `T_BIT_MIN` for each wait (R86, R230). -/
def leastDuration (es : List Event) : Nat := waits es * Config.tBitMin

/-- An event with the value of its sample blanked (R115: the same "except for the values v inside its `S(v)` events"). -/
def blankSample : Event → Event
  | .s _ => .s false
  | e => e

/-! ## What the pads, the pulls and ACKBIT are after some events -/

/-- The driver bits after one event (R81, R82). -/
def drvAfter (d : LineBits) : Event → LineBits
  | .cl => { d with clk := true }
  | .ch => { d with clk := false }
  | .dl => { d with dio := true }
  | .dh => { d with dio := false }
  | .s _ | .w | .pc | .pd => d

/-- The pull bits after one event (R87). -/
def pullAfter (p : LineBits) : Event → LineBits
  | .pc => { p with clk := true }
  | .pd => { p with dio := true }
  | .s _ | .w | .cl | .ch | .dl | .dh => p

/-- ACKBIT after one event (R83). -/
def ackAfter (a : Bool) : Event → Bool
  | .s v => v
  | .w | .pc | .pd | .cl | .ch | .dl | .dh => a

/-- ACKBIT after some samples: the last of them, or what it was (R17). -/
def lastAck (a : Bool) : List Bool → Bool
  | [] => a
  | b :: bs => lastAck b bs

/-- The AckMismatch diagnostics of some bytes whose first has BYTEIDX `n`: one for each ACK bit that is 1, in byte order
(R105, R194). -/
def mismatches (n : Nat) : List Bool → List Diag
  | [] => []
  | a :: as => (if a then [.ackMismatch (BitVec.ofNat 3 n)] else []) ++ mismatches (n + 1) as

/-! ## Edges (R112, R232) -/

/-- The places, counted from `n`, of the events at which the block changes its drive of DIO while CLK is released (R112).
`d` holds the driver bits before the events. -/
def dioMovesWhileHigh (n : Nat) (d : LineBits) : List Event → List Nat
  | [] => []
  | e :: es =>
    if d.clk = false ∧ (drvAfter d e).dio ≠ d.dio then n :: dioMovesWhileHigh (n + 1) (drvAfter d e) es
    else dioMovesWhileHigh (n + 1) (drvAfter d e) es

/-- The number of rises of CLK: "a `CH` with `drv[CLK]` = 1 before it" (R112). -/
def clkRises (d : LineBits) : List Event → Nat
  | [] => 0
  | e :: es => (if d.clk = true ∧ e = .ch then 1 else 0) + clkRises (drvAfter d e) es

/-! ## Boundaries and reachable states -/

/-- Both lines released. -/
def released : LineBits := ⟨false, false⟩

/-- What holds at a command boundary (R110): `fsm` = Idle and both lines released. -/
def AtBoundary (s : State) : Prop := s.fsm = .idle ∧ s.drv = released

/-- The reference decoder knows both lines to be released and is outside a frame. -/
def Listening (sl : Slave) : Prop := sl.rx.c = some false ∧ sl.rx.d = some false ∧ sl.rx.inframe = false

/-- What the block's registers satisfy whenever only the host has issued records: R110 with R19 and R222. -/
def HostInv (s : State) : Prop :=
  (∀ r ∈ s.port, r.issuer = .host) ∧ s.fsm = .idle ∧ s.acks = [] ∧
    (s.inited = true → s.drv = released ∧ s.pull = ⟨true, true⟩ ∧ Listening s.slave)

/-- The two memories are in canonical form: the ROM (R42) and the display registers (R40). -/
def MemoriesCanonical (s : State) : Prop := Memory.rising s.rom = true ∧ Memory.wf s.slave.disp = true

/-- The ROM is what BUILD makes of the parameters, and these are admissible (R5, R22, R142). -/
def RomBuilt (s : State) : Prop :=
  paramsAdmissible s.params = true ∧ build s.params.segdef s.params.romDefs = some s.rom

/-- The first bytes of R68: "only 0x40, 0xC0 to 0xC5 and 0x80 to 0x8F". -/
def legalFirstByte (b : Byte) : Bool :=
  b.toNat == 0x40 || (decide (0xC0 ≤ b.toNat) && decide (b.toNat ≤ 0xC5)) ||
    (decide (0x80 ≤ b.toNat) && decide (b.toNat ≤ 0x8F))

/-- A frame as the block sends it: 1 to 7 bytes (R108), the first one legal (R68). -/
def LegalFrame (bytes : List (Byte × Bool)) : Prop :=
  bytes.length ≤ 7 ∧ ∃ b a rest, bytes = (b, a) :: rest ∧ legalFirstByte b = true

/-- The characters PRINT counts: all but newline and carriage return (R178). -/
def counted (c : Char) : Bool := c.toNat != 0x0A && c.toNat != 0x0D

/-- Characters that PRINT counts and that all hit, with their masks in order (R175). -/
def Hits (s : State) (cs : List Char) (ms : List Byte) : Prop :=
  (∀ c ∈ cs, counted c = true) ∧ cs.map (romFind s.rom) = ms.map some

/-- What a flush issues for a batch (R171): one SET_SEGMENTS, or nothing for an empty batch. -/
def flushed (batch : List Byte) (position : Nat) : List Instr :=
  if batch = [] then [] else [.setSegments batch position]

/-- How many ACK bits a host command that completes with status Ok samples, one per byte it sends (R26, R230). -/
def bytesSent : Instr → Option Nat
  | .init _ _ => some 9
  | .setSegments ms _ => some (ms.length + 1)
  | .setBrightness _ _ => some 1
  | .dataCmd | .addrCmd _ | .dispCtrl _ _ | .segData _ | .driveLow _ | .release _ | .sample | .wait | .cfgPull _
  | .start | .writeBit _ | .ackSlot | .writeByte _ | .stop | .lookup _ | .print _ => none

/-- Carry out operations one after another. -/
def execAll : List Instr → State → Result
  | [], s => .next s
  | i :: is, s => andThen (exec i s) (execAll is)

end Sys2Proof.Safety
end

