-- ==== Sys2Proof/Certificates/Slice0/Obligations.lean ====
section
/-! DEFINITION. The statements for the provers. -/

open Sys2Proof Sys2Proof.Machine Sys2Proof.Safety

/-! ## Reset, fetch, decoding -/

/-- R220 with R28: `inited` = 0, `fsm` = Idle and `TRACE` empty, after the first reset, whatever the OPEN parameters (R5),
and after a reset of a running machine; and until the host issues a command the machine does nothing. The ROM is built
before reset is released (R223): for admissible parameters it is what BUILD makes of them and meets the constraints of D18.
The default parameters, those of State.reset, are admissible. R221: whatever the lines were after a reset of a running
machine, INIT's idle set-up releases both, CLK first, and where DIO was low the slave takes a STOP and its interface is idle
(that its decoder sees the lines there is the model's choice, log 21). -/
def Obligations.ResetLeavesWhatTheSpecFixes : Prop :=
  (∀ p : Params, (State.resetWith p).inited = false ∧ (State.resetWith p).fsm = .idle ∧
    (State.resetWith p).trace = [] ∧ (State.resetWith p).params = p ∧
    step (State.resetWith p) = .next (State.resetWith p) ∧
    (paramsAdmissible p = true →
      RomBuilt (State.resetWith p) ∧ romAdmissible p.segdef (State.resetWith p).rom = true)) ∧
  State.reset = State.resetWith Config.defaultParams ∧ RomBuilt State.reset ∧
  ∀ s : State, (hardwareReset s).inited = false ∧ (hardwareReset s).fsm = .idle ∧ (hardwareReset s).trace = [] ∧
    (hardwareReset s).rom = s.rom ∧ (initSetup (hardwareReset s)).trace = [.pc, .pd, .ch, .dh, .w] ∧
    (initSetup (hardwareReset s)).drv = ⟨false, false⟩ ∧
    ((hardwareReset s).drv.dio = true → (initSetup (hardwareReset s)).slave.rx.inframe = false)

/-- The step runs the decoded instruction: it takes the oldest record off the port and is exec of what the record decodes
to, if the issuer may issue it (R25, R66). -/
def Obligations.StepRunsDecodedRecord : Prop :=
  ∀ (s : State) (r : Record) (rest : List Record) (i : Instr), s.port = r :: rest → decode r = .ok i →
    (r.issuer = .host → hostMayIssue i = true) → step s = exec i { s with port := rest }

/-- What the step does otherwise: with an empty port it waits (R220), a record that decodes to nothing is rejected by name,
and so is a host record of an operation of classes 0 and 1 or of a bare wire byte (R66, R68). -/
def Obligations.StepWaitsOrRejectsByName : Prop :=
  (∀ s : State, s.port = [] → step s = .next s) ∧
  (∀ (s : State) (r : Record) (rest : List Record) (e : DecodeError), s.port = r :: rest → decode r = .error e →
    step s = .refused (.undecodable e)) ∧
  (∀ (s : State) (r : Record) (rest : List Record) (i : Instr), s.port = r :: rest → decode r = .ok i →
    r.issuer = .host → hostMayIssue i = false → step s = .refused .notForTheHost)

/-- A bare word of the opcode table placed at the fetch is the instruction the next step runs. -/
def Obligations.FetchWordRunsTableInstruction : Prop :=
  ∀ (s : State) (nbits w : Nat) (i : Instr), decodeTableWord nbits w = some i →
    step (s.withFetchWord nbits w) = exec i s

/-- Words written out bit by bit from R61 to R63 and from the tag table of R66. -/
def Obligations.WrittenWordsDecode : Prop :=
  decodeFirstByte 0b01000000 = .ok .dataCmd ∧ decodeFirstByte 0b11000101 = .ok (.addrCmd 5) ∧
  decodeFirstByte 0b10001011 = .ok (.dispCtrl true 3) ∧ decodeFirstByte 0b10000111 = .ok (.dispCtrl false 7) ∧
  decode ⟨.sequencer, .wireData, 0b01000000, {}⟩ = .ok (.segData 0x40) ∧
  decode ⟨.sequencer, .tag, 0b00000001, { line := .dio }⟩ = .ok (.release .dio) ∧
  decode ⟨.sequencer, .tag, 0b00010011, { byte := 0xA5 }⟩ = .ok (.writeByte 0xA5) ∧
  decode ⟨.host, .tag, 0b00100001, { masks := [0x76, 0x06], startPosition := -1 }⟩ =
    .ok (.setSegments [0x76, 0x06] (-1)) ∧
  decode ⟨.host, .tag, 0b00110000, { key := '8' }⟩ = .ok (.lookup '8') ∧
  decode ⟨.host, .tag, 0b01000000, { chars := ['H', 'I'] }⟩ = .ok (.print ['H', 'I'])

/-- Decode and encode agree for every well-formed instruction, with every operand at every value, and the fetch lets its
own issuer issue it. -/
def Obligations.DecodeOfEncodeIsIdentity : Prop :=
  ∀ i : Instr, i.wf = true → decode (encode i) = .ok i ∧ fetch (encode i) = .ok i

/-- R68: a byte decodes as the first byte of a frame exactly if it is 0x40, 0xC0 to 0xC5 or 0x80 to 0x8F; and what it
decodes to is well formed and encodes to that byte, so no bit of it is dropped (R61, R62, R63). -/
def Obligations.FirstBytePatternsAreExact : Prop :=
  ∀ b : Byte, (legalFirstByte b = true ↔ ∃ i, decodeFirstByte b = .ok i) ∧
    ∀ i, decodeFirstByte b = .ok i → i.wf = true ∧ codeOf i = (.wireFirst, b)

/-! ## Line primitives -/

/-- R81. DRIVE_LOW, tag 0x00, always completes: the driver bit of its line is 1 and the line reads 0, one event is
appended whether or not the bit changes, and nothing else changes in the block; no display register changes. -/
def Obligations.DriveLowSinksItsLine : Prop :=
  ∀ (l : Line) (s : State), decode ⟨.sequencer, .tag, 0x00, { line := l }⟩ = .ok (.driveLow l) ∧
    ∃ t, exec (.driveLow l) s = .next t ∧
      lineBit t.drv l = true ∧ (∀ l', l' ≠ l → lineBit t.drv l' = lineBit s.drv l') ∧ level t l = false ∧
      t.trace = s.trace ++ [match l with | .clk => .cl | .dio => .dl] ∧
      (∀ p, Memory.read t.slave.disp p = Memory.read s.slave.disp p) ∧
      t = { s with drv := t.drv, trace := t.trace, slave := t.slave }

/-- R82. RELEASE, tag 0x01, always completes: the driver bit of its line is 0, the line reads 1 unless another device pulls
it low (possible on DIO only), one event is appended whether or not the bit changes, and nothing else changes in the
block. The display registers stay unless this is the rise of DIO that ends a frame at the slave (R107). -/
def Obligations.ReleaseFreesItsLine : Prop :=
  ∀ (l : Line) (s : State), decode ⟨.sequencer, .tag, 0x01, { line := l }⟩ = .ok (.release l) ∧
    ∃ t, exec (.release l) s = .next t ∧
      lineBit t.drv l = false ∧ (∀ l', l' ≠ l → lineBit t.drv l' = lineBit s.drv l') ∧
      (l = .clk → level t l = true) ∧ (l = .dio → level t l = nextDraw t) ∧
      (s.ackSource = .noSlave → level t l = true) ∧
      t.trace = s.trace ++ [match l with | .clk => .ch | .dio => .dh] ∧
      (¬(l = .dio ∧ s.slave.rx.c = some false ∧ s.slave.rx.d = some true ∧ s.slave.rx.inframe = true) →
        ∀ p, Memory.read t.slave.disp p = Memory.read s.slave.disp p) ∧
      t = { s with drv := t.drv, trace := t.trace, slave := t.slave }

/-- R84. SET_DIO(b) is RELEASE(DIO) for 1 and DRIVE_LOW(DIO) for 0, and always appends exactly one event. -/
def Obligations.SetDioIsReleaseOrDriveLow : Prop :=
  ∀ (b : Bool) (s : State), setDio b s = (if b = true then release .dio s else driveLow .dio s) ∧
    (setDio b s).trace = s.trace ++ [if b = true then .dh else .dl] ∧ (setDio b s).drv.dio = !b

/-- R83 (D34). SAMPLE, tag 0x02, always completes. With DIO driven low by the block it reads 0 and uses no draw; with DIO released it
reads the level of DIO; the value is in ACKBIT and in the event; no driver bit and nothing else changes. -/
def Obligations.SampleReadsDio : Prop :=
  decode ⟨.sequencer, .tag, 0x02, {}⟩ = .ok .sample ∧
  ∀ s : State, ∃ t, exec .sample s = .next t ∧ t.ackbit = level s .dio ∧ t.trace = s.trace ++ [.s (level s .dio)] ∧
    (s.drv.dio = true → t.ackbit = false ∧ t.draws = s.draws ∧ t.fresh = s.fresh) ∧
    (∀ b ds, s.drv.dio = false → s.ackSource = .drawn → s.draws = b :: ds → t.ackbit = b ∧ t.draws = ds) ∧
    (s.drv.dio = false → s.ackSource = .noSlave → t.ackbit = true) ∧
    (∀ p, Memory.read t.slave.disp p = Memory.read s.slave.disp p) ∧
    t = { s with ackbit := t.ackbit, trace := t.trace, draws := t.draws, fresh := t.fresh }

/-- R85. WAIT appends `W` and changes nothing else: "drv, fsm and every register are unchanged across a WAIT"; the slave
too stays as it is. -/
def Obligations.WaitIsABareMarker : Prop :=
  ∀ s : State, exec .wait s = .next { s with trace := s.trace ++ [.w] }

/-- R87. CFG_PULL, tag 0x04, sets the pull bit of its line, appends `PC` or `PD`, and changes nothing else, not `drv`; the slave too
stays as it is; repeating it changes only the trace. -/
def Obligations.CfgPullRecordsThePull : Prop :=
  (∀ l : Line, decode ⟨.sequencer, .tag, 0x04, { line := l }⟩ = .ok (.cfgPull l)) ∧
  ∀ s : State,
    exec (.cfgPull .clk) s = .next { s with pull := ⟨true, s.pull.dio⟩, trace := s.trace ++ [.pc] } ∧
    exec (.cfgPull .dio) s = .next { s with pull := ⟨s.pull.clk, true⟩, trace := s.trace ++ [.pd] }

/-! ## Framing -/

/-- R100, R101. From `fsm` = Idle with both lines released START completes: `DL W`, DIO low, CLK untouched, `fsm` =
Started, BYTEIDX 0, nothing else; no display register changes. With either line driven low, or outside Idle, it is a
fault ("it should treat that as a fault, not give it a meaning"). -/
def Obligations.StartOpensAFrame : Prop :=
  (∀ s : State, s.fsm = .idle → s.drv = ⟨false, false⟩ → ∃ t, exec .start s = .next t ∧
    (∀ p, Memory.read t.slave.disp p = Memory.read s.slave.disp p) ∧
    t = { s with
      drv := ⟨false, true⟩, fsm := .started, byteidx := 0, sent := [], bitsDone := 0, trace := s.trace ++ [.dl, .w],
      slave := slaveHearAll [.dl, .w] s.slave }) ∧
  (∀ s : State, s.fsm ≠ .idle ∨ s.drv.clk = true ∨ s.drv.dio = true → exec .start s = .fault .startPrecondition)

/-- R102. In a frame WRITE_BIT completes: `CL W DH W CH W` for 1, `CL W DL W CH W` for 0; `drv[CLK]` = 0 and `drv[DIO]` =
1 - b after it; nothing else changes (but the model's own count of the bits of the current byte, log 25) and no display
register does. Outside a frame it is a fault. -/
def Obligations.WriteBitClocksOneBit : Prop :=
  (∀ (b : Bool) (s : State), s.fsm = .started ∨ s.fsm = .transmittingByte → ∃ t, exec (.writeBit b) s = .next t ∧
    (∀ p, Memory.read t.slave.disp p = Memory.read s.slave.disp p) ∧
    t = { s with
      drv := ⟨false, !b⟩, bitsDone := if s.bitsDone < 8 then s.bitsDone + 1 else 1,
      trace := s.trace ++ (if b = true then [.cl, .w, .dh, .w, .ch, .w] else [.cl, .w, .dl, .w, .ch, .w]),
      slave := slaveHearAll (bitEvents b) s.slave }) ∧
  (∀ (b : Bool) (s : State), s.fsm = .idle ∨ s.fsm = .stopped → exec (.writeBit b) s = .fault .bitPrecondition)

/-- R104. In a frame, with CLK released, ACK_SLOT completes after eight WRITE_BITs of the current byte, and in TransmittingByte
also wherever BITCNT = 8, which after WRITE_BYTE and one to seven bare WRITE_BITs is a BITCNT that WRITE_BYTE left: `CL DH W
CH W S(a) CL` with a in ACKBIT; CLK low and DIO released after it; nothing else changes and no display register does. Outside
a frame, with CLK low, or with neither eight bits done nor BITCNT = 8 in TransmittingByte, it is a fault. Eight WRITE_BITs
performed one by one from the start of a byte, then ACK_SLOT, complete with the very events of WRITE_BYTE. The model's choice
(log 25): how bits performed one by one are counted, and that BITCNT = 8 in TransmittingByte is enough whatever the count. -/
def Obligations.AckSlotSamplesOnce : Prop :=
  (∀ s : State, (s.fsm = .started ∨ s.fsm = .transmittingByte) ∧ s.bitsDone = 8 ∨
      s.fsm = .transmittingByte ∧ s.bitcnt = 8 → s.drv.clk = false → ∃ t a, exec .ackSlot s = .next t ∧
    (∀ b ds, s.ackSource = .drawn → s.draws = b :: ds → a = b ∧ t.draws = ds) ∧
    (∀ p, Memory.read t.slave.disp p = Memory.read s.slave.disp p) ∧
    t = { s with
      drv := ⟨true, false⟩, ackbit := a, trace := s.trace ++ [.cl, .dh, .w, .ch, .w, .s a, .cl], draws := t.draws,
      fresh := t.fresh, slave := slaveHearAll [.cl, .dh, .w, .ch, .w, .s a, .cl] s.slave }) ∧
  (∀ s : State, s.fsm = .idle ∨ s.fsm = .stopped ∨ s.drv.clk = true ∨
      (s.bitsDone ≠ 8 ∧ (s.fsm = .started ∨ s.bitcnt ≠ 8)) → exec .ackSlot s = .fault .ackPrecondition) ∧
  (∀ (v : Byte) (s : State), s.fsm = .started ∨ s.fsm = .transmittingByte → s.bitsDone = 0 ∨ s.bitsDone = 8 → ∃ t a,
    execAll ([.writeBit (v.getLsbD 0), .writeBit (v.getLsbD 1), .writeBit (v.getLsbD 2), .writeBit (v.getLsbD 3),
      .writeBit (v.getLsbD 4), .writeBit (v.getLsbD 5), .writeBit (v.getLsbD 6), .writeBit (v.getLsbD 7)] ++
      [.ackSlot]) s = .next t ∧ t.trace = s.trace ++ byteEvents v a ∧ t.ackbit = a ∧ t.drv = ⟨true, false⟩)

/-- R105. In a frame of fewer than 7 bytes WRITE_BYTE completes: the eight bit groups of v[0] to v[7], then the ACK slot;
CLK low, DIO released, SHIFT 0, `fsm` = TransmittingByte, BITCNT 8, BYTEIDX one more; the sampled bit in ACKBIT and
appended to `acks`; one AckMismatch with the byte's BYTEIDX if it is 1; nothing else changes and no display register
does. Outside a frame it is a fault, and so is an eighth byte (R16). -/
def Obligations.WriteByteSendsEightBitsAndSlot : Prop :=
  (∀ (v : Byte) (s : State), s.fsm = .started ∨ s.fsm = .transmittingByte → s.byteidx.toNat ≤ 6 →
    ∃ t a, exec (.writeByte v) s = .next t ∧
      (∀ p, Memory.read t.slave.disp p = Memory.read s.slave.disp p) ∧
      t = { s with
        drv := ⟨true, false⟩, fsm := .transmittingByte, shift := 0, bitcnt := 8, byteidx := s.byteidx + 1, ackbit := a,
        bitsDone := 8,
        acks := s.acks ++ [a], sent := s.sent ++ [v],
        diags := s.diags ++ (if a = true then [.ackMismatch s.byteidx] else []),
        trace := s.trace ++ byteEvents v a, draws := t.draws, fresh := t.fresh,
        slave := slaveHearAll (byteEvents v a) s.slave }) ∧
  (∀ (v : Byte) (s : State), s.fsm = .idle ∨ s.fsm = .stopped → exec (.writeByte v) s = .fault .bytePrecondition) ∧
  (∀ (v : Byte) (s : State), s.fsm = .started ∨ s.fsm = .transmittingByte → s.byteidx.toNat = 7 →
    exec (.writeByte v) s = .fault .frameTooLong)

/-- R103, R43. The DIO operation of bit step i of WRITE_BYTE, the third of its six events, is `DH` if bit i of the byte is
1 and `DL` if it is 0: least significant bit first. The 55 events of a byte are those and the slot's. -/
def Obligations.BitsAreSentLeastSignificantFirst : Prop :=
  ∀ (v : Byte) (s t : State), exec (.writeByte v) s = .next t → ∃ es, t.trace = s.trace ++ es ∧ es.length = 55 ∧
    ∀ i : Nat, i < 8 →
      (es.drop (6 * i)).take 6 = [.cl, .w, if v.getLsbD i = true then .dh else .dl, .w, .ch, .w]

/-- R106, R107. After a byte, with CLK low, STOP completes: `DL W CH W DH W`, both lines released, `fsm` = Idle; SHIFT,
BITCNT and BYTEIDX are unspecified after it (R15, R16), with BITCNT at most 8 and BYTEIDX at most 6; nothing else changes
but what the slave makes of it. In any other situation, directly after START too, it is a fault. -/
def Obligations.StopClosesTheFrame : Prop :=
  (∀ s : State, s.fsm = .transmittingByte → s.drv.clk = true → ∃ t, exec .stop s = .next t ∧
    t.bitcnt.toNat ≤ 8 ∧ t.byteidx.toNat ≤ 6 ∧
    t = { s with
      drv := ⟨false, false⟩, fsm := .idle, shift := t.shift, bitcnt := t.bitcnt, byteidx := t.byteidx, sent := [],
      bitsDone := 0, fresh := t.fresh, trace := s.trace ++ [.dl, .w, .ch, .w, .dh, .w],
      slave := slaveHearAll [.dl, .w, .ch, .w, .dh, .w] s.slave }) ∧
  (∀ s : State, s.fsm ≠ .transmittingByte ∨ s.drv.clk = false → exec .stop s = .fault .stopPrecondition)

/-- R61, R62, R63, R65. A wire command completes as the first byte of a frame, and is then WRITE_BYTE of 0x40, of
`0xC0 | position`, of `0x80 | show bit | brightness`; anywhere else it is a fault, and so is an address pattern with no
position behind it (R68). That a byte or bits sent by bare WRITE_BITs do not count for the position is the model's choice
(log 31). -/
def Obligations.WireCommandsOpenTheirFrame : Prop :=
  (∀ s : State, s.fsm = .started → s.byteidx.toNat ≤ 6 →
    (∃ t, exec .dataCmd s = .next t ∧ exec (.writeByte 0x40) s = .next t ∧ t.sent = s.sent ++ [0x40]) ∧
    (∀ p : BitVec 3, p.toNat ≤ 5 → ∃ t v, exec (.addrCmd p) s = .next t ∧ exec (.writeByte v) s = .next t ∧
      v.toNat = 0xC0 + p.toNat ∧ t.sent = s.sent ++ [v]) ∧
    (∀ (shown : Bool) (b : BitVec 3), ∃ t v, exec (.dispCtrl shown b) s = .next t ∧ exec (.writeByte v) s = .next t ∧
      v.toNat = 0x80 + (if shown = true then 8 else 0) + b.toNat ∧ t.sent = s.sent ++ [v])) ∧
  (∀ s : State, s.fsm ≠ .started → exec .dataCmd s = .fault .wirePosition ∧
    (∀ p, exec (.addrCmd p) s = .fault .wirePosition) ∧
    (∀ shown b, exec (.dispCtrl shown b) s = .fault .wirePosition)) ∧
  (∀ (s : State) (p : BitVec 3), 5 < p.toNat → exec (.addrCmd p) s = .fault .wirePosition)

/-- R64, R65. Every further byte of a frame whose first byte is ADDR_CMD is SEG_DATA, whatever its value, and is sent
unchanged (R156); after another first byte, or first in a frame, SEG_DATA is a fault. That 0xC6 and 0xC7, which no ADDR_CMD
sends, count as the first byte of such a frame is the model's choice (log 29), and so it is that a byte sent by bare
WRITE_BITs counts as none (log 31). -/
def Obligations.SegDataFollowsAnAddress : Prop :=
  (∀ (m b : Byte) (rest : List Byte) (s : State), s.fsm = .transmittingByte → s.sent = b :: rest →
    0xC0 ≤ b.toNat → b.toNat ≤ 0xC7 → s.byteidx.toNat ≤ 6 →
    ∃ t, exec (.segData m) s = .next t ∧ exec (.writeByte m) s = .next t ∧ t.sent = s.sent ++ [m]) ∧
  (∀ (m b : Byte) (rest : List Byte) (s : State), s.sent = b :: rest → b.toNat < 0xC0 ∨ 0xC7 < b.toNat →
    exec (.segData m) s = .fault .wirePosition) ∧
  (∀ (m : Byte) (s : State), s.fsm ≠ .transmittingByte → exec (.segData m) s = .fault .wirePosition)

/-- R109. The transitions of `fsm` by the internal operations, all of them: Idle to Started by START; Started or
TransmittingByte to TransmittingByte by a byte; TransmittingByte to Idle (through Stopped) by STOP; every other
operation keeps it. -/
def Obligations.FrameStateTransitionsAreClosed : Prop :=
  ∀ (i : Instr) (s t : State), hostMayIssue i = false → exec i s = .next t →
    t.fsm = s.fsm ∨ (i = .start ∧ s.fsm = .idle ∧ t.fsm = .started) ∨
    (s.fsm = .started ∧ t.fsm = .transmittingByte ∧
      (i = .dataCmd ∨ (∃ p, i = .addrCmd p) ∨ (∃ b n, i = .dispCtrl b n) ∨ ∃ v, i = .writeByte v)) ∨
    (i = .stop ∧ s.fsm = .transmittingByte ∧ t.fsm = .idle)

/-- R108, R65, R125: from a command boundary, a frame of an address byte and up to six masks is exactly START, ADDR_CMD,
one SEG_DATA per mask in order, STOP (D0's end-to-end scenario), and it completes. -/
def Obligations.AddressFrameIsItsWireForms : Prop :=
  ∀ (p : BitVec 3) (ms : List Byte) (s : State), AtBoundary s → p.toNat ≤ 5 → ms.length ≤ 6 →
    execAll ([.start, .addrCmd p] ++ ms.map .segData ++ [.stop]) s = frame (addressByte p.toNat :: ms) s ∧
    ∃ t, frame (addressByte p.toNat :: ms) s = .next t

/-! ## Frames: counts, edges, what a receiver reads -/

/-- R108, R111, R113. From a command boundary a frame of n bytes, 1 to 7, completes with the events of R108 for some ACK
bits, one per byte: 28n + 4 pad operations, 26n + 4 waits, n samples, 55n + 8 events, whatever the bytes and the bits; and
the machine is at a command boundary again. -/
def Obligations.FrameCountsAreFixed : Prop :=
  ∀ (bs : List Byte) (s : State), AtBoundary s → 1 ≤ bs.length → bs.length ≤ 7 → ∃ t as, frame bs s = .next t ∧
    as.length = bs.length ∧ t.trace = s.trace ++ frameEvents (bs.zip as) ∧ AtBoundary t ∧
    padOps (frameEvents (bs.zip as)) = 28 * bs.length + 4 ∧ waits (frameEvents (bs.zip as)) = 26 * bs.length + 4 ∧
    samples (frameEvents (bs.zip as)) = bs.length ∧ (frameEvents (bs.zip as)).length = 55 * bs.length + 8

/-- R112, R232. In a frame of n bytes the block changes its drive of DIO while CLK is released at exactly two events, the
first (`DL` of START) and the last but one (`DH` of STOP), and CLK rises exactly 9n + 1 times. -/
def Obligations.DioMovesOnlyWhileClkIsLow : Prop :=
  ∀ (bs : List Byte) (s t : State), 1 ≤ bs.length → frame bs s = .next t → ∃ es, t.trace = s.trace ++ es ∧
    dioMovesWhileHigh 0 s.drv es = [0, 55 * bs.length + 6] ∧ clkRises s.drv es = 9 * bs.length + 1

/-- R114. The reference decoder, started with both lines released, outputs for the events of a frame exactly that frame,
for every list of bytes and every sequence of ACK bits. -/
def Obligations.ReceiverReadsTheFrameSent : Prop :=
  ∀ (bs : List Byte) (s t : State), 1 ≤ bs.length → frame bs s = .next t → ∃ es, t.trace = s.trace ++ es ∧
    decodeFrames Receiver.idle es = [bs]

/-! ## Host commands -/

/-- R67, R130. The control byte is `0x80 + 8*s + brightness`, between 0x80 and 0x8F, and the address byte is `0xC0 +
position`, between 0xC0 and 0xC5, whenever the operands are in range. -/
def Obligations.OperandAssemblyIsExact : Prop :=
  (∀ (b : Int) (shown : Bool), 0 ≤ b → b ≤ 7 →
    ((controlByte b shown).toNat : Int) = 0x80 + (if shown = true then 8 else 0) + b) ∧
  (∀ p : Int, 0 ≤ p → p ≤ 5 → ((addressByte p).toNat : Int) = 0xC0 + p)

/-- R121, R122, R123. INIT with a legal brightness completes from EVERY state: `PC PD CH DH W`, then the frames of 0x40, of
0xC0 and six blanks, and of the control byte; nine ACK bits in order in the response, with status Ok; AckMismatch
diagnostics by the index in the frame; both lines released, both pulls configured, `inited` = 1, `fsm` = Idle. Nothing
else changes but the adapter's new session (the model's choice, log 16; that INIT runs in the middle of a frame too is the
model's choice, log 30), SHIFT, BITCNT, BYTEIDX, ACKBIT, the draws used,
and the slave, which has heard those events. -/
def Obligations.InitSendsItsThreeFrames : Prop :=
  ∀ (b : Int) (shown : Bool) (s : State), 0 ≤ b → b ≤ 7 → ∃ t a as z, exec (.init b shown) s = .next t ∧
    as.length = 7 ∧
    t = { s with
      drv := ⟨false, false⟩, pull := ⟨true, true⟩, inited := true, fsm := .idle, acks := [], sent := [], bitsDone := 0,
      adapter := ⟨0, false⟩, responses := s.responses ++ [⟨.ok, a :: as ++ [z]⟩],
      diags := s.diags ++ mismatches 0 [a] ++ mismatches 0 as ++ mismatches 0 [z],
      trace := s.trace ++ [.pc, .pd, .ch, .dh, .w] ++ frameEvents [(0x40, a)] ++
        frameEvents ([0xC0, 0, 0, 0, 0, 0, 0].zip as) ++ frameEvents [(controlByte b shown, z)],
      shift := t.shift, bitcnt := t.bitcnt, byteidx := t.byteidx, ackbit := z, draws := t.draws, fresh := t.fresh,
      slave := slaveHearAll ([.pc, .pd, .ch, .dh, .w] ++ frameEvents [(0x40, a)] ++
        frameEvents ([0xC0, 0, 0, 0, 0, 0, 0].zip as) ++ frameEvents [(controlByte b shown, z)]) s.slave }

/-- R120, R132, R195. INIT with a brightness outside [0,7] ends in ConfigurationError with an empty `acks` and no other
change, whatever the state. -/
def Obligations.InitRejectsBadBrightness : Prop :=
  ∀ (b : Int) (shown : Bool) (s : State), b < 0 ∨ 7 < b →
    exec (.init b shown) s = .next { s with responses := s.responses ++ [⟨.configurationError, []⟩] }

/-- R125, R126. From an initialised command boundary SET_SEGMENTS with a legal position and at most 6 masks completes with
one frame: the address byte, then every mask in order, unchanged and unclamped even past position 5; status Ok with one
ACK bit per byte. Nothing else changes but SHIFT, BITCNT, BYTEIDX, ACKBIT, the draws used, and the
slave, which has heard those events. -/
def Obligations.SetSegmentsSendsOneFrame : Prop :=
  ∀ (ms : List Byte) (p : Int) (s : State), AtBoundary s → s.inited = true → 0 ≤ p → p ≤ 5 → ms.length ≤ 6 →
    ∃ t as, exec (.setSegments ms p) s = .next t ∧ as.length = ms.length + 1 ∧
      t = { s with
        acks := [], sent := [], bitsDone := 0, responses := s.responses ++ [⟨.ok, as⟩], diags := s.diags ++ mismatches 0 as,
        trace := s.trace ++ frameEvents ((addressByte p :: ms).zip as), shift := t.shift, bitcnt := t.bitcnt,
        byteidx := t.byteidx, ackbit := lastAck s.ackbit as, draws := t.draws, fresh := t.fresh,
        slave := slaveHearAll (frameEvents ((addressByte p :: ms).zip as)) s.slave }

/-- R124, R201. The checks of SET_SEGMENTS in their order: `inited` = 0 is refused; else a position outside [0,5] ends in
RangeError with an empty `acks` and no other change, whatever the masks; else more than 6 masks is refused; else there
is no check left, none of the sum of position and count and none of the masks, and the one frame is sent. -/
def Obligations.SetSegmentsChecksInOrder : Prop :=
  ∀ (ms : List Byte) (p : Int) (s : State),
    (s.inited = false → exec (.setSegments ms p) s = .refused .notInitialized) ∧
    (s.inited = true → p < 0 ∨ 5 < p →
      exec (.setSegments ms p) s = .next { s with responses := s.responses ++ [⟨.rangeError, []⟩] }) ∧
    (s.inited = true → 0 ≤ p → p ≤ 5 → 6 < ms.length → exec (.setSegments ms p) s = .refused .tooManyMasks) ∧
    (s.inited = true → 0 ≤ p → p ≤ 5 → ms.length ≤ 6 →
      exec (.setSegments ms p) s = oneFrameCommand (addressByte p :: ms) s)

/-- R129. From an initialised command boundary SET_BRIGHTNESS with a legal brightness completes with one frame of the
control byte; status Ok with one ACK bit, which is in ACKBIT too. Nothing else changes but SHIFT, BITCNT, BYTEIDX, the
draws used, and the slave, which has heard those events: no brightness is remembered (R18). -/
def Obligations.SetBrightnessSendsOneByte : Prop :=
  ∀ (b : Int) (shown : Bool) (s : State), AtBoundary s → s.inited = true → 0 ≤ b → b ≤ 7 →
    ∃ t a, exec (.setBrightness b shown) s = .next t ∧
      t = { s with
        acks := [], sent := [], bitsDone := 0, responses := s.responses ++ [⟨.ok, [a]⟩], diags := s.diags ++ mismatches 0 [a],
        ackbit := a, trace := s.trace ++ frameEvents [(controlByte b shown, a)], shift := t.shift, bitcnt := t.bitcnt,
        byteidx := t.byteidx, draws := t.draws, fresh := t.fresh,
        slave := slaveHearAll (frameEvents [(controlByte b shown, a)]) s.slave }

/-- R128, R201. The checks of SET_BRIGHTNESS in their order: `inited` = 0 is refused; else a brightness outside [0,7] ends in
ConfigurationError with an empty `acks` and no other change. -/
def Obligations.SetBrightnessChecksInOrder : Prop :=
  ∀ (b : Int) (shown : Bool) (s : State),
    (s.inited = false → exec (.setBrightness b shown) s = .refused .notInitialized) ∧
    (s.inited = true → b < 0 ∨ 7 < b →
      exec (.setBrightness b shown) s = .next { s with responses := s.responses ++ [⟨.configurationError, []⟩] })

/-- R230. The counts of the commands that complete with status Ok, and their least durations in microseconds: INIT 524
events, SET_SEGMENTS with k masks 55k + 63, SET_BRIGHTNESS 63. That INIT completes in the middle of a frame too is the
model's choice (log 30). -/
def Obligations.CommandCountsAreFixed : Prop :=
  (∀ (b : Int) (shown : Bool) (s : State), 0 ≤ b → b ≤ 7 → ∃ t es, exec (.init b shown) s = .next t ∧
    t.trace = s.trace ++ es ∧ padOps es = 266 ∧ waits es = 247 ∧ samples es = 9 ∧ pullConfigs es = 2 ∧
    es.length = 524 ∧ leastDuration es = 247) ∧
  (∀ (ms : List Byte) (p : Int) (s : State), AtBoundary s → s.inited = true → 0 ≤ p → p ≤ 5 → ms.length ≤ 6 →
    ∃ t es, exec (.setSegments ms p) s = .next t ∧ t.trace = s.trace ++ es ∧ padOps es = 28 * ms.length + 32 ∧
      waits es = 26 * ms.length + 30 ∧ samples es = ms.length + 1 ∧ pullConfigs es = 0 ∧
      es.length = 55 * ms.length + 63 ∧ leastDuration es = 26 * ms.length + 30) ∧
  (∀ (b : Int) (shown : Bool) (s : State), AtBoundary s → s.inited = true → 0 ≤ b → b ≤ 7 →
    ∃ t es, exec (.setBrightness b shown) s = .next t ∧ t.trace = s.trace ++ es ∧ padOps es = 32 ∧ waits es = 30 ∧
      samples es = 1 ∧ pullConfigs es = 0 ∧ es.length = 63 ∧ leastDuration es = 30)

/-- R4. For each of the three host commands: the supplied draws, where there are enough, are the ACK bits of the response
in order (nine over INIT's three frames, one for SET_BRIGHTNESS, one more than the masks for SET_SEGMENTS), and with them
the events the command appends depend on the command alone: two executions that complete, from any two states, agree in
their events and their response. That INIT completes in the middle of a frame too is the model's choice (log 30). -/
def Obligations.CommandTraceFollowsTheDraws : Prop :=
  ∀ (i : Instr) (n : Nat) (s₁ s₂ t₁ t₂ : State), bytesSent i = some n →
    s₁.ackSource = .drawn → s₂.ackSource = .drawn → s₁.draws = s₂.draws → n ≤ s₁.draws.length →
    exec i s₁ = .next t₁ → exec i s₂ = .next t₂ →
    ∃ es r, t₁.trace = s₁.trace ++ es ∧ t₂.trace = s₂.trace ++ es ∧ t₁.responses = s₁.responses ++ [r] ∧
      t₂.responses = s₂.responses ++ [r] ∧ (r.status = .ok → r.acks = s₁.draws.take n)

/-- R115, R133. The value sampled in an ACK slot changes nothing the block does afterwards: whatever two lists of draws
the environment supplies, a command of the host ends in the same way, the events appended are the same but for the values
in `S(v)`, and the pads, `inited`, `fsm` and the adapter end the same. -/
def Obligations.AckBitsGateNothing : Prop :=
  ∀ (i : Instr) (s : State) (d₁ d₂ : List Bool), hostMayIssue i = true →
    match exec i { s with draws := d₁ }, exec i { s with draws := d₂ } with
    | .next t₁, .next t₂ =>
      t₁.trace.map blankSample = t₂.trace.map blankSample ∧ t₁.drv = t₂.drv ∧ t₁.pull = t₂.pull ∧
        t₁.inited = t₂.inited ∧ t₁.fsm = t₂.fsm ∧ t₁.adapter = t₂.adapter ∧
        t₁.responses.map Response.status = t₂.responses.map Response.status
    | .fault e₁, .fault e₂ => e₁ = e₂
    | .refused e₁, .refused e₂ => e₁ = e₂
    | _, _ => False

/-- R210. With no slave present every ACK sample is 1 and a command still completes: SET_SEGMENTS answers Ok, all its ACK
bits are 1, and one AckMismatch per byte is reported. -/
def Obligations.MissingSlaveStopsNothing : Prop :=
  ∀ (ms : List Byte) (p : Int) (s : State), AtBoundary s → s.inited = true → s.ackSource = .noSlave →
    0 ≤ p → p ≤ 5 → ms.length ≤ 6 → ∃ t, exec (.setSegments ms p) s = .next t ∧
      t.responses = s.responses ++ [⟨.ok, List.replicate (ms.length + 1) true⟩] ∧
      t.diags = s.diags ++ mismatches 0 (List.replicate (ms.length + 1) true)

/-! ## Rules of the whole machine -/

/-- R11, R12, R17, R20. TRACE accounts for the pads: whatever operation answers a next state has appended some events, and
the driver bits, the pull bits and ACKBIT are exactly what those events make of them; the slave has heard exactly those
events. -/
def Obligations.TraceAccountsForThePads : Prop :=
  ∀ (i : Instr) (s t : State), exec i s = .next t → ∃ es, t.trace = s.trace ++ es ∧
    t.drv = es.foldl drvAfter s.drv ∧ t.pull = es.foldl pullAfter s.pull ∧ t.ackbit = es.foldl ackAfter s.ackbit ∧
    t.slave = slaveHearAll es s.slave

/-- R13, R123. INIT with a legal brightness is the only operation that sets `inited`, and nothing clears it. -/
def Obligations.OnlyInitSetsInited : Prop :=
  ∀ (i : Instr) (s t : State), exec i s = .next t →
    (t.inited = true ↔ s.inited = true ∨ ∃ b shown, i = .init b shown ∧ 0 ≤ b ∧ b ≤ 7)

/-- R22, R151. No step writes the ROM or a parameter; so a ROM that BUILD made of admissible parameters (R5) goes on being
that ROM and meeting its constraints. -/
def Obligations.RomNeverChanges : Prop :=
  ∀ s t : State, step s = .next t → t.rom = s.rom ∧ t.params = s.params ∧
    (RomBuilt s → RomBuilt t ∧ romAdmissible t.params.segdef t.rom = true)

/-- R195, R132. A host command that answers with an error status has changed nothing but the response, and its `acks` is
empty. -/
def Obligations.ErrorsHaveNoOtherEffect : Prop :=
  ∀ (i : Instr) (s t : State) (r : Response),
    (∃ b shown, i = .init b shown) ∨ (∃ ms p, i = .setSegments ms p) ∨ (∃ b shown, i = .setBrightness b shown) →
    exec i s = .next t → t.responses = s.responses ++ [r] → r.status ≠ .ok →
    r.acks = [] ∧ t = { s with responses := t.responses }

/-- R110, R19, R222. The host's invariant: with host records only at the port, `fsm` is Idle and `acks` empty between
commands, and once `inited` = 1 both lines are released, both pulls configured and the slave between frames. Every step
keeps it. -/
def Obligations.StepKeepsHostInvariant : Prop :=
  ∀ s t : State, HostInv s → step s = .next t → HostInv t

/-- The two invariants hold at reset, and after a hardware reset of a machine for which they held. -/
def Obligations.ResetMeetsTheInvariants : Prop :=
  (HostInv State.reset ∧ ∀ s, HostInv s → HostInv (hardwareReset s)) ∧
  (MemoriesCanonical State.reset ∧ ∀ s, MemoriesCanonical s → MemoriesCanonical (hardwareReset s))

/-- R101, R234. No command of the host ever faults: the precondition of every START it reaches, of every byte and of every
STOP is met, and the only refusals are those of R198 and R199 and of a record that is not the host's to issue. -/
def Obligations.HostCommandsNeverFault : Prop :=
  ∀ s : State, HostInv s →
    (∃ t, step s = .next t) ∨ step s = .refused .notInitialized ∨ step s = .refused .tooManyMasks ∨
      step s = .refused .notForTheHost ∨ ∃ e, step s = .refused (.undecodable e)

/-- R60, R68, R2. Whatever the host issues, the events a step appends are whole frames of 1 to 7 bytes whose first byte is
0x40, 0xC0 to 0xC5 or 0x80 to 0x8F, after INIT's set-up or nothing. -/
def Obligations.HostStepsSendLegalFramesOnly : Prop :=
  ∀ s t : State, HostInv s → step s = .next t → ∃ (pre : List Event) (frames : List (List (Byte × Bool))),
    t.trace = s.trace ++ pre ++ frames.flatMap frameEvents ∧
    (pre = [] ∨ pre = [.pc, .pd, .ch, .dh, .w]) ∧ ∀ f ∈ frames, LegalFrame f

/-- The canonical form of the two memories is kept by every step, whatever is issued. -/
def Obligations.StepKeepsMemoriesCanonical : Prop :=
  ∀ s t : State, MemoriesCanonical s → step s = .next t → MemoriesCanonical t

/-- R54 is informative. The block does not depend on what the slave holds: unless the reference slave is asked to answer
the ACK slots, two runs of an operation that differ in the slave alone end the same in everything but the slave. -/
def Obligations.BlockNeverReadsTheSlave : Prop :=
  ∀ (i : Instr) (s : State) (sl : Slave), s.ackSource ≠ .referenceSlave →
    match exec i s, exec i { s with slave := sl } with
    | .next t, .next u => { u with slave := t.slave } = t
    | .fault e, .fault e' => e = e'
    | .refused e, .refused e' => e = e'
    | _, _ => False

/-! ## The display, under the reference slave -/

/-- R55, R127, R44. Under the reference slave SET_SEGMENTS within the six positions makes position p + i show `masks[i]` and
leaves every other position, the brightness and the on bit as they were; the address stored to is the start position plus
the index. The ROM reads as before. -/
def Obligations.SetSegmentsWritesItsPositions : Prop :=
  ∀ (ms : List Byte) (p : Nat) (s t : State), AtBoundary s → Listening s.slave → s.slave.clobbered = false →
    Memory.wf s.slave.disp = true → p ≤ 5 → p + ms.length ≤ 6 → exec (.setSegments ms p) s = .next t →
    (∀ i m, ms[i]? = some m → Memory.read t.slave.disp (p + i) = m) ∧
    (∀ a, a < p ∨ p + ms.length ≤ a → Memory.read t.slave.disp a = Memory.read s.slave.disp a) ∧
    t.slave.clobbered = false ∧ t.slave.bright = s.slave.bright ∧ t.slave.on = s.slave.on ∧
    t.slave.autoinc = s.slave.autoinc ∧ ∀ c, romFind t.rom c = romFind s.rom c

/-- R45, R53, R126. A SET_SEGMENTS that runs past position 5 leaves the reference slave clobbered: every display value is
any value. -/
def Obligations.WrapHazardClobbersTheDisplay : Prop :=
  ∀ (ms : List Byte) (p : Nat) (s t : State), AtBoundary s → Listening s.slave → p ≤ 5 → 6 < p + ms.length →
    exec (.setSegments ms p) s = .next t → t.slave.clobbered = true

/-- R55, R131. Under the reference slave SET_BRIGHTNESS sets the brightness and the on bit and changes no display
register. -/
def Obligations.SetBrightnessKeepsTheDisplay : Prop :=
  ∀ (b : Int) (shown : Bool) (s t : State), AtBoundary s → Listening s.slave → s.inited = true → 0 ≤ b → b ≤ 7 →
    exec (.setBrightness b shown) s = .next t →
    (t.slave.bright.toNat : Int) = b ∧ t.slave.on = shown ∧ t.slave.clobbered = s.slave.clobbered ∧
      ∀ a, Memory.read t.slave.disp a = Memory.read s.slave.disp a

/-- R55. Under the reference slave a successful INIT selects auto-increment, clears every display register and sets the
brightness and the on bit, in mid-frame too (R227): wherever the slave is not clobbered after INIT's idle set-up. A slave that
was not clobbered before is not after it, unless the set-up is a STOP to it that ends a frame (R221); the slave takes such a
frame as any other (R53), and what a hardware reset in mid-frame leaves of one is any value (U11, log 21). -/
def Obligations.InitClearsTheDisplay : Prop :=
  (∀ (b : Int) (shown : Bool) (s t : State), (initSetup s).slave.clobbered = false →
    Memory.wf s.slave.disp = true → 0 ≤ b → b ≤ 7 → exec (.init b shown) s = .next t →
    t.slave.autoinc = true ∧ (∀ a, Memory.read t.slave.disp a = 0x00) ∧ (t.slave.bright.toNat : Int) = b ∧
      t.slave.on = shown ∧ t.slave.clobbered = false) ∧
  (∀ s : State, s.slave.rx.inframe = false ∨ s.slave.rx.d ≠ some true → s.slave.clobbered = false →
    (initSetup s).slave.clobbered = false)

/-- R54. The reference slave acknowledges every byte: where it answers the ACK slots, every ACK bit of a SET_SEGMENTS is 0
and no AckMismatch is reported. -/
def Obligations.ReferenceSlaveAcknowledgesEveryByte : Prop :=
  ∀ (ms : List Byte) (p : Int) (s : State), AtBoundary s → Listening s.slave → s.inited = true →
    s.ackSource = .referenceSlave → 0 ≤ p → p ≤ 5 → ms.length ≤ 6 → ∃ t, exec (.setSegments ms p) s = .next t ∧
      t.responses = s.responses ++ [⟨.ok, List.replicate (ms.length + 1) false⟩] ∧ t.diags = s.diags

/-! ## The character ROM -/

/-- R150. LOOKUP, tag 0x30, always completes, whether or not `inited` = 1: a hit answers (1, ROM[c]), a miss answers hit 0
with a mask of which nothing is known but that the same key always gives the same; nothing else changes, not even the
trace. -/
def Obligations.LookupIsAPureRead : Prop :=
  (∀ c : Char, decode ⟨.host, .tag, 0x30, { key := c }⟩ = .ok (.lookup c) ∧ hostMayIssue (.lookup c) = true) ∧
  ∃ unspecified : Char → Byte, ∀ (c : Char) (s : State),
    (∀ m, romFind s.rom c = some m →
      exec (.lookup c) s = .next { s with romAnswers := s.romAnswers ++ [⟨true, m⟩] }) ∧
    (romFind s.rom c = none →
      exec (.lookup c) s = .next { s with romAnswers := s.romAnswers ++ [⟨false, unspecified c⟩] })

/-- R143, R148. BUILD yields a table exactly if no entry names itself, a later entry or an undefined name and no key is
defined twice; such a list is rejected, not repaired. The model's choice, not the spec's (log 24): that a key defined twice
is rejected, that nothing else is, so that a list whose zero-segment and one-segment entries do not come first builds too,
and that SEGDEF is not checked. -/
def Obligations.BuildRejectsForwardReferences : Prop :=
  ∀ (sd : SegDef) (defs : List RomDef), (build sd defs).isSome = true ↔ defsOrdered [] defs = true

/-- R144. Bit H is 0 in every entry of every ROM that BUILD makes, for every legal SEGDEF. -/
def Obligations.AuxiliaryBitNeverInRom : Prop :=
  ∀ (sd : SegDef) (defs : List RomDef) (rom : Memory), sd.wf = true → build sd defs = some rom →
    ∀ c m, romFind rom c = some m → m &&& sd.h = 0

/-- R143, R154, R148. Every entry BUILD makes is the OR of the masks of the entries it composes and its raw bits, so it omits
no bit of a sub-expression. -/
def Obligations.EntriesComposeCompletely : Prop :=
  ∀ (sd : SegDef) (defs : List RomDef) (rom : Memory), build sd defs = some rom → ∀ d ∈ defs,
    ∃ m r, romFind rom d.key = some m ∧ orRefs rom d.refs = some r ∧ m = r ||| orBits sd d.bits ∧
      ∀ c ∈ d.refs, ∃ v, romFind rom c = some v ∧ v &&& ~~~m = 0

/-- R145, R146, R147. For every SEGDEF the default list builds a table in which space is 0x00, '8' is SEG7, and the digits,
'-', '_', '?', '@', the degree sign, 'H' and 'I' hit; newline, carriage return, NUL and ESC miss (R149). For every legal
SEGDEF the table meets all that D18 asks of a ROM (R5). -/
def Obligations.DefaultTableForEverySegDef : Prop :=
  ∀ sd : SegDef, ∃ rom, build sd Config.defaultDefs = some rom ∧ romFind rom ' ' = some 0x00 ∧
    romFind rom '8' = some (seg7 sd) ∧
    (∀ c ∈ ['0', '1', '2', '3', '4', '5', '6', '7', '9', '-', '_', '?', '@', '°', 'H', 'I'],
      (romFind rom c).isSome = true) ∧
    (∀ n ∈ [0x0A, 0x0D, 0x00, 0x1B], romFind rom (Char.ofNat n) = none) ∧
    (sd.wf = true → romAdmissible sd rom = true)

/-! ## The adapter -/

/-- R171, R178, R179. From an initialised command boundary PRINT completes for every input and returns counts that add up to
the characters other than newline and carriage return; the machine is at a command boundary again, the column stays
within 0 to 6, and the pulls, the ROM, the parameters, the ROM port and the command port stay as they were. That the ROM
port's answers stay, as PRINT's own lookups are not appended to them, is the model's choice (log 18). -/
def Obligations.PrintCountsEveryCharacter : Prop :=
  ∀ (cs : List Char) (s : State), AtBoundary s → s.inited = true → ∃ t w k, exec (.print cs) s = .next t ∧
    t.printResults = s.printResults ++ [⟨w, k⟩] ∧ w + k = (cs.filter counted).length ∧ AtBoundary t ∧
    t.inited = true ∧ (s.adapter.col ≤ 6 → t.adapter.col ≤ 6) ∧
    t.pull = s.pull ∧ t.rom = s.rom ∧ t.params = s.params ∧ t.romAnswers = s.romAnswers ∧ t.port = s.port

/-- R172 to R178. PRINT ends exactly as the SET_SEGMENTS commands it issues end (as their stop, where one of them stops), with
the column moved and the counts returned. Each line is batched as one command, however it is cut:
one line, no clear pending, from any column: ONE SET_SEGMENTS at the column of the masks of its hits, as many as there is
room for up to position 5; the misses among them are reported and cut nothing, and misses and drops are skipped;
a pending clear: CLEAR is carried out before the first hit is placed, which then takes column 0;
a carriage return in mid-line: the batch before it goes out at its column, the batch after it at position 0;
a newline in mid-line: the batch before it goes out, then CLEAR, then the batch after it at position 0.
That the ROM port's answers stay as they were is the model's choice (log 18). -/
def Obligations.PrintBatchesOneLine : Prop :=
  (∀ (cs : List Char) (ms : List Byte) (s : State), (∀ c ∈ cs, counted c = true) → s.adapter.clearPending = false →
    ms = (cs.filterMap (romFind s.rom)).take (6 - s.adapter.col) →
    exec (.print cs) s =
      andThen (execAll (flushed ms s.adapter.col) { s with
        diags := s.diags ++ (cs.filter fun c => (romFind s.rom c).isNone).map .lookupMiss }) fun t =>
      .next { t with
        adapter := ⟨s.adapter.col + ms.length, false⟩,
        printResults := t.printResults ++ [⟨ms.length, cs.length - ms.length⟩] }) ∧
  (∀ (cs : List Char) (ms : List Byte) (s : State), Hits s cs ms → cs ≠ [] → s.adapter.clearPending = true →
    exec (.print cs) s =
      andThen (execAll (.setSegments clearMasks 0 :: flushed (ms.take 6) 0) s) fun t =>
      .next { t with
        adapter := ⟨(ms.take 6).length, false⟩,
        printResults := t.printResults ++ [⟨(ms.take 6).length, cs.length - (ms.take 6).length⟩] }) ∧
  (∀ (cs₁ cs₂ : List Char) (ms₁ ms₂ ns₁ ns₂ : List Byte) (s : State), Hits s cs₁ ms₁ → Hits s cs₂ ms₂ →
    s.adapter.clearPending = false → ns₁ = ms₁.take (6 - s.adapter.col) → ns₂ = ms₂.take 6 →
    exec (.print (cs₁ ++ '\r' :: cs₂)) s =
      andThen (execAll (flushed ns₁ s.adapter.col ++ flushed ns₂ 0) s) fun t =>
      .next { t with
        adapter := ⟨ns₂.length, false⟩,
        printResults := t.printResults ++
          [⟨ns₁.length + ns₂.length, (cs₁.length - ns₁.length) + (cs₂.length - ns₂.length)⟩] }) ∧
  (∀ (cs₁ cs₂ : List Char) (ms₁ ms₂ ns₁ ns₂ : List Byte) (s : State), Hits s cs₁ ms₁ → Hits s cs₂ ms₂ → cs₂ ≠ [] →
    s.adapter.clearPending = false → ns₁ = ms₁.take (6 - s.adapter.col) → ns₂ = ms₂.take 6 →
    exec (.print (cs₁ ++ '\n' :: cs₂)) s =
      andThen (execAll (flushed ns₁ s.adapter.col ++ .setSegments clearMasks 0 :: flushed ns₂ 0) s) fun t =>
      .next { t with
        adapter := ⟨ns₂.length, false⟩,
        printResults := t.printResults ++
          [⟨ns₁.length + ns₂.length, (cs₁.length - ns₁.length) + (cs₂.length - ns₂.length)⟩] })

/-- R172, R173, R174, R176. The characters that send nothing by themselves: newline only sets `clear_pending`; carriage return
only sets the column to 0; a miss only reports LookupMiss and is counted as skipped, the column staying; a hit at a full
line is only counted as skipped. They complete in every state, before a session has been created too: that PRINT runs its
pseudocode there is the model's deduction (R170; log 16), and that the ROM port's answers stay is its choice (log 18). -/
def Obligations.PrintCharactersWithoutAFrame : Prop :=
  ∀ s : State,
    exec (.print ['\n']) s = .next { s with
      adapter := { s.adapter with clearPending := true }, printResults := s.printResults ++ [⟨0, 0⟩] } ∧
    exec (.print ['\r']) s = .next { s with
      adapter := { s.adapter with col := 0 }, printResults := s.printResults ++ [⟨0, 0⟩] } ∧
    (∀ c, counted c = true → romFind s.rom c = none → exec (.print [c]) s = .next { s with
      diags := s.diags ++ [.lookupMiss c], printResults := s.printResults ++ [⟨0, 1⟩] }) ∧
    (∀ c m, counted c = true → romFind s.rom c = some m → s.adapter.col = 6 → s.adapter.clearPending = false →
      exec (.print [c]) s = .next { s with printResults := s.printResults ++ [⟨0, 1⟩] })
end

