-- ==== Sys2Proof/Laws/State.lean ====
section
/-! SUPPORT. The small lemmas of State: what each shared operation's update leaves in each field. -/

namespace Sys2Proof.Machine

@[simp] theorem andThen_next (s : State) (f : State → Result) : andThen (.next s) f = f s := rfl
@[simp] theorem andThen_fault (e : Fault) (f : State → Result) : andThen (.fault e) f = .fault e := rfl
@[simp] theorem andThen_refused (e : Refusal) (f : State → Result) : andThen (.refused e) f = .refused e := rfl

/-! ## emit -/

@[simp] theorem emit_trace (e : Event) (s : State) : (emit e s).trace = s.trace ++ [e] := rfl
@[simp] theorem emit_slave (e : Event) (s : State) : (emit e s).slave = slaveHear e s.slave := rfl
@[simp] theorem emit_drv (e : Event) (s : State) : (emit e s).drv = s.drv := rfl
@[simp] theorem emit_pull (e : Event) (s : State) : (emit e s).pull = s.pull := rfl
@[simp] theorem emit_inited (e : Event) (s : State) : (emit e s).inited = s.inited := rfl
@[simp] theorem emit_fsm (e : Event) (s : State) : (emit e s).fsm = s.fsm := rfl
@[simp] theorem emit_shift (e : Event) (s : State) : (emit e s).shift = s.shift := rfl
@[simp] theorem emit_bitcnt (e : Event) (s : State) : (emit e s).bitcnt = s.bitcnt := rfl
@[simp] theorem emit_byteidx (e : Event) (s : State) : (emit e s).byteidx = s.byteidx := rfl
@[simp] theorem emit_ackbit (e : Event) (s : State) : (emit e s).ackbit = s.ackbit := rfl
@[simp] theorem emit_rom (e : Event) (s : State) : (emit e s).rom = s.rom := rfl
@[simp] theorem emit_params (e : Event) (s : State) : (emit e s).params = s.params := rfl
@[simp] theorem emit_acks (e : Event) (s : State) : (emit e s).acks = s.acks := rfl
@[simp] theorem emit_sent (e : Event) (s : State) : (emit e s).sent = s.sent := rfl
@[simp] theorem emit_bitsDone (e : Event) (s : State) : (emit e s).bitsDone = s.bitsDone := rfl
@[simp] theorem emit_port (e : Event) (s : State) : (emit e s).port = s.port := rfl
@[simp] theorem emit_responses (e : Event) (s : State) : (emit e s).responses = s.responses := rfl
@[simp] theorem emit_romAnswers (e : Event) (s : State) : (emit e s).romAnswers = s.romAnswers := rfl
@[simp] theorem emit_diags (e : Event) (s : State) : (emit e s).diags = s.diags := rfl
@[simp] theorem emit_printResults (e : Event) (s : State) : (emit e s).printResults = s.printResults := rfl
@[simp] theorem emit_adapter (e : Event) (s : State) : (emit e s).adapter = s.adapter := rfl
@[simp] theorem emit_ackSource (e : Event) (s : State) : (emit e s).ackSource = s.ackSource := rfl
@[simp] theorem emit_draws (e : Event) (s : State) : (emit e s).draws = s.draws := rfl
@[simp] theorem emit_fresh (e : Event) (s : State) : (emit e s).fresh = s.fresh := rfl

/-! ## Lines -/

@[simp] theorem lineBit_set_same (b : LineBits) (l : Line) (v : Bool) : lineBit (setLineBit b l v) l = v := by
  cases l <;> rfl
theorem lineBit_set_other (b : LineBits) (l l' : Line) (v : Bool) (h : l' ≠ l) :
    lineBit (setLineBit b l v) l' = lineBit b l' := by
  cases l <;> cases l' <;> first | rfl | exact absurd rfl h

/-! ## Draws: using one up touches `draws` and `fresh` only -/

/-- The supplied draws left after one has been used. -/
def drawsAfter (s : State) : List Bool :=
  match s.ackSource with
  | .drawn => s.draws.tail
  | .referenceSlave | .noSlave => s.draws

/-- The free-value counter after a draw. -/
def freshAfter (s : State) : Nat :=
  match s.ackSource, s.draws with
  | .drawn, [] => s.fresh + 1
  | _, _ => s.fresh

theorem consumeDraw_eq (s : State) : consumeDraw s = { s with draws := drawsAfter s, fresh := freshAfter s } := by
  obtain ⟨_, _, _, _, _, _, _, _, _, _, _, _, _, _, _, _, _, _, _, _, _, src, ds, _⟩ := s
  cases src <;> cases ds <;> rfl

end Sys2Proof.Machine
end

