-- ==== Sys2Proof/Laws/Ops.lean ====
section
/-! SUPPORT. One lemma per shared operation that says all it does, as one record update: the fields written and, by what
the record keeps, everything that stays. Callers cite these and never unfold the operations. -/

namespace Sys2Proof.Machine

open Sys2Proof.Safety

@[simp] theorem slaveHearAll_nil (sl : Slave) : slaveHearAll [] sl = sl := rfl
@[simp] theorem slaveHearAll_cons (e : Event) (es : List Event) (sl : Slave) :
    slaveHearAll (e :: es) sl = slaveHearAll es (slaveHear e sl) := rfl
@[simp] theorem slaveHearAll_append (es fs : List Event) (sl : Slave) :
    slaveHearAll (es ++ fs) sl = slaveHearAll fs (slaveHearAll es sl) := by
  simp [slaveHearAll]

/-! ## Line primitives -/

theorem driveLow_eq (l : Line) (s : State) :
    driveLow l s = { s with
      drv := setLineBit s.drv l true, trace := s.trace ++ [lowEvent l], slave := slaveHear (lowEvent l) s.slave } := rfl

theorem release_eq (l : Line) (s : State) :
    release l s = { s with
      drv := setLineBit s.drv l false, trace := s.trace ++ [highEvent l], slave := slaveHear (highEvent l) s.slave } := rfl

theorem waitBit_eq (s : State) :
    waitBit s = { s with trace := s.trace ++ [.w], slave := slaveHear .w s.slave } := rfl

theorem cfgPull_eq (l : Line) (s : State) :
    cfgPull l s = { s with
      pull := setLineBit s.pull l true, trace := s.trace ++ [pullEvent l], slave := slaveHear (pullEvent l) s.slave } := rfl

/-- SAMPLE with DIO released: a draw is used, latched and traced (R83). -/
theorem sampleDio_released (s : State) (h : s.drv.dio = false) :
    sampleDio s = { s with
      draws := drawsAfter s, fresh := freshAfter s, ackbit := nextDraw s, trace := s.trace ++ [.s (nextDraw s)],
      slave := slaveHear (.s (nextDraw s)) s.slave } := by
  simp [sampleDio, level, h, consumeDraw_eq, setAckBit, emit]

/-- SAMPLE with DIO driven low by the block: 0 without a draw (R83, D34). -/
theorem sampleDio_driven (s : State) (h : s.drv.dio = true) :
    sampleDio s = { s with
      ackbit := false, trace := s.trace ++ [.s false], slave := slaveHear (.s false) s.slave } := by
  simp [sampleDio, level, h, setAckBit, emit]

/-! ## Framing -/

theorem startOps_eq (s : State) :
    startOps s = { s with
      drv := { s.drv with dio := true }, fsm := .started, byteidx := 0, sent := [], bitsDone := 0,
      trace := s.trace ++ startEvents, slave := slaveHearAll startEvents s.slave } := by
  simp [startOps, waitBit_eq, driveLow_eq, setLineBit, lowEvent, startEvents]

theorem bitOps_eq (b : Bool) (s : State) :
    bitOps b s = { s with
      drv := ⟨false, !b⟩, trace := s.trace ++ bitEvents b, slave := slaveHearAll (bitEvents b) s.slave } := by
  cases b <;>
    simp [bitOps, setDio, waitBit_eq, driveLow_eq, release_eq, setLineBit, lowEvent, highEvent, bitEvents]

/-- The value an ACK slot samples when it begins in this state (R104): the draw at its SAMPLE. -/
def slotDraw (s : State) : Bool := nextDraw { s with slave := slaveHearAll [.cl, .dh, .w, .ch, .w] s.slave }

theorem ackOps_eq (s : State) :
    ackOps s = { s with
      drv := ⟨true, false⟩, draws := drawsAfter s, fresh := freshAfter s, ackbit := slotDraw s,
      trace := s.trace ++ ackEvents (slotDraw s), slave := slaveHearAll (ackEvents (slotDraw s)) s.slave } := by
  unfold ackOps
  rw [sampleDio_released _ rfl]
  simp [waitBit_eq, driveLow_eq, release_eq, setLineBit, lowEvent, highEvent, ackEvents, slotDraw, nextDraw, drawsAfter,
    freshAfter]

theorem bitStep_eq (s : State) (i : Nat) :
    bitStep s i = { s with
      drv := ⟨false, !s.shift.getLsbD 0⟩, shift := s.shift >>> 1, bitcnt := BitVec.ofNat 4 i,
      trace := s.trace ++ bitEvents (s.shift.getLsbD 0),
      slave := slaveHearAll (bitEvents (s.shift.getLsbD 0)) s.slave } := by
  simp [bitStep, bitOps_eq]

theorem eightBits_eq (s : State) :
    eightBits s = { s with
      drv := ⟨false, !s.shift.getLsbD 7⟩, shift := 0, bitcnt := 7,
      trace := s.trace ++ dataEvents s.shift, slave := slaveHearAll (dataEvents s.shift) s.slave } := by
  have h : s.shift >>> 8 = 0#8 := by
    apply BitVec.eq_of_toNat_eq
    have := s.shift.isLt
    simp only [BitVec.toNat_ushiftRight, Nat.shiftRight_eq_div_pow, BitVec.toNat_ofNat]
    omega
  simp [eightBits, bitStep_eq, dataEvents, ← BitVec.shiftRight_add, h]

/-- The value WRITE_BYTE samples for the byte when it begins in this state (R105). -/
def byteDraw (v : Byte) (s : State) : Bool := slotDraw { s with slave := slaveHearAll (dataEvents v) s.slave }

theorem byteOps_eq (v : Byte) (s : State) :
    byteOps v s = { s with
      drv := ⟨true, false⟩, fsm := .transmittingByte, shift := 0, bitcnt := 8, byteidx := s.byteidx + 1,
      bitsDone := 8, ackbit := byteDraw v s, acks := s.acks ++ [byteDraw v s], sent := s.sent ++ [v],
      diags := s.diags ++ (if byteDraw v s then [.ackMismatch s.byteidx] else []),
      draws := drawsAfter s, fresh := freshAfter s,
      trace := s.trace ++ byteEvents v (byteDraw v s),
      slave := slaveHearAll (byteEvents v (byteDraw v s)) s.slave } := by
  have h : slotDraw { eightBits { s with fsm := .transmittingByte, shift := v } with bitcnt := 8, bitsDone := 8 } = byteDraw v s := by
    rw [eightBits_eq]; rfl
  unfold byteOps
  rw [ackOps_eq, h, eightBits_eq]
  simp [byteDone, reportAck, byteEvents, drawsAfter, freshAfter]

theorem stopOps_eq (s : State) :
    stopOps s = { s with
      drv := ⟨false, false⟩, fsm := .idle, shift := Config.freeShift s.fresh,
      bitcnt := BitVec.ofNat 4 (Config.freeBitCnt s.fresh).val,
      byteidx := BitVec.ofNat 3 (Config.freeByteIdx s.fresh).val, sent := [], bitsDone := 0, fresh := s.fresh + 1,
      trace := s.trace ++ stopEvents, slave := slaveHearAll stopEvents s.slave } := by
  simp [stopOps, leaveFrame, waitBit_eq, driveLow_eq, release_eq, setLineBit, lowEvent, highEvent, stopEvents]

/-! ## Frames -/

/-- What sending some bytes does: the ACK bits sampled, one per byte, and the state after. -/
structure SentBytes (bytes : List Byte) (s t : State) (as : List Bool) : Prop where
  len   : as.length = bytes.length
  state : t = { s with
    drv := t.drv, fsm := t.fsm, shift := t.shift, bitcnt := t.bitcnt, byteidx := t.byteidx,
    bitsDone := t.bitsDone, ackbit := lastAck s.ackbit as, acks := s.acks ++ as, sent := s.sent ++ bytes,
    diags := s.diags ++ mismatches s.byteidx.toNat as, draws := t.draws, fresh := t.fresh,
    trace := s.trace ++ bytesEvents (bytes.zip as), slave := slaveHearAll (bytesEvents (bytes.zip as)) s.slave }
  busy  : bytes ≠ [] → t.fsm = .transmittingByte ∧ t.drv = ⟨true, false⟩
  drawn : s.ackSource = .drawn → bytes.length ≤ s.draws.length → as = s.draws.take bytes.length
  absent : s.ackSource = .noSlave → as = List.replicate bytes.length true
  left : s.ackSource = .drawn → t.draws = s.draws.drop bytes.length

theorem sendByte_next (v : Byte) (s : State) (hf : inFrame s = true) (hi : s.byteidx.toNat ≤ 6) :
    sendByte v s = .next (byteOps v s) := by
  simp [sendByte, hf, Config.maxMasks, hi]

theorem byteidx_succ (x : BitVec 3) (h : x.toNat ≤ 6) : (x + 1).toNat = x.toNat + 1 := by
  have h1 : (1 : BitVec 3).toNat = 1 := rfl
  simp only [BitVec.toNat_add, h1]
  omega

theorem byteDraw_drawn (v : Byte) (s : State) (b : Bool) (ds : List Bool) (h : s.ackSource = .drawn)
    (hd : s.draws = b :: ds) : byteDraw v s = b := by
  simp [byteDraw, slotDraw, nextDraw, h, hd]

theorem byteDraw_absent (v : Byte) (s : State) (h : s.ackSource = .noSlave) : byteDraw v s = true := by
  simp [byteDraw, slotDraw, nextDraw, h]

theorem sendBytes_next (bytes : List Byte) (s : State) (hf : inFrame s = true)
    (hn : s.byteidx.toNat + bytes.length ≤ 7) :
    ∃ t as, sendBytes bytes s = .next t ∧ SentBytes bytes s t as := by
  induction bytes generalizing s with
  | nil => exact ⟨s, [], rfl, rfl, by simp [bytesEvents, mismatches, lastAck], by simp,
    by simp, by simp, by simp⟩
  | cons v vs ih =>
    simp only [List.length_cons] at hn
    have hstep := sendByte_next v s hf (by omega)
    have hidx : (byteOps v s).byteidx.toNat = s.byteidx.toNat + 1 := by
      rw [byteOps_eq]; exact byteidx_succ _ (by omega)
    have hfr : inFrame (byteOps v s) = true := by rw [byteOps_eq]; rfl
    obtain ⟨t, as, ht, hs⟩ := ih (byteOps v s) hfr (by omega)
    refine ⟨t, byteDraw v s :: as, by simp [sendBytes, hstep, ht], by simp [hs.len], ?_, ?_, ?_, ?_, ?_⟩
    · have h1 := hs.state
      rw [hidx, byteOps_eq] at h1
      rw [h1]
      simp [bytesEvents, mismatches, lastAck]
    · intro _
      cases vs with
      | nil =>
        have h1 : t = byteOps v s := by simpa [sendBytes] using ht.symm
        rw [h1, byteOps_eq]
        exact ⟨rfl, rfl⟩
      | cons w ws => exact hs.busy (by simp)
    · intro hsrc hlen
      obtain ⟨b, ds, hd⟩ : ∃ b ds, s.draws = b :: ds := by
        cases hd : s.draws with
        | nil => simp [hd] at hlen
        | cons b ds => exact ⟨b, ds, rfl⟩
      have hdr : (byteOps v s).draws = ds := by rw [byteOps_eq]; simp [drawsAfter, hsrc, hd]
      have h2 := hs.drawn (by rw [byteOps_eq]; exact hsrc) (by rw [hdr]; simpa [hd] using hlen)
      rw [byteDraw_drawn v s b ds hsrc hd, h2, hdr, hd]
      simp
    · intro hsrc
      rw [byteDraw_absent v s hsrc, hs.absent (by rw [byteOps_eq]; exact hsrc)]
      rfl
    · intro hsrc
      rw [hs.left (by rw [byteOps_eq]; exact hsrc), byteOps_eq]
      simp [drawsAfter, hsrc]

/-- What a frame does: the ACK bits sampled, one per byte, and the state after (R108). -/
structure SentFrame (bytes : List Byte) (s t : State) (as : List Bool) : Prop where
  len   : as.length = bytes.length
  state : t = { s with
    drv := ⟨false, false⟩, fsm := .idle, shift := t.shift, bitcnt := t.bitcnt, byteidx := t.byteidx,
    bitsDone := 0, ackbit := lastAck s.ackbit as, acks := s.acks ++ as, sent := [], diags := s.diags ++ mismatches 0 as,
    draws := t.draws, fresh := t.fresh, trace := s.trace ++ frameEvents (bytes.zip as),
    slave := slaveHearAll (frameEvents (bytes.zip as)) s.slave }
  drawn : s.ackSource = .drawn → bytes.length ≤ s.draws.length → as = s.draws.take bytes.length
  absent : s.ackSource = .noSlave → as = List.replicate bytes.length true
  left : s.ackSource = .drawn → t.draws = s.draws.drop bytes.length

/-- A frame of 1 to 7 bytes from a command boundary completes (R108, R113). -/
theorem frame_next (bytes : List Byte) (s : State) (hb : AtBoundary s) (h0 : bytes ≠ []) (h7 : bytes.length ≤ 7) :
    ∃ t as, frame bytes s = .next t ∧ SentFrame bytes s t as := by
  obtain ⟨hidle, hdrv⟩ := hb
  have hready : startReady s = true := by simp [startReady, hidle, hdrv, released]
  obtain ⟨t, as, ht, hs⟩ :=
    sendBytes_next bytes (startOps s) (by rw [startOps_eq]; rfl) (by rw [startOps_eq]; simpa using h7)
  obtain ⟨hf, hd⟩ := hs.busy h0
  have hstop : stopReady t = true := by simp [stopReady, hf, hd]
  refine ⟨stopOps t, as, by simp [frame, startFrame, hready, ht, stopFrame, hstop], hs.len, ?_, ?_, ?_, ?_⟩
  · have h1 := hs.state
    rw [startOps_eq] at h1
    rw [stopOps_eq, h1]
    simp [frameEvents]
  · intro hsrc hlen
    have h2 := hs.drawn (by rw [startOps_eq]; exact hsrc) (by rw [startOps_eq]; exact hlen)
    rw [startOps_eq] at h2
    exact h2
  · intro hsrc
    exact hs.absent (by rw [startOps_eq]; exact hsrc)
  · intro hsrc
    rw [stopOps_eq]
    have h2 := hs.left (by rw [startOps_eq]; exact hsrc)
    rw [startOps_eq] at h2
    exact h2

/-- A frame that completes was begun at a command boundary, with 1 to 7 bytes (R101, R106, R108). -/
theorem frame_next_inv (bytes : List Byte) (s t : State) (h : frame bytes s = .next t) :
    AtBoundary s ∧ bytes ≠ [] := by
  unfold frame startFrame at h
  split at h
  · rename_i hr
    refine ⟨?_, ?_⟩
    · simp only [startReady, Bool.and_eq_true, beq_iff_eq, Bool.not_eq_true'] at hr
      obtain ⟨⟨h1, h2⟩, h3⟩ := hr
      refine ⟨h1, ?_⟩
      cases hd : s.drv
      simp_all [released]
    · rintro rfl
      simp [sendBytes, stopFrame, stopReady, startOps_eq] at h
  · simp at h

end Sys2Proof.Machine
end

