-- ==== Sys2Proof/Laws/Frames.lean ====
section
/-! SUPPORT. What a frame and a one-frame command do, said once: the counts and edges of their events, every way a frame or
SET_SEGMENTS can end, and INIT's set-up as one record update. -/

namespace Sys2Proof.Machine

open Sys2Proof.Safety

/-! ## Counts (R111) -/

theorem padOps_append (es fs : List Event) : padOps (es ++ fs) = padOps es + padOps fs := by simp [padOps]
theorem waits_append (es fs : List Event) : waits (es ++ fs) = waits es + waits fs := by simp [waits]
theorem samples_append (es fs : List Event) : samples (es ++ fs) = samples es + samples fs := by simp [samples]
theorem pullConfigs_append (es fs : List Event) : pullConfigs (es ++ fs) = pullConfigs es + pullConfigs fs := by
  simp [pullConfigs]

theorem bytesEvents_cons (v : Byte) (a : Bool) (bs : List (Byte × Bool)) :
    bytesEvents ((v, a) :: bs) = byteEvents v a ++ bytesEvents bs := by simp [bytesEvents]

theorem bitEvents_counts (b : Bool) :
    padOps (bitEvents b) = 3 ∧ waits (bitEvents b) = 3 ∧ samples (bitEvents b) = 0 ∧ pullConfigs (bitEvents b) = 0 ∧
      (bitEvents b).length = 6 := by
  cases b <;> decide

theorem byteEvents_counts (v : Byte) (a : Bool) :
    padOps (byteEvents v a) = 28 ∧ waits (byteEvents v a) = 26 ∧ samples (byteEvents v a) = 1 ∧
      pullConfigs (byteEvents v a) = 0 ∧ (byteEvents v a).length = 55 := by
  have ha : padOps (ackEvents a) = 4 ∧ waits (ackEvents a) = 2 ∧ samples (ackEvents a) = 1 ∧
      pullConfigs (ackEvents a) = 0 ∧ (ackEvents a).length = 7 := by cases a <;> decide
  simp [byteEvents, dataEvents, padOps_append, waits_append, samples_append, pullConfigs_append, bitEvents_counts, ha]

theorem bytesEvents_counts (bs : List (Byte × Bool)) :
    padOps (bytesEvents bs) = 28 * bs.length ∧ waits (bytesEvents bs) = 26 * bs.length ∧
      samples (bytesEvents bs) = bs.length ∧ pullConfigs (bytesEvents bs) = 0 ∧
      (bytesEvents bs).length = 55 * bs.length := by
  induction bs with
  | nil => decide
  | cons p ps ih =>
    obtain ⟨v, a⟩ := p
    obtain ⟨h1, h2, h3, h4, h5⟩ := ih
    obtain ⟨g1, g2, g3, g4, g5⟩ := byteEvents_counts v a
    rw [bytesEvents_cons, padOps_append, waits_append, samples_append, pullConfigs_append, List.length_append,
      List.length_cons, h1, h2, h3, h4, h5, g1, g2, g3, g4, g5]
    omega

theorem frameEvents_counts (bs : List (Byte × Bool)) :
    padOps (frameEvents bs) = 28 * bs.length + 4 ∧ waits (frameEvents bs) = 26 * bs.length + 4 ∧
      samples (frameEvents bs) = bs.length ∧ pullConfigs (frameEvents bs) = 0 ∧
      (frameEvents bs).length = 55 * bs.length + 8 := by
  obtain ⟨h1, h2, h3, h4, h5⟩ := bytesEvents_counts bs
  have hs : padOps startEvents = 1 ∧ waits startEvents = 1 ∧ samples startEvents = 0 ∧ pullConfigs startEvents = 0 ∧
      startEvents.length = 2 := by decide
  have hp : padOps stopEvents = 3 ∧ waits stopEvents = 3 ∧ samples stopEvents = 0 ∧ pullConfigs stopEvents = 0 ∧
      stopEvents.length = 6 := by decide
  simp only [frameEvents, padOps_append, waits_append, samples_append, pullConfigs_append, List.length_append]
  omega

/-! ## Edges (R112) -/

theorem dioMovesWhileHigh_append (es fs : List Event) (n : Nat) (d : LineBits) :
    dioMovesWhileHigh n d (es ++ fs) =
      dioMovesWhileHigh n d es ++ dioMovesWhileHigh (n + es.length) (es.foldl drvAfter d) fs := by
  induction es generalizing n d with
  | nil => rfl
  | cons e es ih =>
    simp only [List.cons_append, dioMovesWhileHigh]
    split <;> simp [ih, Nat.add_assoc, Nat.add_comm 1]

theorem clkRises_append (es fs : List Event) (d : LineBits) :
    clkRises d (es ++ fs) = clkRises d es + clkRises (es.foldl drvAfter d) fs := by
  induction es generalizing d with
  | nil => simp [clkRises]
  | cons e es ih => simp [clkRises, ih, Nat.add_assoc]

/-- A bit group never moves DIO while CLK is released, and CLK rises once in it. -/
theorem bitEvents_edges (b : Bool) (d : LineBits) (n : Nat) :
    dioMovesWhileHigh n d (bitEvents b) = [] ∧ clkRises d (bitEvents b) = 1 ∧
      (bitEvents b).foldl drvAfter d = ⟨false, !b⟩ := by
  obtain ⟨c, d⟩ := d
  cases b <;> cases c <;> cases d <;> exact ⟨rfl, rfl, rfl⟩

theorem ackEvents_edges (a : Bool) (d : LineBits) (n : Nat) :
    dioMovesWhileHigh n d (ackEvents a) = [] ∧ clkRises d (ackEvents a) = 1 ∧
      (ackEvents a).foldl drvAfter d = ⟨true, false⟩ := by
  obtain ⟨c, d⟩ := d
  cases a <;> cases c <;> cases d <;> exact ⟨rfl, rfl, rfl⟩

theorem byteEvents_edges (v : Byte) (a : Bool) (d : LineBits) (n : Nat) :
    dioMovesWhileHigh n d (byteEvents v a) = [] ∧ clkRises d (byteEvents v a) = 9 ∧
      (byteEvents v a).foldl drvAfter d = ⟨true, false⟩ := by
  have b1 := fun b d n => (bitEvents_edges b d n).1
  have b2 := fun b d => (bitEvents_edges b d 0).2.1
  have b3 := fun b d => (bitEvents_edges b d 0).2.2
  have a1 := fun d n => (ackEvents_edges a d n).1
  have a2 := fun d => (ackEvents_edges a d 0).2.1
  have a3 := fun d => (ackEvents_edges a d 0).2.2
  simp [byteEvents, dataEvents, dioMovesWhileHigh_append, clkRises_append, b1, b2, b3, a1, a2, a3]

/-! ## Every way a frame can end -/

/-- A byte that is sent was sent inside a frame, as one of its first seven (R105, R16). -/
theorem sendByte_next_inv {v : Byte} {s t : State} (h : sendByte v s = .next t) :
    inFrame s = true ∧ s.byteidx.toNat ≤ 6 ∧ t = byteOps v s := by
  unfold sendByte at h
  split at h
  · rename_i hf
    split at h
    · rename_i hi
      cases h
      exact ⟨hf, hi, rfl⟩
    · cases h
  · cases h

/-- No more bytes are sent than fit the frame. -/
theorem sendBytes_next_room (bs : List Byte) (s t : State) (h : sendBytes bs s = .next t) :
    s.byteidx.toNat + bs.length ≤ 7 := by
  induction bs generalizing s with
  | nil => have := s.byteidx.isLt; simp only [List.length_nil]; omega
  | cons v vs ih =>
    simp only [sendBytes] at h
    cases hb : sendByte v s with
    | next u =>
      rw [hb] at h
      obtain ⟨_, hi, rfl⟩ := sendByte_next_inv hb
      have hr := ih _ h
      rw [byteOps_eq] at hr
      simp only [byteidx_succ _ hi] at hr
      simp only [List.length_cons]
      omega
    | fault e => rw [hb] at h; cases h
    | refused e => rw [hb] at h; cases h

/-- A frame that completes was begun at a command boundary, has 1 to 7 bytes, and has done what a frame does. -/
theorem frame_sent {bs : List Byte} {s t : State} (h : frame bs s = .next t) :
    ∃ as, SentFrame bs s t as ∧ bs ≠ [] ∧ bs.length ≤ 7 ∧ AtBoundary s := by
  obtain ⟨hb, h0⟩ := frame_next_inv bs s t h
  have h7 : bs.length ≤ 7 := by
    unfold frame startFrame at h
    split at h
    · simp only [andThen_next] at h
      cases hu : sendBytes bs (startOps s) with
      | next u =>
        have hr := sendBytes_next_room _ _ _ hu
        rw [startOps_eq] at hr
        simpa using hr
      | fault e => rw [hu] at h; cases h
      | refused e => rw [hu] at h; cases h
    · cases h
  obtain ⟨u, as, hu, hs⟩ := frame_next bs s hb h0 h7
  rw [hu] at h
  cases h
  exact ⟨as, hs, h0, h7, hb⟩

/-! ## Commands of one frame (R125, R129) -/

/-- A command of one frame completes from a command boundary, and what it does. -/
theorem oneFrameCommand_next (bs : List Byte) (s : State) (hb : AtBoundary s) (h0 : bs ≠ []) (h7 : bs.length ≤ 7) :
    ∃ u as, frame bs (beginCommand s) = .next u ∧ SentFrame bs (beginCommand s) u as ∧
      oneFrameCommand bs s = .next (respondOk u) ∧
      respondOk u = { s with
        acks := [], sent := [], bitsDone := 0, responses := s.responses ++ [⟨.ok, as⟩], diags := s.diags ++ mismatches 0 as,
        trace := s.trace ++ frameEvents (bs.zip as), shift := u.shift, bitcnt := u.bitcnt, byteidx := u.byteidx,
        ackbit := lastAck s.ackbit as, draws := u.draws, fresh := u.fresh,
        slave := slaveHearAll (frameEvents (bs.zip as)) s.slave } := by
  obtain ⟨u, as, hu, hs⟩ := frame_next bs (beginCommand s) hb h0 h7
  refine ⟨u, as, hu, hs, by simp [oneFrameCommand, hu], ?_⟩
  have hst := hs.state
  have h1 : s.drv = ⟨false, false⟩ := hb.2
  have h2 : s.fsm = .idle := hb.1
  rw [hst]
  simp [respondOk, beginCommand, h1, h2]

theorem brightnessLegal_iff (b : Int) : brightnessLegal b = true ↔ 0 ≤ b ∧ b ≤ 7 := by
  simp [brightnessLegal, Config.brightMax]

theorem positionLegal_iff (p : Int) : positionLegal p = true ↔ 0 ≤ p ∧ p ≤ 5 := by
  simp [positionLegal, Config.npos]

/-- Every way SET_SEGMENTS can end (R124, R125). -/
theorem setSegments_ends (ms : List Byte) (p : Int) (s : State) :
    (s.inited = false ∧ setSegments ms p s = .refused .notInitialized) ∨
    (s.inited = true ∧ positionLegal p = false ∧
      setSegments ms p s = .next { s with responses := s.responses ++ [⟨.rangeError, []⟩] }) ∨
    (s.inited = true ∧ positionLegal p = true ∧ 6 < ms.length ∧ setSegments ms p s = .refused .tooManyMasks) ∨
    (s.inited = true ∧ positionLegal p = true ∧ ms.length ≤ 6 ∧
      setSegments ms p s = oneFrameCommand (addressByte p :: ms) s) := by
  cases hi : s.inited
  · exact .inl ⟨rfl, by simp [setSegments, hi]⟩
  · cases hp : positionLegal p
    · exact .inr (.inl ⟨rfl, rfl, by simp [setSegments, hi, hp, raiseError]⟩)
    · by_cases hm : 6 < ms.length
      · exact .inr (.inr (.inl ⟨rfl, rfl, hm, by simp [setSegments, hi, hp, Config.maxMasks, hm]⟩))
      · exact .inr (.inr (.inr ⟨rfl, rfl, by omega, by simp [setSegments, hi, hp, Config.maxMasks, hm]⟩))

/-- INIT's set-up (R121): whatever the lines were, both are released and both pulls configured. -/
theorem initSetup_eq (s : State) :
    initSetup s = { s with
      drv := ⟨false, false⟩, pull := ⟨true, true⟩, fsm := .idle, trace := s.trace ++ setupEvents,
      slave := slaveHearAll setupEvents s.slave } := by
  simp [initSetup, waitBit_eq, release_eq, cfgPull_eq, setLineBit, highEvent, pullEvent, setupEvents]

end Sys2Proof.Machine
end

