-- ==== Sys2Proof/Laws/Memory.lean ====
section
/-! SUPPORT. The memory: read after write, and every operation keeps the canonical form. -/

namespace Sys2Proof.Machine

theorem Memory.find_insert (m : Memory) (k a : Nat) (v : Byte) :
    Memory.find (Memory.insert k v m) a = if a = k then some v else Memory.find m a := by
  induction m with
  | nil => simp [Memory.insert, Memory.find]
  | cons c m ih =>
    obtain ⟨b, w⟩ := c
    simp only [Memory.insert]
    split
    · simp [Memory.find]
    · split
      · subst_vars
        simp only [Memory.find]
        split <;> rfl
      · simp only [Memory.find, ih]
        split <;> split <;> simp_all

theorem Memory.risingFrom_mono (m : Memory) (lo hi : Nat) (h : lo ≤ hi) :
    Memory.risingFrom hi m = true → Memory.risingFrom lo m = true := by
  cases m with
  | nil => simp [Memory.risingFrom]
  | cons c m =>
    simp only [Memory.risingFrom, Bool.and_eq_true, decide_eq_true_eq]
    exact fun ⟨h1, h2⟩ => ⟨Nat.le_trans h h1, h2⟩

theorem Memory.risingFrom_insert (m : Memory) (lo k : Nat) (v : Byte) (hk : lo ≤ k)
    (h : Memory.risingFrom lo m = true) : Memory.risingFrom lo (Memory.insert k v m) = true := by
  induction m generalizing lo with
  | nil => simpa [Memory.insert, Memory.risingFrom] using hk
  | cons c m ih =>
    obtain ⟨a, w⟩ := c
    simp only [Memory.risingFrom, Bool.and_eq_true, decide_eq_true_eq] at h
    simp only [Memory.insert]
    split
    · simp only [Memory.risingFrom, Bool.and_eq_true, decide_eq_true_eq]
      exact ⟨hk, by omega, h.2⟩
    · split
      · subst_vars
        simpa [Memory.risingFrom] using h
      · simp only [Memory.risingFrom, Bool.and_eq_true, decide_eq_true_eq]
        exact ⟨h.1, ih _ (by omega) h.2⟩

theorem Memory.risingFrom_erase (m : Memory) (lo k : Nat) (h : Memory.risingFrom lo m = true) :
    Memory.risingFrom lo (Memory.erase k m) = true := by
  induction m generalizing lo with
  | nil => rfl
  | cons c m ih =>
    obtain ⟨a, w⟩ := c
    simp only [Memory.risingFrom, Bool.and_eq_true, decide_eq_true_eq] at h
    simp only [Memory.erase]
    split
    · exact Memory.risingFrom_mono m _ _ (by omega) h.2
    · simp only [Memory.risingFrom, Bool.and_eq_true, decide_eq_true_eq]
      exact ⟨h.1, ih _ h.2⟩

theorem Memory.find_below (m : Memory) (lo k : Nat) (hk : k < lo) (h : Memory.risingFrom lo m = true) :
    Memory.find m k = none := by
  induction m generalizing lo with
  | nil => rfl
  | cons c m ih =>
    obtain ⟨a, w⟩ := c
    simp only [Memory.risingFrom, Bool.and_eq_true, decide_eq_true_eq] at h
    simp only [Memory.find]
    rw [if_neg (by omega)]
    exact ih _ (by omega) h.2

theorem Memory.find_erase (m : Memory) (lo k a : Nat) (h : Memory.risingFrom lo m = true) :
    Memory.find (Memory.erase k m) a = if a = k then none else Memory.find m a := by
  induction m generalizing lo with
  | nil => simp [Memory.erase, Memory.find]
  | cons c m ih =>
    obtain ⟨b, w⟩ := c
    simp only [Memory.risingFrom, Bool.and_eq_true, decide_eq_true_eq] at h
    simp only [Memory.erase]
    split
    · subst_vars
      simp only [Memory.find]
      split
      · subst_vars; exact Memory.find_below m _ _ (by omega) h.2
      · rfl
    · simp only [Memory.find, ih _ h.2]
      split <;> split <;> simp_all

theorem Memory.all_insert (m : Memory) (k : Nat) (v : Byte) (p : Host.Cell → Bool) (hv : p (k, v) = true)
    (h : m.all p = true) : (Memory.insert k v m).all p = true := by
  induction m with
  | nil => simpa [Memory.insert] using hv
  | cons c m ih =>
    obtain ⟨a, w⟩ := c
    simp only [List.all_cons, Bool.and_eq_true] at h
    simp only [Memory.insert]
    split
    · simp only [List.all_cons, Bool.and_eq_true]; exact ⟨hv, h.1, h.2⟩
    · split
      · simp only [List.all_cons, Bool.and_eq_true]; exact ⟨hv, h.2⟩
      · simp only [List.all_cons, Bool.and_eq_true]; exact ⟨h.1, ih h.2⟩

theorem Memory.all_erase (m : Memory) (k : Nat) (p : Host.Cell → Bool) (h : m.all p = true) :
    (Memory.erase k m).all p = true := by
  induction m with
  | nil => rfl
  | cons c m ih =>
    obtain ⟨a, w⟩ := c
    simp only [List.all_cons, Bool.and_eq_true] at h
    simp only [Memory.erase]
    split
    · exact h.2
    · simp only [List.all_cons, Bool.and_eq_true]; exact ⟨h.1, ih h.2⟩

/-- A write keeps the canonical form. -/
theorem Memory.wf_write (m : Memory) (k : Nat) (v : Byte) (hk : k < Config.npos) (h : Memory.wf m = true) :
    Memory.wf (Memory.write k v m) = true := by
  simp only [Memory.wf, Memory.rising, Bool.and_eq_true] at h ⊢
  simp only [Memory.write]
  split
  · exact ⟨Memory.risingFrom_erase m 0 k h.1, Memory.all_erase m k _ h.2⟩
  · rename_i hv
    exact ⟨Memory.risingFrom_insert m 0 k v (Nat.zero_le k) h.1,
      Memory.all_insert m k v _ (by simp [hv, hk]) h.2⟩

/-- Listing a key keeps the ROM's canonical form. -/
theorem Memory.rising_insert (m : Memory) (k : Nat) (v : Byte) (h : Memory.rising m = true) :
    Memory.rising (Memory.insert k v m) = true :=
  Memory.risingFrom_insert m 0 k v (Nat.zero_le k) h

/-- Read after write, in canonical form. -/
theorem Memory.read_write (m : Memory) (k a : Nat) (v : Byte) (h : Memory.wf m = true) :
    Memory.read (Memory.write k v m) a = if a = k then v else Memory.read m a := by
  simp only [Memory.wf, Memory.rising, Bool.and_eq_true] at h
  simp only [Memory.read, Memory.write]
  split
  · rw [Memory.find_erase m 0 k a h.1]
    split <;> simp_all
  · rw [Memory.find_insert]
    split <;> simp_all

/-- Outside the six positions nothing is listed. -/
theorem Memory.read_beyond (m : Memory) (a : Nat) (h : Memory.wf m = true) (ha : Config.npos ≤ a) :
    Memory.read m a = Memory.unlisted := by
  have key : ∀ m : Memory, (m.all fun cell => cell.2 != Memory.unlisted && decide (cell.1 < Config.npos)) = true →
      Memory.find m a = none := by
    intro m
    induction m with
    | nil => exact fun _ => rfl
    | cons c m ih =>
      intro hm
      simp only [List.all_cons, Bool.and_eq_true, decide_eq_true_eq] at hm
      have hne : a ≠ c.1 := by omega
      simp only [Memory.find, hne, if_false]
      exact ih (by simpa using hm.2)
  simp only [Memory.wf, Bool.and_eq_true] at h
  simp [Memory.read, key m h.2]

end Sys2Proof.Machine
end

