-- ==== Sys2Proof/Laws/PerInstr.lean ====
section
/-! SUPPORT. One family over all instructions: the code byte the encoder gives an instruction matches its row of
spec/opcode_table.json. -/

namespace Sys2Proof.Laws

/-- The `mask` column of spec/opcode_table.json. -/
def tableMask : Instr → Byte
  | .dataCmd => 0xFF
  | .addrCmd _ => 0xF8
  | .dispCtrl _ _ => 0xF0
  | .segData _ => 0x00
  | .driveLow _ | .release _ | .sample | .wait | .cfgPull _ | .start | .writeBit _ | .ackSlot | .writeByte _ | .stop
  | .init _ _ | .setSegments _ _ | .setBrightness _ _ | .lookup _ | .print _ => 0xFF

/-- The `match` column of spec/opcode_table.json. -/
def tableMatch : Instr → Byte
  | .dataCmd => 0x40
  | .addrCmd _ => 0xC0
  | .dispCtrl _ _ => 0x80
  | .segData _ => 0x00
  | .driveLow _ => 0x00
  | .release _ => 0x01
  | .sample => 0x02
  | .wait => 0x03
  | .cfgPull _ => 0x04
  | .start => 0x10
  | .writeBit _ => 0x11
  | .ackSlot => 0x12
  | .writeByte _ => 0x13
  | .stop => 0x14
  | .init _ _ => 0x20
  | .setSegments _ _ => 0x21
  | .setBrightness _ _ => 0x22
  | .lookup _ => 0x30
  | .print _ => 0x40

/-- A well-formed instruction's code byte matches its row of the table. -/
def MatchesTable.Statement (i : Instr) : Prop := i.wf = true → (codeOf i).2 &&& tableMask i = tableMatch i

theorem MatchesTable.dataCmd : MatchesTable.Statement .dataCmd := fun _ => rfl
theorem MatchesTable.addrCmd (p : BitVec 3) : MatchesTable.Statement (.addrCmd p) := by
  revert p; unfold MatchesTable.Statement; decide
theorem MatchesTable.dispCtrl (s : Bool) (b : BitVec 3) : MatchesTable.Statement (.dispCtrl s b) := by
  revert s b; unfold MatchesTable.Statement; decide
theorem MatchesTable.segData (m : Byte) : MatchesTable.Statement (.segData m) := fun _ => BitVec.and_zero
theorem MatchesTable.driveLow (l : Line) : MatchesTable.Statement (.driveLow l) := fun _ => by
  simp [codeOf, tableMask, tableMatch]
theorem MatchesTable.release (l : Line) : MatchesTable.Statement (.release l) := fun _ => by
  simp [codeOf, tableMask, tableMatch]
theorem MatchesTable.sample : MatchesTable.Statement .sample := fun _ => rfl
theorem MatchesTable.wait : MatchesTable.Statement .wait := fun _ => rfl
theorem MatchesTable.cfgPull (l : Line) : MatchesTable.Statement (.cfgPull l) := fun _ => by
  simp [codeOf, tableMask, tableMatch]
theorem MatchesTable.start : MatchesTable.Statement .start := fun _ => rfl
theorem MatchesTable.writeBit (b : Bool) : MatchesTable.Statement (.writeBit b) := fun _ => by
  simp [codeOf, tableMask, tableMatch]
theorem MatchesTable.ackSlot : MatchesTable.Statement .ackSlot := fun _ => rfl
theorem MatchesTable.writeByte (v : Byte) : MatchesTable.Statement (.writeByte v) := fun _ => by
  simp [codeOf, tableMask, tableMatch]
theorem MatchesTable.stop : MatchesTable.Statement .stop := fun _ => rfl
theorem MatchesTable.init (b : Int) (s : Bool) : MatchesTable.Statement (.init b s) := fun _ => by
  simp [codeOf, tableMask, tableMatch]
theorem MatchesTable.setSegments (ms : List Byte) (p : Int) : MatchesTable.Statement (.setSegments ms p) := fun _ => by
  simp [codeOf, tableMask, tableMatch]
theorem MatchesTable.setBrightness (b : Int) (s : Bool) : MatchesTable.Statement (.setBrightness b s) := fun _ => by
  simp [codeOf, tableMask, tableMatch]
theorem MatchesTable.lookup (c : Char) : MatchesTable.Statement (.lookup c) := fun _ => by
  simp [codeOf, tableMask, tableMatch]
theorem MatchesTable.print (cs : List Char) : MatchesTable.Statement (.print cs) := fun _ => by
  simp [codeOf, tableMask, tableMatch]

end Sys2Proof.Laws
end

