-- ==== Sys2Proof/Laws/Step.lean ====
section
/-! SUPPORT. What an execution can do, said once: every meaning is a sequence of line primitives and of quiet register
updates. A reflexive and transitive relation that holds across each of those holds across every execution. -/

namespace Sys2Proof.Machine

/-- An update that leaves the pads, ACKBIT, the trace, the slave, `inited` and the constants as they are. -/
structure Quiet (s t : State) : Prop where
  drv : t.drv = s.drv
  pull : t.pull = s.pull
  ackbit : t.ackbit = s.ackbit
  trace : t.trace = s.trace
  slave : t.slave = s.slave
  inited : t.inited = s.inited
  rom : t.rom = s.rom
  params : t.params = s.params
  ackSource : t.ackSource = s.ackSource

/-- A relation that line primitives and quiet updates satisfy. -/
structure Across (R : State → State → Prop) : Prop where
  refl : ∀ s, R s s
  trans : ∀ {s t u}, R s t → R t u → R s u
  quiet : ∀ {s t}, Quiet s t → R s t
  driveLow : ∀ l s, R s (driveLow l s)
  release : ∀ l s, R s (release l s)
  waitBit : ∀ s, R s (waitBit s)
  cfgPull : ∀ l s, R s (cfgPull l s)
  sampleDio : ∀ s, R s (sampleDio s)

namespace Across

variable {R : State → State → Prop} (hR : Across R)
include hR

theorem setDio (b : Bool) (s : State) : R s (setDio b s) := by
  cases b
  · exact hR.driveLow .dio s
  · exact hR.release .dio s

theorem startOps (s : State) : R s (startOps s) :=
  hR.trans (hR.trans (hR.driveLow .dio s) (hR.waitBit _)) (hR.quiet ⟨rfl, rfl, rfl, rfl, rfl, rfl, rfl, rfl, rfl⟩)

theorem bitOps (b : Bool) (s : State) : R s (bitOps b s) :=
  hR.trans (hR.trans (hR.trans (hR.trans (hR.trans (hR.driveLow .clk s) (hR.waitBit _)) (hR.setDio b _)) (hR.waitBit _))
    (hR.release .clk _)) (hR.waitBit _)

theorem countBit (b : Bool) (s : State) : R s (countBit (Machine.bitOps b s)) :=
  hR.trans (hR.bitOps b s) (hR.quiet ⟨rfl, rfl, rfl, rfl, rfl, rfl, rfl, rfl, rfl⟩)

theorem ackOps (s : State) : R s (ackOps s) :=
  hR.trans (hR.trans (hR.trans (hR.trans (hR.trans (hR.trans (hR.driveLow .clk s) (hR.release .dio _)) (hR.waitBit _))
    (hR.release .clk _)) (hR.waitBit _)) (hR.sampleDio _)) (hR.driveLow .clk _)

theorem bitStep (s : State) (i : Nat) : R s (bitStep s i) :=
  hR.trans (hR.quiet (s := s) (t := { s with bitcnt := BitVec.ofNat 4 i }) ⟨rfl, rfl, rfl, rfl, rfl, rfl, rfl, rfl, rfl⟩)
    (hR.trans (hR.bitOps _ _) (hR.quiet ⟨rfl, rfl, rfl, rfl, rfl, rfl, rfl, rfl, rfl⟩))

theorem bitSteps (is : List Nat) (s : State) : R s (is.foldl Machine.bitStep s) := by
  induction is generalizing s with
  | nil => exact hR.refl s
  | cons i is ih => exact hR.trans (hR.bitStep s i) (ih _)

theorem byteDone (v : Byte) (s : State) : R s (byteDone v s) :=
  hR.quiet ⟨rfl, rfl, rfl, rfl, rfl, rfl, rfl, rfl, rfl⟩

theorem eightBits (s : State) : R s (eightBits s) := hR.bitSteps _ s

theorem byteOps (v : Byte) (s : State) : R s (byteOps v s) := by
  have h1 : R s { s with fsm := .transmittingByte, shift := v } :=
    hR.quiet ⟨rfl, rfl, rfl, rfl, rfl, rfl, rfl, rfl, rfl⟩
  have h2 := hR.eightBits { s with fsm := .transmittingByte, shift := v }
  unfold Machine.byteOps
  generalize Machine.eightBits { s with fsm := .transmittingByte, shift := v } = t at h2
  have h3 : R t { t with bitcnt := 8, bitsDone := 8 } := hR.quiet ⟨rfl, rfl, rfl, rfl, rfl, rfl, rfl, rfl, rfl⟩
  exact hR.trans h1 (hR.trans h2 (hR.trans h3 (hR.trans (hR.ackOps _) (hR.byteDone v _))))

theorem stopOps (s : State) : R s (stopOps s) :=
  hR.trans (hR.trans (hR.trans (hR.trans (hR.trans (hR.trans (hR.driveLow .dio s) (hR.waitBit _)) (hR.release .clk _))
    (hR.waitBit _)) (hR.release .dio _)) (hR.waitBit _)) (hR.quiet ⟨rfl, rfl, rfl, rfl, rfl, rfl, rfl, rfl, rfl⟩)

theorem andThen {r : Result} {f : State → Result} {s t : State} (h : andThen r f = .next t)
    (h1 : ∀ u, r = .next u → R s u) (h2 : ∀ u, f u = .next t → R u t) : R s t := by
  cases r with
  | next u => exact hR.trans (h1 u rfl) (h2 u h)
  | fault e => cases h
  | refused e => cases h

omit hR in
theorem guarded {c : Bool} {e : Fault} {s t u : State} (h : (if c then (.next u : Result) else .fault e) = .next t)
    (h1 : R s u) : R s t := by
  cases c
  · cases h
  · cases h; exact h1

theorem sendByte {v : Byte} {s t : State} (h : sendByte v s = .next t) : R s t := by
  unfold Machine.sendByte at h
  split at h
  · split at h
    · cases h; exact hR.byteOps v s
    · cases h
  · cases h

theorem sendBytes {bs : List Byte} {s t : State} (h : sendBytes bs s = .next t) : R s t := by
  induction bs generalizing s with
  | nil => cases h; exact hR.refl _
  | cons v vs ih => exact hR.andThen h (fun _ hu => hR.sendByte hu) (fun _ hu => ih hu)

theorem frame {bs : List Byte} {s t : State} (h : frame bs s = .next t) : R s t :=
  hR.andThen h (fun _ hu => guarded hu (hR.startOps s))
    (fun _ hu => hR.andThen hu (fun _ hv => hR.sendBytes hv) (fun _ hv => guarded hv (hR.stopOps _)))

theorem beginCommand (s : State) : R s (beginCommand s) := hR.quiet ⟨rfl, rfl, rfl, rfl, rfl, rfl, rfl, rfl, rfl⟩

theorem respondOk (s : State) : R s (respondOk s) := hR.quiet ⟨rfl, rfl, rfl, rfl, rfl, rfl, rfl, rfl, rfl⟩

theorem raiseError {e : Status} {s t : State} (h : raiseError e s = .next t) : R s t := by
  cases h; exact hR.quiet ⟨rfl, rfl, rfl, rfl, rfl, rfl, rfl, rfl, rfl⟩

theorem oneFrameCommand {bs : List Byte} {s t : State} (h : oneFrameCommand bs s = .next t) : R s t :=
  hR.trans (hR.beginCommand s)
    (hR.andThen h (fun _ hu => hR.frame hu) (fun u hu => by cases hu; exact hR.respondOk u))

theorem setSegments {ms : List Byte} {p : Int} {s t : State} (h : setSegments ms p s = .next t) : R s t := by
  unfold Machine.setSegments at h
  split at h
  · cases h
  · split at h
    · exact hR.raiseError h
    · split at h
      · cases h
      · exact hR.oneFrameCommand h

end Across

/-! ## PRINT, said once -/

/-- A result that is a next state satisfies `Inv`, any other satisfies `P`. -/
def Ends (Inv : State → Prop) (P : Result → Prop) : Result → Prop
  | .next t => Inv t
  | .fault e => P (.fault e)
  | .refused e => P (.refused e)

/-- The same for a part of PRINT. -/
def EndsStep (Inv : State → Prop) (P : Result → Prop) : PrintStep → Prop
  | .ok (_, t) => Inv t
  | .error r => P r ∧ ∀ t, r ≠ .next t

/-- What must hold of `Inv` and `P` for PRINT to end in them: SET_SEGMENTS does, and the adapter's own updates keep
`Inv`. -/
structure PrintSpec (Inv : State → Prop) (P : Result → Prop) : Prop where
  setSegments : ∀ ms p s, Inv s → Ends Inv P (setSegments ms p s)
  adapter : ∀ a s, Inv s → Inv { s with adapter := a }
  diag : ∀ d s, Inv s → Inv (diag d s)
  returned : ∀ v s, Inv s → Inv (printReturn v s)

namespace PrintSpec

variable {Inv : State → Prop} {P : Result → Prop} (hp : PrintSpec Inv P)
include hp

omit hp in
theorem command {r : Result} (v : PrintVars) (h : Ends Inv P r) : EndsStep Inv P (printCommand r v) := by
  cases r with
  | next t => exact h
  | fault e => exact ⟨h, by simp⟩
  | refused e => exact ⟨h, by simp⟩

theorem flush (v : PrintVars) (s : State) (h : Inv s) : EndsStep Inv P (printFlush v s) := by
  unfold printFlush
  split
  · exact h
  · exact command _ (hp.setSegments _ _ s h)

theorem clear (v : PrintVars) (s : State) (h : Inv s) : EndsStep Inv P (printClear v s) := by
  unfold printClear
  split
  · have hf := hp.flush v s h
    split
    · rename_i hr; rw [hr] at hf; exact hf
    · rename_i w t hr
      rw [hr] at hf
      have hc := command w (hp.setSegments clearMasks 0 t hf)
      split
      · rename_i hr'; rw [clearDisplay] at hr'; rw [hr'] at hc; exact hc
      · rename_i hr'; rw [clearDisplay] at hr'; rw [hr'] at hc
        exact hp.adapter _ _ (hp.adapter _ _ hc)
  · exact h

theorem place (m : Byte) (v : PrintVars) (s : State) (h : Inv s) : Inv (printPlace m v s).2 := by
  unfold printPlace
  split
  · exact h
  · exact hp.adapter _ _ h

theorem char (c : Char) (v : PrintVars) (s : State) (h : Inv s) : EndsStep Inv P (printChar c v s) := by
  unfold printChar
  split
  · exact hp.adapter _ _ h
  · split
    · have hf := hp.flush v s h
      split
      · rename_i hr; rw [hr] at hf; exact hf
      · rename_i hr; rw [hr] at hf; exact hp.adapter _ _ hf
    · split
      · exact hp.diag _ _ h
      · have hc := hp.clear v s h
        split
        · rename_i hr; rw [hr] at hc; exact hc
        · rename_i hr; rw [hr] at hc; exact hp.place _ _ _ hc

theorem chars (cs : List Char) (v : PrintVars) (s : State) (h : Inv s) : EndsStep Inv P (printChars cs v s) := by
  induction cs generalizing v s with
  | nil => exact h
  | cons c cs ih =>
    have hc := hp.char c v s h
    unfold printChars
    split
    · rename_i hr; rw [hr] at hc; exact hc
    · rename_i hr; rw [hr] at hc; exact ih _ _ hc

/-- PRINT ends in `Inv` and `P`, from every state in `Inv`. -/
theorem print (cs : List Char) (s : State) (h : Inv s) : Ends Inv P (execPrint cs s) := by
  have stop : ∀ r : Result, (P r ∧ ∀ t, r ≠ .next t) → Ends Inv P r := by
    rintro (t | e | e) ⟨h1, h2⟩
    · exact absurd rfl (h2 t)
    · exact h1
    · exact h1
  have hc := hp.chars cs ⟨0, 0, [], 0⟩ s h
  unfold execPrint
  split
  · rename_i hr; rw [hr] at hc; exact stop _ hc
  · rename_i w t hr
    rw [hr] at hc
    have hf := hp.flush w t hc
    split
    · rename_i hr'; rw [hr'] at hf; exact stop _ hf
    · rename_i hr'; rw [hr'] at hf; exact hp.returned _ _ hf

end PrintSpec

namespace Across

variable {R : State → State → Prop} (hR : Across R)
include hR

theorem print {cs : List Char} {s t : State} (h : execPrint cs s = .next t) : R s t := by
  have hp : PrintSpec (R s) (fun _ => True) :=
    { setSegments := fun ms p u hu => by
        cases he : Machine.setSegments ms p u with
        | next w => exact hR.trans hu (hR.setSegments he)
        | fault e => exact trivial
        | refused e => exact trivial
      adapter := fun a u hu => hR.trans hu (hR.quiet ⟨rfl, rfl, rfl, rfl, rfl, rfl, rfl, rfl, rfl⟩)
      diag := fun d u hu => hR.trans hu (hR.quiet ⟨rfl, rfl, rfl, rfl, rfl, rfl, rfl, rfl, rfl⟩)
      returned := fun v u hu => hR.trans hu (hR.quiet ⟨rfl, rfl, rfl, rfl, rfl, rfl, rfl, rfl, rfl⟩) }
  have := hp.print cs s (hR.refl s)
  rw [h] at this
  exact this

theorem initSetup (s : State) : R s (initSetup s) :=
  hR.trans (hR.trans (hR.trans (hR.trans (hR.trans (hR.cfgPull .clk s) (hR.cfgPull .dio _)) (hR.release .clk _))
    (hR.release .dio _)) (hR.waitBit _)) (hR.quiet ⟨rfl, rfl, rfl, rfl, rfl, rfl, rfl, rfl, rfl⟩)

theorem init (hi : ∀ s, R s (initDone s)) {b : Int} {shown : Bool} {s t : State} (h : execInit b shown s = .next t) :
    R s t := by
  unfold execInit at h
  split at h
  · exact hR.raiseError h
  · refine hR.trans (hR.trans (hR.beginCommand s) (hR.initSetup _)) (hR.andThen h (fun _ hu => hR.frame hu) ?_)
    refine fun _ hu => hR.andThen hu (fun _ hv => hR.frame hv) ?_
    refine fun _ hv => hR.andThen hv (fun _ hw => hR.frame hw) ?_
    intro w hw
    cases hw
    exact hR.trans (hi w) (hR.respondOk _)

theorem wire {c : Prop} [Decidable c] {v : Byte} {e : Fault} {s t : State}
    (h : (if c then Machine.sendByte v s else .fault e) = .next t) : R s t := by
  split at h
  · exact hR.sendByte h
  · cases h

/-- A relation across primitives and quiet updates holds across every operation but INIT. -/
theorem exec_but_init {i : Instr} {s t : State} (hi : ∀ b shown, i ≠ .init b shown) (h : exec i s = .next t) :
    R s t := by
  cases i with
  | dataCmd => exact hR.wire h
  | addrCmd p =>
    simp only [exec, execAddrCmd] at h
    split at h
    · exact hR.wire h
    · cases h
  | dispCtrl b n => exact hR.wire h
  | segData m => exact hR.wire (c := inAddressFrame s = true) h
  | driveLow l => cases h; exact hR.driveLow l s
  | release l => cases h; exact hR.release l s
  | sample => cases h; exact hR.sampleDio s
  | wait => cases h; exact hR.waitBit s
  | cfgPull l => cases h; exact hR.cfgPull l s
  | start => exact guarded h (hR.startOps s)
  | writeBit b => exact guarded h (hR.countBit b s)
  | ackSlot => exact guarded h (hR.ackOps s)
  | writeByte v => exact hR.sendByte h
  | stop => exact guarded h (hR.stopOps s)
  | init b shown => exact absurd rfl (hi b shown)
  | setSegments ms p => exact hR.setSegments h
  | setBrightness b shown =>
    simp only [exec, execSetBrightness] at h
    split at h
    · cases h
    · split at h
      · exact hR.raiseError h
      · exact hR.oneFrameCommand h
  | lookup c => cases h; exact hR.quiet ⟨rfl, rfl, rfl, rfl, rfl, rfl, rfl, rfl, rfl⟩
  | print cs => exact hR.print h

/-- The same for every operation, where the relation holds across INIT's last step too. -/
theorem exec (hi : ∀ s, R s (initDone s)) {i : Instr} {s t : State} (h : exec i s = .next t) : R s t := by
  by_cases hc : ∃ b shown, i = .init b shown
  · obtain ⟨b, shown, rfl⟩ := hc
    exact hR.init hi h
  · exact hR.exec_but_init (fun b shown he => hc ⟨b, shown, he⟩) h

/-- The same for a step. -/
theorem step (hi : ∀ s, R s (initDone s)) {s t : State} (h : step s = .next t) : R s t := by
  unfold Machine.step at h
  split at h
  · cases h; exact hR.refl s
  · rename_i rest _
    split at h
    · exact hR.trans (t := { s with port := rest }) (hR.quiet ⟨rfl, rfl, rfl, rfl, rfl, rfl, rfl, rfl, rfl⟩)
        (hR.exec hi h)
    · cases h

end Across

end Sys2Proof.Machine
end

