-- ==== Sys2Proof/Laws/Print.lean ====
section
/-! SUPPORT. PRINT, part by part: SET_SEGMENTS neither reads nor writes the adapter's state, and what the characters of one
line do to PRINT's variables. -/

namespace Sys2Proof.Machine

open Sys2Proof.Safety

/-- The state with another adapter. -/
def withAdapter (a : Adapter) (s : State) : State := { s with adapter := a }

/-- A next state changed by `f`; a stop as it is. -/
def mapNext (f : State → State) (r : Result) : Result := andThen r fun t => .next (f t)

theorem andThen_assoc (r : Result) (f g : State → Result) :
    andThen (andThen r f) g = andThen r fun s => andThen (f s) g := by cases r <;> rfl

theorem sendByte_withAdapter (a : Adapter) (v : Byte) (s : State) :
    sendByte v (withAdapter a s) = mapNext (withAdapter a) (sendByte v s) := by
  unfold sendByte
  rw [show byteOps v (withAdapter a s) = withAdapter a (byteOps v s) by rw [byteOps_eq, byteOps_eq]; rfl,
    show inFrame (withAdapter a s) = inFrame s from rfl, show (withAdapter a s).byteidx = s.byteidx from rfl]
  split
  · split <;> rfl
  · rfl

theorem sendBytes_withAdapter (a : Adapter) (vs : List Byte) (s : State) :
    sendBytes vs (withAdapter a s) = mapNext (withAdapter a) (sendBytes vs s) := by
  induction vs generalizing s with
  | nil => rfl
  | cons v vs ih =>
    simp only [sendBytes, sendByte_withAdapter, mapNext, andThen_assoc, andThen_next]
    congr 1; funext t; exact ih t

theorem frame_withAdapter (a : Adapter) (vs : List Byte) (s : State) :
    frame vs (withAdapter a s) = mapNext (withAdapter a) (frame vs s) := by
  have hstart : startFrame (withAdapter a s) = mapNext (withAdapter a) (startFrame s) := by
    unfold startFrame
    rw [show startReady (withAdapter a s) = startReady s from rfl]
    split <;> rfl
  have hstop : ∀ t, stopFrame (withAdapter a t) = mapNext (withAdapter a) (stopFrame t) := by
    intro t
    unfold stopFrame
    rw [show stopReady (withAdapter a t) = stopReady t from rfl]
    split
    · rw [stopOps_eq, stopOps_eq]; rfl
    · rfl
  simp only [frame, hstart, mapNext, andThen_assoc, andThen_next]
  congr 1; funext t
  simp only [sendBytes_withAdapter, mapNext, andThen_assoc, andThen_next]
  congr 1; funext u; exact hstop u

/-- SET_SEGMENTS neither reads nor writes the adapter's state: the adapter is outside the block (R170). -/
theorem setSegments_withAdapter (a : Adapter) (ms : List Byte) (p : Int) (s : State) :
    setSegments ms p (withAdapter a s) = mapNext (withAdapter a) (setSegments ms p s) := by
  unfold setSegments
  rw [show (withAdapter a s).inited = s.inited from rfl]
  split
  · rfl
  · split
    · rfl
    · split
      · rfl
      · unfold oneFrameCommand
        rw [show beginCommand (withAdapter a s) = withAdapter a (beginCommand s) from rfl, frame_withAdapter]
        simp only [mapNext, andThen_assoc, andThen_next]
        rfl

/-- The characters of one line, none a newline or a carriage return and no clear pending: the hits join the batch as far
as there is room, the misses are reported, and misses and drops are skipped (R174, R175, R176). -/
theorem printChars_line (cs : List Char) (v : PrintVars) (s : State) (ms : List Byte)
    (hc : ∀ c ∈ cs, counted c = true) (hp : s.adapter.clearPending = false)
    (hm : ms = (cs.filterMap (romFind s.rom)).take (6 - s.adapter.col)) :
    printChars cs v s = .ok
      (⟨v.written + ms.length, v.skipped + (cs.length - ms.length), v.batch ++ ms,
        if v.batch = [] ∧ ms ≠ [] then s.adapter.col else v.batchStart⟩,
       { s with
          adapter := ⟨s.adapter.col + ms.length, false⟩,
          diags := s.diags ++ (cs.filter fun c => (romFind s.rom c).isNone).map .lookupMiss }) := by
  induction cs generalizing v s ms with
  | nil =>
    have hs : s.adapter = ⟨s.adapter.col, false⟩ := by rw [← hp]
    simp only [List.filterMap_nil, List.take_nil] at hm
    subst hm
    simp [printChars]
    rw [← hs]
  | cons c cs ih =>
    have h1 := hc c (by simp)
    have h2 : ∀ c ∈ cs, counted c = true := fun c h => hc c (by simp [h])
    simp only [counted, Bool.and_eq_true, bne_iff_ne, ne_eq] at h1
    have hlc := List.length_filterMap_le (romFind s.rom) cs
    simp only [printChars, printChar, h1, if_false]
    cases hf : romFind s.rom c with
    | none =>
      simp only [List.filterMap_cons, hf] at hm
      simp only
      rw [ih _ (diag (.lookupMiss c) s) ms h2 hp hm]
      have : ms.length ≤ cs.length := by rw [hm, List.length_take]; omega
      simp only [diag, List.filter_cons, hf, Option.isNone_none, if_true, List.map_cons, List.append_assoc,
        List.singleton_append, List.length_cons]
      congr 3
      omega
    | some m =>
      simp only [List.filterMap_cons, hf] at hm
      simp only [printClear, hp, Bool.false_eq_true, if_false, printPlace, Config.npos]
      by_cases hcol : s.adapter.col > 6 - 1
      · have h6 : 6 - s.adapter.col = 0 := by omega
        rw [h6, List.take_zero] at hm
        subst hm
        simp only [hcol, if_true]
        rw [ih _ s [] h2 hp (by rw [h6]; rfl)]
        simp [hf]; omega
      · obtain ⟨k, hk⟩ : ∃ k, 6 - s.adapter.col = k + 1 := ⟨5 - s.adapter.col, by omega⟩
        rw [hk, List.take_succ_cons] at hm
        subst hm
        simp only [hcol, if_false]
        rw [ih _ (setCol (s.adapter.col + 1) s) _ h2 hp
          (by simp only [setCol]; rw [show 6 - (s.adapter.col + 1) = k by omega])]
        simp only [setCol, List.filter_cons, hf, Option.isNone_some, Bool.false_eq_true, if_false, List.length_cons]
        congr 3
        · omega
        · omega
        · simp
        · by_cases hb : v.batch = [] <;> simp [hb]
        · congr 1; omega

end Sys2Proof.Machine
end

