-- ==== Sys2Proof/Laws/Rom.lean ====
section
/-! SUPPORT. What one entry of BUILD does to the table: it adds its own key and changes no other (R143, R148). -/

namespace Sys2Proof.Machine

theorem romKey_inj (c d : Char) : romKey c = romKey d ↔ c = d :=
  ⟨fun h => Char.ext (UInt32.toNat_inj.1 h), fun h => by rw [h]⟩

theorem romFind_insert (rom : Memory) (k c : Char) (v : Byte) :
    romFind (Memory.insert (romKey k) v rom) c = if c = k then some v else romFind rom c := by
  simp only [romFind, Memory.find_insert, romKey_inj]

/-- An OR of entries exists exactly if each of them does. -/
theorem orRefs_isSome (rom : Memory) (cs : List Char) :
    (orRefs rom cs).isSome = cs.all fun c => (romFind rom c).isSome := by
  induction cs with
  | nil => rfl
  | cons c cs ih =>
    simp only [orRefs, List.all_cons, ← ih]
    cases romFind rom c <;> cases orRefs rom cs <;> rfl

/-- An entry that is accepted: its key is new, the entries it composes exist, and the table gains that key alone. -/
theorem buildEntry_some {sd : SegDef} {rom rom' : Memory} {d : RomDef} (h : buildEntry sd rom d = some rom') :
    romFind rom d.key = none ∧ ∃ m, orRefs rom d.refs = some m ∧
      ∀ c, romFind rom' c = if c = d.key then some (m ||| orBits sd d.bits) else romFind rom c := by
  unfold buildEntry at h
  split at h
  · rename_i m hk hm
    cases h
    exact ⟨hk, m, hm, fun c => romFind_insert rom d.key c _⟩
  · cases h

/-- A table only grows: an entry once made keeps its mask. -/
theorem buildFrom_keeps {sd : SegDef} {ds : List RomDef} {rom rom' : Memory} (h : buildFrom sd ds rom = some rom')
    {c : Char} {m : Byte} (hc : romFind rom c = some m) : romFind rom' c = some m := by
  induction ds generalizing rom with
  | nil => cases h; exact hc
  | cons d ds ih =>
    unfold buildFrom at h
    split at h
    · rename_i r hr
      obtain ⟨hk, _, _, hf⟩ := buildEntry_some hr
      refine ih h ?_
      rw [hf, if_neg, hc]
      rintro rfl
      rw [hk] at hc
      cases hc
    · cases h

end Sys2Proof.Machine
end

