-- ==== Sys2Proof/Laws/Slave.lean ====
section
/-! SUPPORT. What the slave makes of the block's event sequences: one lemma per sequence, and the canonical form of its
display memory. -/

namespace Sys2Proof.Machine

open Sys2Proof.Safety

@[simp] theorem slaveHear_w (sl : Slave) : slaveHear .w sl = sl := rfl
@[simp] theorem slaveHear_s (v : Bool) (sl : Slave) : slaveHear (.s v) sl = sl := rfl
@[simp] theorem slaveHear_pc (sl : Slave) : slaveHear .pc sl = sl := rfl
@[simp] theorem slaveHear_pd (sl : Slave) : slaveHear .pd sl = sl := rfl
theorem slaveHear_cl (sl : Slave) :
    slaveHear .cl sl = { sl with
      rx := { sl.rx with c := some true }, pulling := slavePull sl.rx sl.pulling .cl } := rfl
theorem slaveHear_ch (sl : Slave) : slaveHear .ch sl = { sl with rx := rxReleaseClk sl.rx } := rfl
theorem slaveHear_dl (sl : Slave) : slaveHear .dl sl = { sl with rx := rxDriveDio sl.rx } := rfl
theorem slaveHear_dh_low (sl : Slave) (h : sl.rx.c ≠ some false) :
    slaveHear .dh sl = { sl with rx := { sl.rx with d := some false } } := by
  simp [slaveHear, rxHear, rxReleaseDio, h, slavePull]

/-- A bit group: DIO moves while CLK is low, so there is no START and no STOP in it, and CLK rises once. -/
theorem slave_hears_bit (b : Bool) (sl : Slave) :
    slaveHearAll (bitEvents b) sl = { sl with
      rx := rxReleaseClk { sl.rx with c := some true, d := some (!b) },
      pulling := slavePull sl.rx sl.pulling .cl } := by
  cases b <;>
    simp [bitEvents, slaveHear_cl, slaveHear_ch, slaveHear_dl, slaveHear_dh_low, rxDriveDio]

theorem byteOfBits_bits (v : Byte) :
    byteOfBits [v.getLsbD 0, v.getLsbD 1, v.getLsbD 2, v.getLsbD 3, v.getLsbD 4, v.getLsbD 5, v.getLsbD 6,
      v.getLsbD 7] = v := by
  revert v; decide

/-- A bit group inside a byte that is not its last. -/
theorem slave_hears_bit_inside (b : Bool) (c d : Option Bool) (k : Nat) (cur : List Bool) (bytes : List Byte)
    (p : Bool) (disp : Memory) (ptr : BitVec 3) (au : Bool) (br : BitVec 3) (on cl : Bool) (hk : k % 9 < 7) :
    slaveHearAll (bitEvents b) ⟨⟨c, d, true, k, cur, bytes⟩, p, disp, ptr, au, br, on, cl⟩ =
      ⟨⟨some false, some (!b), true, k + 1, cur ++ [b], bytes⟩, slavePull ⟨c, d, true, k, cur, bytes⟩ p .cl, disp, ptr,
        au, br, on, cl⟩ := by
  have h7 : k % 9 ≠ 7 := by omega
  have h8 : k % 9 < 8 := by omega
  simp [slave_hears_bit, rxReleaseClk, rxRise, rxBit, h7, h8]

/-- The last bit group of a byte. -/
theorem slave_hears_bit_last (b : Bool) (c d : Option Bool) (k : Nat) (cur : List Bool) (bytes : List Byte)
    (p : Bool) (disp : Memory) (ptr : BitVec 3) (au : Bool) (br : BitVec 3) (on cl : Bool) (hk : k % 9 = 7) :
    slaveHearAll (bitEvents b) ⟨⟨c, d, true, k, cur, bytes⟩, p, disp, ptr, au, br, on, cl⟩ =
      ⟨⟨some false, some (!b), true, k + 1, [], bytes ++ [byteOfBits (cur ++ [b])]⟩,
        slavePull ⟨c, d, true, k, cur, bytes⟩ p .cl, disp, ptr, au, br, on, cl⟩ := by
  simp [slave_hears_bit, rxReleaseClk, rxRise, rxBit, hk]

/-- Between the slots of a frame the reference slave leaves its pull as it is. -/
theorem slavePull_between (r : Receiver) (p : Bool) (h8 : r.k % 9 ≠ 8) (h0 : r.k % 9 ≠ 0) :
    slavePull r p .cl = p := by
  simp [slavePull, h8, h0]

/-- The eight bit groups of a byte: the receiver has the byte. -/
theorem slave_hears_data (v : Byte) (sl : Slave) (hf : sl.rx.inframe = true) (hk : sl.rx.k % 9 = 0)
    (hc : sl.rx.cur = []) :
    slaveHearAll (dataEvents v) sl = { sl with
      rx := { c := some false, d := some (!v.getLsbD 7), inframe := true, k := sl.rx.k + 8, cur := [],
              bytes := sl.rx.bytes ++ [v] },
      pulling := slavePull sl.rx sl.pulling .cl } := by
  obtain ⟨⟨c, d, inf, k, cur, bytes⟩, p, disp, ptr, au, br, on, cl⟩ := sl
  simp only at hf hk hc
  subst hf hc
  simp (disch := omega) only [dataEvents, slaveHearAll_append, slave_hears_bit_inside, slave_hears_bit_last]
  simp (disch := simp only; omega) only [slavePull_between, List.nil_append, List.cons_append, byteOfBits_bits]

/-- The ACK slot after a byte's eight bits. -/
theorem slave_hears_slot (a : Bool) (sl : Slave) (hf : sl.rx.inframe = true) (hk : sl.rx.k % 9 = 8) :
    slaveHearAll (ackEvents a) sl = { sl with
      rx := { sl.rx with c := some true, d := some false, k := sl.rx.k + 1 }, pulling := false } := by
  have h9 : (sl.rx.k + 1) % 9 = 0 := by omega
  simp [ackEvents, slaveHear_cl, slaveHear_ch, slaveHear_dh_low, rxReleaseClk, rxRise, slavePull, hf, hk, h9]

/-- While the block samples, the reference slave pulls DIO low (R54). -/
theorem slave_pulls_in_slot (sl : Slave) (hf : sl.rx.inframe = true) (hc : sl.rx.c = some false)
    (hk : sl.rx.k % 9 = 8) : (slaveHearAll [.cl, .dh, .w, .ch, .w] sl).pulling = true := by
  simp [slaveHear_cl, slaveHear_ch, slaveHear_dh_low, slavePull, hf, hc, hk]

/-- One byte with its ACK slot. -/
theorem slave_hears_byte (v : Byte) (a : Bool) (sl : Slave) (hf : sl.rx.inframe = true) (hk : sl.rx.k % 9 = 0)
    (hc : sl.rx.cur = []) :
    slaveHearAll (byteEvents v a) sl = { sl with
      rx := { c := some true, d := some false, inframe := true, k := sl.rx.k + 9, cur := [],
              bytes := sl.rx.bytes ++ [v] },
      pulling := false } := by
  rw [byteEvents, slaveHearAll_append, slave_hears_data v sl hf hk hc, slave_hears_slot _ _ rfl (by simp; omega)]

/-- The bytes of a frame. -/
theorem slave_hears_bytes (bs : List (Byte × Bool)) (sl : Slave) (hf : sl.rx.inframe = true) (hk : sl.rx.k % 9 = 0)
    (hc : sl.rx.cur = []) (h0 : bs ≠ []) :
    slaveHearAll (bytesEvents bs) sl = { sl with
      rx := { c := some true, d := some false, inframe := true, k := sl.rx.k + 9 * bs.length, cur := [],
              bytes := sl.rx.bytes ++ bs.map Prod.fst },
      pulling := false } := by
  induction bs generalizing sl with
  | nil => exact absurd rfl h0
  | cons p ps ih =>
    obtain ⟨v, a⟩ := p
    have hb := slave_hears_byte v a sl hf hk hc
    rw [show bytesEvents ((v, a) :: ps) = byteEvents v a ++ bytesEvents ps by simp [bytesEvents], slaveHearAll_append, hb]
    cases ps with
    | nil => simp [bytesEvents]
    | cons q qs =>
      rw [ih _ rfl (by simp; omega) rfl (by simp)]
      simp only [List.length_cons, List.map_cons, List.append_assoc, List.singleton_append]
      congr 2
      omega

/-- A whole frame, heard with both lines released: the slave takes the frame R53 describes, and is between frames. -/
theorem slave_hears_frame (bs : List (Byte × Bool)) (sl : Slave) (hc : sl.rx.c = some false)
    (hd : sl.rx.d = some false) (h0 : bs ≠ []) :
    slaveHearAll (frameEvents bs) sl = slaveFrame { sl with
      rx := { c := some false, d := some false, inframe := false, k := 9 * bs.length + 1, cur := [false],
              bytes := bs.map Prod.fst },
      pulling := false } (bs.map Prod.fst) := by
  rw [frameEvents, slaveHearAll_append, slaveHearAll_append]
  have hs : slaveHearAll startEvents sl = { sl with
      rx := { c := some false, d := some true, inframe := true, k := 0, cur := [], bytes := [] } } := by
    simp [startEvents, slaveHear_dl, rxDriveDio, hc, hd]
  rw [hs, slave_hears_bytes bs _ rfl rfl rfl h0]
  have hk : 9 * bs.length % 9 = 0 := by omega
  simp [stopEvents, slaveHear, rxHear, rxDriveDio, rxReleaseClk, rxRise, rxBit, rxReleaseDio,
    slavePull, hk]

/-- Taking a frame leaves the decoder alone. -/
theorem slaveFrame_rx (sl : Slave) (f : List Byte) : (slaveFrame sl f).rx = sl.rx := by
  have hd : ∀ (ms : List Byte) (sl : Slave), (ms.foldl slaveData sl).rx = sl.rx := by
    intro ms
    induction ms with
    | nil => exact fun _ => rfl
    | cons m ms ih => intro sl; rw [List.foldl_cons, ih]; unfold slaveData; split <;> rfl
  cases f with
  | nil => rfl
  | cons c ms =>
    simp only [slaveFrame]
    split
    · rfl
    · split
      · rw [hd]
      · split <;> rfl

/-- The slave's decoder is the reference decoder. -/
theorem slaveHear_rx (e : Event) (sl : Slave) : (slaveHear e sl).rx = (rxHear e sl.rx).1 := by
  unfold slaveHear
  split
  · rw [slaveFrame_rx]
  · rfl

/-- After a frame the slave listens again. -/
theorem listening_after_frame (bs : List (Byte × Bool)) (sl : Slave) (hc : sl.rx.c = some false)
    (hd : sl.rx.d = some false) (h0 : bs ≠ []) : Listening (slaveHearAll (frameEvents bs) sl) := by
  rw [slave_hears_frame bs sl hc hd h0]
  unfold Listening
  rw [slaveFrame_rx]
  exact ⟨rfl, rfl, rfl⟩

/-- After INIT's set-up the decoder knows both lines to be released, whatever it knew before. -/
theorem setup_released (sl : Slave) :
    (slaveHearAll setupEvents sl).rx.c = some false ∧ (slaveHearAll setupEvents sl).rx.d = some false := by
  simp only [setupEvents, slaveHearAll_cons, slaveHearAll_nil, slaveHear_rx, rxHear, rxReleaseDio]
  have h : ∀ r : Receiver, (rxReleaseClk r).c = some false := by intro r; unfold rxReleaseClk; split <;> rfl
  split <;> simp [h]

/-! ## Data bytes -/

/-- A data byte within the six positions. -/
theorem slaveData_within (sl : Slave) (m : Byte) (h : sl.ptr.toNat ≤ 5) :
    slaveData sl m = { sl with disp := Memory.write sl.ptr.toNat m sl.disp, ptr := sl.ptr + 1 } ∧
      (sl.ptr + 1).toNat = sl.ptr.toNat + 1 := by
  have hp : sl.ptr.toNat < Config.npos := by simp only [Config.npos]; omega
  exact ⟨by simp [slaveData, hp], byteidx_succ _ (by omega)⟩

/-- A data byte past position 5. -/
theorem slaveData_beyond (sl : Slave) (m : Byte) (h : 5 < sl.ptr.toNat) : (slaveData sl m).clobbered = true := by
  have hp : ¬ sl.ptr.toNat < Config.npos := by simp only [Config.npos]; omega
  simp [slaveData, hp]

/-- A clobbered slave stays clobbered. -/
theorem slaveData_clobbered (ms : List Byte) (sl : Slave) (h : sl.clobbered = true) :
    (ms.foldl slaveData sl).clobbered = true := by
  induction ms generalizing sl with
  | nil => exact h
  | cons m ms ih => exact ih _ (by unfold slaveData; split <;> simp [h])

/-! ## The canonical form of the display memory -/

theorem slaveData_wf (sl : Slave) (m : Byte) (h : Memory.wf sl.disp = true) :
    Memory.wf (slaveData sl m).disp = true := by
  unfold slaveData
  split
  · rename_i hp
    exact Memory.wf_write _ _ _ hp h
  · exact h

theorem slaveFrame_wf (sl : Slave) (f : List Byte) (h : Memory.wf sl.disp = true) :
    Memory.wf (slaveFrame sl f).disp = true := by
  have hfold : ∀ (ms : List Byte) (sl : Slave), Memory.wf sl.disp = true →
      Memory.wf (ms.foldl slaveData sl).disp = true := by
    intro ms
    induction ms with
    | nil => exact fun _ h => h
    | cons m ms ih => exact fun sl h => ih _ (slaveData_wf sl m h)
  cases f with
  | nil => exact h
  | cons c ms =>
    simp only [slaveFrame]
    split
    · exact h
    · split
      · exact hfold ms _ h
      · split <;> exact h

/-- Hearing events keeps the display memory canonical. -/
theorem slaveHear_wf (e : Event) (sl : Slave) (h : Memory.wf sl.disp = true) :
    Memory.wf (slaveHear e sl).disp = true := by
  unfold slaveHear
  split
  · exact slaveFrame_wf _ _ h
  · exact h

theorem slaveHearAll_wf (es : List Event) (sl : Slave) (h : Memory.wf sl.disp = true) :
    Memory.wf (slaveHearAll es sl).disp = true := by
  induction es generalizing sl with
  | nil => exact h
  | cons e es ih => exact ih _ (slaveHear_wf e sl h)

end Sys2Proof.Machine
end

