-- ==== Sys2Proof/Tests/Slice0.lean ====
section
/-! SUPPORT. Tests: expected values are taken from spec/95_test_vectors.md (V…, P…, S…), from the encodings of
spec/30_encoding.md and from the table of R152, each named in its docstring; and, for every statement with hypotheses, a
witness that meets them all. -/

namespace Sys2Proof.Tests

open Sys2Proof.Machine Sys2Proof.Safety

/-! ## Helpers -/

/-- The state after a next answer, or none. -/
def after (r : Result) : Option State :=
  match r with
  | .next t => some t
  | .fault _ => none
  | .refused _ => none

/-- An operation answers a next state. -/
def answersNext (r : Result) : Bool := (after r).isSome

/-- An initialised command boundary: both lines released, the reference decoder between frames, six ACKs drawn 0. -/
def boundary : State :=
  { State.reset with
    inited := true, pull := ⟨true, true⟩, slave := { Slave.reset with rx := Receiver.idle },
    draws := [false, false, false, false, false, false, false] }

/-- Right after START. -/
def started : State :=
  { boundary with fsm := .started, drv := ⟨false, true⟩ }

/-- After the address byte 0xC0 of a frame. -/
def inAddress : State :=
  { boundary with
    fsm := .transmittingByte, drv := ⟨true, false⟩, bitcnt := 8, bitsDone := 8, byteidx := 1, sent := [0xC0] }

/-- After the eight bits of a byte. -/
def beforeSlot : State := { inAddress with drv := ⟨false, true⟩ }

/-- A slave in the middle of an address frame with both lines low. -/
def slaveInFrame : Slave :=
  { Slave.reset with
    rx := { c := some true, d := some true, inframe := true, k := 12, cur := [true, false, true], bytes := [0xC0] } }

/-! ## WellFormed: each check refuses an ill-formed term -/

/-- R62: no position 6. -/
theorem test_wf_addr_cmd_refuses_position_six : (Instr.addrCmd 6).wf = false := by decide
theorem test_wf_addr_cmd_refuses_position_seven : (Instr.addrCmd 7).wf = false := by decide
theorem test_wf_addr_cmd_accepts_position_five : (Instr.addrCmd 5).wf = true := by decide
/-- R141: each value has one bit. -/
theorem test_wf_one_hot_refuses_two_bits : oneHot 0x03 = false ∧ oneHot 0x00 = false ∧ oneHot 0x80 = true := by decide
theorem test_wf_segdef_refuses_two_bits : SegDef.wf { Config.defaultSegDef with a := 0x03 } = false := by decide
/-- R141: the eight values are distinct. -/
theorem test_wf_segdef_refuses_a_repeat : SegDef.wf { Config.defaultSegDef with h := 0x40 } = false := by decide
theorem test_wf_segdef_accepts_the_default : SegDef.wf Config.defaultSegDef = true := by decide
/-- R143, V53: an entry that refers to itself, to a later entry or to an undefined name; R148: a key twice. -/
theorem test_wf_defs_refuse_a_self_reference : defsOrdered [] [⟨'7', ['7'], []⟩] = false := by decide
theorem test_wf_defs_refuse_a_forward_reference :
    defsOrdered [] [⟨'7', ['1'], [.a]⟩, ⟨'1', [], [.b, .c]⟩] = false := by decide
theorem test_wf_defs_refuse_a_second_key : defsOrdered [] [⟨'1', [], [.b]⟩, ⟨'1', [], [.c]⟩] = false := by decide
theorem test_wf_defs_accept_the_default : defsOrdered [] Config.defaultDefs = true := by decide
/-- R5: at 8 MHz one microsecond is 8 cycles. -/
theorem test_wf_params_refuse_too_few_wait_cycles :
    Params.wf { Config.defaultParams with fClk := 8000000, waitCycles := 7 } = false := by decide
theorem test_wf_params_accept_enough_wait_cycles :
    Params.wf { Config.defaultParams with fClk := 8000000, waitCycles := 8 } = true := by decide
/-- R144 to R149: bit H set, space not blank, a lower-case key, a required key missing. -/
theorem test_rom_constraints_refuse :
    let rom := State.reset.rom
    romAdmissible Config.defaultSegDef rom = true ∧
    romAdmissible Config.defaultSegDef (Memory.insert 0x4B 0x80 rom) = false ∧
    romAdmissible Config.defaultSegDef (Memory.insert 0x20 0x01 rom) = false ∧
    romAdmissible Config.defaultSegDef (Memory.insert 0x61 0x77 rom) = false ∧
    romAdmissible Config.defaultSegDef (Memory.erase 0x49 rom) = false := by decide
/-- R5: a definition list that BUILD rejects is no admissible parameter. -/
theorem test_params_refuse_a_bad_definition_list :
    paramsAdmissible { Config.defaultParams with romDefs := [⟨'7', ['7'], []⟩] } = false ∧
    paramsAdmissible Config.defaultParams = true := by decide

/-! ## Decoding: words written out from R61 to R64 and the tag table of R66 -/

theorem test_decode_data_cmd : decode ⟨.sequencer, .wireFirst, 0b01000000, {}⟩ = .ok .dataCmd := rfl
theorem test_decode_addr_cmd : decode ⟨.sequencer, .wireFirst, 0b11000101, {}⟩ = .ok (.addrCmd 5) := rfl
theorem test_decode_addr_cmd_low : decode ⟨.sequencer, .wireFirst, 0b11000010, {}⟩ = .ok (.addrCmd 2) := rfl
theorem test_decode_disp_ctrl : decode ⟨.sequencer, .wireFirst, 0b10001011, {}⟩ = .ok (.dispCtrl true 3) := rfl
theorem test_decode_disp_ctrl_hidden :
    decode ⟨.sequencer, .wireFirst, 0b10000110, {}⟩ = .ok (.dispCtrl false 6) := rfl
theorem test_decode_seg_data : decode ⟨.sequencer, .wireData, 0b10001000, {}⟩ = .ok (.segData 0x88) := rfl
theorem test_decode_drive_low :
    decode ⟨.sequencer, .tag, 0b00000000, { line := .dio }⟩ = .ok (.driveLow .dio) := rfl
theorem test_decode_release : decode ⟨.sequencer, .tag, 0b00000001, { line := .clk }⟩ = .ok (.release .clk) := rfl
theorem test_decode_sample : decode ⟨.sequencer, .tag, 0b00000010, {}⟩ = .ok .sample := rfl
theorem test_decode_wait : decode ⟨.sequencer, .tag, 0b00000011, {}⟩ = .ok .wait := rfl
theorem test_decode_cfg_pull : decode ⟨.sequencer, .tag, 0b00000100, { line := .dio }⟩ = .ok (.cfgPull .dio) := rfl
theorem test_decode_start : decode ⟨.sequencer, .tag, 0b00010000, {}⟩ = .ok .start := rfl
theorem test_decode_write_bit : decode ⟨.sequencer, .tag, 0b00010001, { bit := true }⟩ = .ok (.writeBit true) := rfl
theorem test_decode_ack_slot : decode ⟨.sequencer, .tag, 0b00010010, {}⟩ = .ok .ackSlot := rfl
theorem test_decode_write_byte :
    decode ⟨.sequencer, .tag, 0b00010011, { byte := 0xA5 }⟩ = .ok (.writeByte 0xA5) := rfl
theorem test_decode_stop : decode ⟨.sequencer, .tag, 0b00010100, {}⟩ = .ok .stop := rfl
theorem test_decode_init :
    decode ⟨.host, .tag, 0b00100000, { brightness := 8, shown := true }⟩ = .ok (.init 8 true) := rfl
theorem test_decode_set_segments :
    decode ⟨.host, .tag, 0b00100001, { masks := [0x76, 0x06], startPosition := -1 }⟩ =
      .ok (.setSegments [0x76, 0x06] (-1)) := rfl
theorem test_decode_set_brightness :
    decode ⟨.host, .tag, 0b00100010, { brightness := 3, shown := false }⟩ = .ok (.setBrightness 3 false) := rfl
theorem test_decode_lookup : decode ⟨.host, .tag, 0b00110000, { key := '8' }⟩ = .ok (.lookup '8') := rfl
theorem test_decode_print : decode ⟨.host, .tag, 0b01000000, { chars := ['H'] }⟩ = .ok (.print ['H']) := rfl
/-- R68: first bytes that name no command. -/
theorem test_decode_refuses_reserved_first_bytes :
    decodeFirstByte 0xC6 = .error .noSuchPosition ∧ decodeFirstByte 0xC7 = .error .noSuchPosition ∧
    decodeFirstByte 0xC8 = .error .reservedFirstByte ∧ decodeFirstByte 0x41 = .error .reservedFirstByte ∧
    decodeFirstByte 0x90 = .error .reservedFirstByte ∧ decodeFirstByte 0x3F = .error .reservedFirstByte :=
  ⟨rfl, rfl, rfl, rfl, rfl, rfl⟩
/-- R66: a tag outside the table. -/
theorem test_decode_refuses_unknown_tags :
    decode ⟨.host, .tag, 0x05, {}⟩ = .error .unknownTag ∧ decode ⟨.host, .tag, 0x23, {}⟩ = .error .unknownTag :=
  ⟨rfl, rfl⟩

/-! ## The ROM -/

/-- R152: the 36 rows of the default table. -/
theorem test_build_gives_the_default_table :
    build Config.defaultSegDef Config.defaultDefs = some (
      [(0x20, 0x00), (0x2D, 0x40), (0x30, 0x3F), (0x31, 0x06), (0x32, 0x5B), (0x33, 0x4F), (0x34, 0x66), (0x35, 0x6D),
       (0x36, 0x7D), (0x37, 0x07), (0x38, 0x7F), (0x39, 0x6F), (0x3F, 0x53), (0x40, 0x5F), (0x41, 0x77), (0x42, 0x7C),
       (0x43, 0x39), (0x44, 0x5E)] ++
      [(0x45, 0x79), (0x46, 0x71), (0x47, 0x3D), (0x48, 0x76), (0x49, 0x06), (0x4A, 0x1E), (0x4C, 0x38), (0x4E, 0x54),
       (0x4F, 0x3F), (0x50, 0x73), (0x51, 0x67), (0x52, 0x50), (0x53, 0x6D), (0x54, 0x78), (0x55, 0x3E), (0x59, 0x6E),
       (0x5F, 0x08), (0xB0, 0x63)]) := by decide

/-- 95_test_vectors.md section 2.4: with A and G swapped. -/
theorem test_build_with_a_and_g_swapped :
    (build { Config.defaultSegDef with a := 0x40, g := 0x01 } Config.defaultDefs).map
      (fun rom => (romFind rom '-', romFind rom '7', romFind rom '8')) = some (some 0x01, some 0x46, some 0x7F) := by
  decide

/-- V53: rejected, not repaired. -/
theorem test_build_rejects_a_forward_reference :
    build Config.defaultSegDef [⟨'7', ['1'], [.a]⟩, ⟨'1', [], [.b, .c]⟩] = none := by decide

/-! ## One step each, on small states -/

/-- V1, V2. -/
theorem test_drive_low_traces_even_without_a_change :
    (after (exec (.driveLow .dio) { boundary with drv := ⟨false, true⟩ })).map (fun t => (t.drv, t.trace)) =
      some (⟨false, true⟩, [.dl]) := by decide
/-- V3. -/
theorem test_release_clk : (after (exec (.release .clk) { boundary with drv := ⟨true, true⟩ })).map
    (fun t => (t.drv, t.trace)) = some (⟨false, true⟩, [.ch]) := by decide
/-- V7. -/
theorem test_sample_reads_the_draw : (after (exec .sample { boundary with draws := [true, false] })).map
    (fun t => (t.ackbit, t.trace, t.draws)) = some (true, [.s true], [false]) := by decide
/-- V8, D34. -/
theorem test_sample_of_a_driven_line_draws_nothing :
    (after (exec .sample { boundary with drv := ⟨false, true⟩, draws := [true], ackbit := true })).map
      (fun t => (t.ackbit, t.trace, t.draws)) = some (false, [.s false], [true]) := by decide
/-- V9. -/
theorem test_wait_is_a_marker : (after (exec .wait boundary)).map (fun t => (t.trace, t.drv)) =
    some ([.w], ⟨false, false⟩) := by decide
/-- V10. -/
theorem test_cfg_pull : (after (exec (.cfgPull .clk) { boundary with drv := ⟨true, false⟩, pull := ⟨false, false⟩ })).map
    (fun t => (t.pull, t.drv, t.trace)) = some (⟨true, false⟩, ⟨true, false⟩, [.pc]) := by decide
/-- V12. -/
theorem test_start : (after (exec .start boundary)).map (fun t => (t.drv, t.fsm, t.trace)) =
    some (⟨false, true⟩, .started, [.dl, .w]) := by decide
/-- R101. -/
theorem test_start_with_clk_low_faults :
    exec .start { boundary with drv := ⟨true, false⟩ } = .fault .startPrecondition := rfl
/-- V13. -/
theorem test_write_bit_zero : (after (exec (.writeBit false) started)).map (fun t => (t.drv, t.trace)) =
    some (⟨false, true⟩, [.cl, .w, .dl, .w, .ch, .w]) := by decide
/-- V14. -/
theorem test_write_bit_one : (after (exec (.writeBit true) started)).map (fun t => (t.drv, t.trace)) =
    some (⟨false, false⟩, [.cl, .w, .dh, .w, .ch, .w]) := by decide
/-- V16: ACK_SLOT itself reports nothing. -/
theorem test_ack_slot_with_draw_one : (after (exec .ackSlot { beforeSlot with draws := [true] })).map
    (fun t => (t.drv, t.ackbit, t.trace, t.diags)) =
      some (⟨true, false⟩, true, [.cl, .dh, .w, .ch, .w, .s true, .cl], []) := by decide
/-- R104: after eight bits performed one by one, and not after seven. -/
theorem test_ack_slot_counts_bare_bits :
    answersNext (exec .ackSlot { started with bitsDone := 8 }) = true ∧
    exec .ackSlot { started with bitsDone := 7 } = .fault .ackPrecondition ∧
    (after (exec (.writeBit true) { started with bitsDone := 7 })).map State.bitsDone = some 8 :=
  ⟨by decide, rfl, by decide⟩
/-- The model's choice (log 25): a BITCNT of 8 that WRITE_BYTE left is enough in TransmittingByte, and not in Started. -/
theorem test_ack_slot_follows_bitcnt :
    answersNext (exec .ackSlot { beforeSlot with bitsDone := 1 }) = true ∧
    exec .ackSlot { beforeSlot with fsm := .started, bitsDone := 1 } = .fault .ackPrecondition := ⟨by decide, rfl⟩
/-- V18. -/
theorem test_write_byte_0x40 : (after (exec (.writeByte 0x40) started)).map State.trace = some (List.flatten (α := Event)
    [[.cl, .w, .dl, .w, .ch, .w], [.cl, .w, .dl, .w, .ch, .w], [.cl, .w, .dl, .w, .ch, .w], [.cl, .w, .dl, .w, .ch, .w],
     [.cl, .w, .dl, .w, .ch, .w], [.cl, .w, .dl, .w, .ch, .w], [.cl, .w, .dh, .w, .ch, .w], [.cl, .w, .dl, .w, .ch, .w],
     [.cl, .dh, .w, .ch, .w, .s false, .cl]]) := by decide +kernel
/-- R194: the report carries the byte's index in its frame. -/
theorem test_write_byte_reports_a_missed_ack : (after (exec (.writeByte 0x06) { inAddress with draws := [true] })).map
    (fun t => (t.acks, t.diags, t.byteidx)) = some ([true], [.ackMismatch 1], 2) := by decide
/-- V17. -/
theorem test_stop : (after (exec .stop inAddress)).map (fun t => (t.drv, t.fsm, t.trace)) =
    some (⟨false, false⟩, .idle, [.dl, .w, .ch, .w, .dh, .w]) := by decide
/-- R106: never directly after START. -/
theorem test_stop_after_start_faults : exec .stop started = .fault .stopPrecondition := rfl
/-- R61, R62, R63: the byte each wire command sends. -/
theorem test_wire_commands_send_their_bytes :
    [Instr.dataCmd, .addrCmd 5, .dispCtrl true 3].map (fun i => (after (exec i started)).map State.sent) =
      [some [0x40], some [0xC5], some [0x8B]] := by decide
/-- V45: a data byte may equal a command byte. -/
theorem test_seg_data_equal_to_a_command : (after (exec (.segData 0x88) inAddress)).map State.sent =
    some [0xC0, 0x88] := by decide
/-- R65. -/
theorem test_seg_data_as_first_byte_faults : exec (.segData 0x88) started = .fault .wirePosition := rfl

/-- V24: what INIT(7, true) sends from reset; the first five events; the response. -/
theorem test_init_from_reset :
    (after (exec (.init 7 true) { State.reset with draws := List.replicate 9 false })).map
      (fun t => (t.trace.take 5, decodeFrames Receiver.idle t.trace, t.responses, t.inited)) =
      some ([.pc, .pd, .ch, .dh, .w], [[0x40], [0xC0, 0, 0, 0, 0, 0, 0], [0x8F]],
        [⟨.ok, List.replicate 9 false⟩], true) := by decide +kernel
/-- V25: no event, not even `PC`. -/
theorem test_init_rejects_eight :
    exec (.init 8 true) State.reset = .next { State.reset with responses := [⟨.configurationError, []⟩] } := rfl
/-- V46: missed ACKs are reported and stop nothing. -/
theorem test_set_segments_with_missed_acks :
    (after (exec (.setSegments [0x3F, 0x06] 0) { boundary with draws := [false, true, true] })).map
      (fun t => (decodeFrames Receiver.idle t.trace, t.trace.length, t.responses, t.diags)) =
      some ([[0xC0, 0x3F, 0x06]], 173, [⟨.ok, [false, true, true]⟩], [.ackMismatch 1, .ackMismatch 2]) := by decide +kernel
/-- V38: seven masks at position 9 are a RangeError. -/
theorem test_set_segments_checks_the_position_first :
    exec (.setSegments (List.replicate 7 0) 9) boundary =
      .next { boundary with responses := [⟨.rangeError, []⟩] } := rfl
/-- V42. -/
theorem test_set_brightness_hidden : (after (exec (.setBrightness 3 false) boundary)).map
    (fun t => (decodeFrames Receiver.idle t.trace, t.slave.bright, t.slave.on)) =
      some ([[0x83]], 3, false) := by decide +kernel
/-- V40. -/
theorem test_set_brightness_before_init_is_refused :
    exec (.setBrightness 3 true) State.reset = .refused .notInitialized := rfl
/-- R150: LOOKUP('8') and the degree sign, before INIT. -/
theorem test_lookup_hits : (after (exec (.lookup '8') State.reset)).map State.romAnswers = some [⟨true, 0x7F⟩] ∧
    (after (exec (.lookup '°') State.reset)).map State.romAnswers = some [⟨true, 0x63⟩] := by decide
/-- V50. -/
theorem test_lookup_of_newline_misses :
    (after (exec (.lookup '\n') State.reset)).map (fun t => t.romAnswers.map RomAnswer.hit) = some [false] := by decide
/-- V55. -/
theorem test_print_with_a_miss : (after (exec (.print ['1', '2', ':', '3', '0']) boundary)).map
    (fun t => (decodeFrames Receiver.idle t.trace, t.printResults, t.diags, t.adapter)) =
      some ([[0xC0, 0x06, 0x5B, 0x4F, 0x3F]], [⟨4, 1⟩], [.lookupMiss ':'], ⟨4, false⟩) := by decide +kernel
/-- V61: one clear for two newlines, before the next character. -/
theorem test_print_clears_before_the_next_character :
    (after (exec (.print ['\n', '\n', '8']) { boundary with draws := List.replicate 9 false })).map
      (fun t => (decodeFrames Receiver.idle t.trace, t.printResults, t.adapter)) =
      some ([[0xC0, 0, 0, 0, 0, 0, 0], [0xC0, 0x7F]], [⟨1, 0⟩], ⟨1, false⟩) := by decide +kernel

/-! ## Witnesses: for each statement with hypotheses, a concrete state and operands that meet them all. Where a
hypothesis is that an operation answers a next state, `answersNext` says that there is one. -/

/-- A machine that meets the host's invariant, with one host record at its port. -/
def hostReady : State := { boundary with port := [encode (.setBrightness 3 true)] }

theorem test_witness_StepRunsDecodedRecord :
    hostReady.port = [encode (.setBrightness 3 true)] ∧ decode (encode (.setBrightness 3 true)) = .ok (.setBrightness 3 true) ∧
    ((encode (.setBrightness 3 true)).issuer = .host → hostMayIssue (.setBrightness 3 true) = true) :=
  ⟨rfl, rfl, fun _ => rfl⟩

/-- A host record of START, which only the block performs. -/
def hostStart : Record := { encode .start with issuer := .host }

theorem test_witness_StepWaitsOrRejectsByName :
    boundary.port = [] ∧
    (({ boundary with port := [unreadRecord] } : State).port = [unreadRecord] ∧
      decode unreadRecord = .error .unknownTag) ∧
    (({ boundary with port := [hostStart] } : State).port = [hostStart] ∧ decode hostStart = .ok .start ∧
      hostStart.issuer = .host ∧ hostMayIssue .start = false) :=
  ⟨rfl, ⟨rfl, rfl⟩, ⟨rfl, rfl, rfl, rfl⟩⟩

theorem test_witness_FetchWordRunsTableInstruction :
    decodeTableWord 8 0b10001111 = some (.dispCtrl true 7) ∧ decodeTableWord 8 0x20 = some (.init 0 false) ∧
    decodeTableWord 8 0xFF = some (.segData 0xFF) := by decide

theorem test_witness_DecodeOfEncodeIsIdentity :
    (Instr.addrCmd 0).wf = true ∧ (Instr.addrCmd 5).wf = true ∧ (Instr.setSegments [0xFF] (-1)).wf = true := by decide

theorem test_witness_FirstBytePatternsAreExact :
    decodeFirstByte 0xC5 = .ok (.addrCmd 5) ∧ decodeFirstByte 0x8F = .ok (.dispCtrl true 7) ∧
    decodeFirstByte 0x40 = .ok .dataCmd := ⟨rfl, rfl, rfl⟩

theorem test_witness_DriveLowSinksItsLine : Line.dio ≠ Line.clk := by decide

theorem test_witness_ReleaseFreesItsLine :
    Line.dio ≠ Line.clk ∧ ({ boundary with ackSource := .noSlave } : State).ackSource = .noSlave ∧
    ¬(Line.clk = Line.dio ∧ boundary.slave.rx.c = some false ∧ boundary.slave.rx.d = some true ∧
      boundary.slave.rx.inframe = true) := by decide

theorem test_witness_SampleReadsDio :
    started.drv.dio = true ∧
    (boundary.drv.dio = false ∧ boundary.ackSource = .drawn ∧ boundary.draws = false :: List.replicate 6 false) ∧
    (({ boundary with ackSource := .noSlave } : State).drv.dio = false ∧
      ({ boundary with ackSource := .noSlave } : State).ackSource = .noSlave) := by decide

theorem test_witness_StartOpensAFrame :
    (boundary.fsm = .idle ∧ boundary.drv = ⟨false, false⟩) ∧ started.fsm ≠ .idle ∧ inAddress.drv.clk = true ∧
    started.drv.dio = true := by decide

theorem test_witness_WriteBitClocksOneBit :
    started.fsm = .started ∧ inAddress.fsm = .transmittingByte ∧ boundary.fsm = .idle := by decide

theorem test_witness_AckSlotSamplesOnce :
    (beforeSlot.fsm = .transmittingByte ∧ beforeSlot.bitcnt = 8 ∧ beforeSlot.drv.clk = false ∧
      beforeSlot.ackSource = .drawn ∧ beforeSlot.draws = false :: List.replicate 6 false) ∧
    (({ started with bitsDone := 8, drv := ⟨false, true⟩ } : State).fsm = .started ∧
      ({ started with bitsDone := 8, drv := ⟨false, true⟩ } : State).bitsDone = 8 ∧
      ({ started with bitsDone := 8, drv := ⟨false, true⟩ } : State).drv.clk = false) ∧
    boundary.fsm = .idle ∧ inAddress.drv.clk = true ∧ (started.bitsDone ≠ 8 ∧ started.fsm = .started) ∧
    (({ beforeSlot with bitcnt := 7, bitsDone := 7 } : State).bitsDone ≠ 8 ∧
      ({ beforeSlot with bitcnt := 7, bitsDone := 7 } : State).bitcnt ≠ 8) ∧
    (started.fsm = .started ∧ started.bitsDone = 0) ∧
    (beforeSlot.fsm = .transmittingByte ∧ beforeSlot.bitsDone = 8) := by decide

theorem test_witness_WriteByteSendsEightBitsAndSlot :
    (started.fsm = .started ∧ started.byteidx.toNat ≤ 6) ∧
    (({ inAddress with byteidx := 6 } : State).fsm = .transmittingByte ∧
      ({ inAddress with byteidx := 6 } : State).byteidx.toNat ≤ 6) ∧
    boundary.fsm = .idle ∧
    (({ inAddress with byteidx := 7 } : State).fsm = .transmittingByte ∧
      ({ inAddress with byteidx := 7 } : State).byteidx.toNat = 7) := by decide

theorem test_witness_BitsAreSentLeastSignificantFirst :
    answersNext (exec (.writeByte 0xA5) started) = true ∧ 0 < 8 ∧ 7 < 8 := by decide

theorem test_witness_StopClosesTheFrame :
    (inAddress.fsm = .transmittingByte ∧ inAddress.drv.clk = true) ∧ started.fsm ≠ .transmittingByte ∧
    beforeSlot.drv.clk = false := by decide

theorem test_witness_WireCommandsOpenTheirFrame :
    (started.fsm = .started ∧ started.byteidx.toNat ≤ 6 ∧ (0 : BitVec 3).toNat ≤ 5 ∧ (5 : BitVec 3).toNat ≤ 5) ∧
    inAddress.fsm ≠ .started ∧ 5 < (6 : BitVec 3).toNat ∧ 5 < (7 : BitVec 3).toNat := by decide

theorem test_witness_SegDataFollowsAnAddress :
    (inAddress.fsm = .transmittingByte ∧ inAddress.sent = [0xC0] ∧ 0xC0 ≤ (0xC0 : Byte).toNat ∧
      (0xC0 : Byte).toNat ≤ 0xC7 ∧ inAddress.byteidx.toNat ≤ 6) ∧
    (({ inAddress with sent := [0xC8] } : State).sent = [0xC8] ∧ 0xC7 < (0xC8 : Byte).toNat) ∧
    (({ inAddress with sent := [0xBF] } : State).sent = [0xBF] ∧ (0xBF : Byte).toNat < 0xC0) ∧
    started.fsm ≠ .transmittingByte := by decide

theorem test_witness_FrameStateTransitionsAreClosed :
    hostMayIssue .start = false ∧ answersNext (exec .start boundary) = true ∧ hostMayIssue .stop = false ∧
    answersNext (exec .stop inAddress) = true ∧ hostMayIssue (.writeByte 0) = false ∧
    answersNext (exec (.writeByte 0) started) = true := by decide

/-- The boundary states of this file. -/
theorem boundary_atBoundary : AtBoundary boundary := ⟨rfl, rfl⟩

theorem boundary_listening : Listening boundary.slave := ⟨rfl, rfl, rfl⟩

theorem test_witness_AddressFrameIsItsWireForms :
    AtBoundary boundary ∧ (5 : BitVec 3).toNat ≤ 5 ∧ ([1, 2, 3, 4, 5, 6] : List Byte).length ≤ 6 :=
  ⟨boundary_atBoundary, by decide, by decide⟩

theorem test_witness_FrameCountsAreFixed :
    AtBoundary boundary ∧ (1 ≤ ([0x40] : List Byte).length ∧ ([0x40] : List Byte).length ≤ 7) ∧
    (1 ≤ ([0xC0, 0, 0, 0, 0, 0, 0] : List Byte).length ∧ ([0xC0, 0, 0, 0, 0, 0, 0] : List Byte).length ≤ 7) :=
  ⟨boundary_atBoundary, by decide, by decide⟩

/-- The same witness for the statements about the trace of a frame. -/
theorem test_witness_DioMovesOnlyWhileClkIsLow_and_ReceiverReadsTheFrameSent :
    1 ≤ ([0x40] : List Byte).length ∧ ∃ t, frame [0x40] boundary = .next t := by
  obtain ⟨t, _, ht, _⟩ := frame_next [0x40] boundary boundary_atBoundary (by simp) (by simp)
  exact ⟨by decide, t, ht⟩

theorem test_witness_OperandAssemblyIsExact :
    ((0 : Int) ≤ 0 ∧ (0 : Int) ≤ 7) ∧ ((0 : Int) ≤ 7 ∧ (7 : Int) ≤ 7) ∧ ((0 : Int) ≤ 5 ∧ (5 : Int) ≤ 5) := by decide

theorem test_witness_InitSendsItsThreeFrames : (0 : Int) ≤ 7 ∧ (7 : Int) ≤ 7 := by decide

theorem test_witness_InitRejectsBadBrightness : (-1 : Int) < 0 ∧ (7 : Int) < 8 := by decide

theorem test_witness_SetSegmentsSendsOneFrame :
    AtBoundary boundary ∧ boundary.inited = true ∧ (0 : Int) ≤ 5 ∧ (5 : Int) ≤ 5 ∧
    ([1, 2, 3, 4, 5, 6] : List Byte).length ≤ 6 := ⟨boundary_atBoundary, rfl, by decide, by decide, by decide⟩

theorem test_witness_SetSegmentsChecksInOrder :
    State.reset.inited = false ∧ (boundary.inited = true ∧ (-1 : Int) < 0 ∧ (5 : Int) < 6) ∧
    (boundary.inited = true ∧ (0 : Int) ≤ 0 ∧ (0 : Int) ≤ 5 ∧ 6 < (List.replicate 7 (0 : Byte)).length) ∧
    (boundary.inited = true ∧ (0 : Int) ≤ 5 ∧ (5 : Int) ≤ 5 ∧ (List.replicate 6 (0 : Byte)).length ≤ 6) := by decide

theorem test_witness_SetBrightnessSendsOneByte :
    AtBoundary boundary ∧ boundary.inited = true ∧ (0 : Int) ≤ 7 ∧ (7 : Int) ≤ 7 :=
  ⟨boundary_atBoundary, rfl, by decide, by decide⟩

theorem test_witness_SetBrightnessChecksInOrder :
    State.reset.inited = false ∧ (boundary.inited = true ∧ (-1 : Int) < 0 ∧ (7 : Int) < 8) := by decide

theorem test_witness_CommandCountsAreFixed :
    ((0 : Int) ≤ 7 ∧ (7 : Int) ≤ 7) ∧
    (AtBoundary boundary ∧ boundary.inited = true ∧ (0 : Int) ≤ 5 ∧ (5 : Int) ≤ 5 ∧ ([] : List Byte).length ≤ 6) :=
  ⟨by decide, boundary_atBoundary, rfl, by decide, by decide, by decide⟩

theorem test_witness_CommandTraceFollowsTheDraws :
    boundary.ackSource = .drawn ∧
    (bytesSent (.setSegments [0x7F] 5) = some 2 ∧ 2 ≤ boundary.draws.length ∧
      answersNext (exec (.setSegments [0x7F] 5) boundary) = true ∧
      answersNext (exec (.setSegments [0x7F] 5) { boundary with trace := [.w] }) = true) ∧
    (bytesSent (.setBrightness 7 true) = some 1 ∧ answersNext (exec (.setBrightness 7 true) boundary) = true) ∧
    (bytesSent (.init 7 true) = some 9 ∧ 9 ≤ (List.replicate 9 false).length ∧
      answersNext (exec (.init 7 true) { boundary with draws := List.replicate 9 false }) = true ∧
      answersNext (exec (.init 7 true) { State.reset with draws := List.replicate 9 false }) = true) := by
  decide +kernel

theorem test_witness_AckBitsGateNothing :
    hostMayIssue (.setSegments [0x7F] 5) = true ∧
    answersNext (exec (.setSegments [0x7F] 5) { boundary with draws := [true] }) = true := by decide

theorem test_witness_MissingSlaveStopsNothing :
    AtBoundary { boundary with ackSource := .noSlave } ∧
    ({ boundary with ackSource := .noSlave } : State).inited = true ∧
    ({ boundary with ackSource := .noSlave } : State).ackSource = .noSlave ∧ (0 : Int) ≤ 5 ∧ (5 : Int) ≤ 5 ∧
    ([0x7F] : List Byte).length ≤ 6 := ⟨⟨rfl, rfl⟩, rfl, rfl, by decide, by decide, by decide⟩

theorem test_witness_TraceAccountsForThePads : answersNext (exec .sample boundary) = true := by decide

theorem test_witness_OnlyInitSetsInited : answersNext (exec (.setBrightness 0 true) boundary) = true := by decide

theorem test_witness_RomNeverChanges : answersNext (step hostReady) = true ∧ RomBuilt hostReady :=
  ⟨by decide, by decide, by decide⟩

theorem test_witness_ResetLeavesWhatTheSpecFixes : paramsAdmissible Config.defaultParams = true := by decide

theorem test_witness_ErrorsHaveNoOtherEffect :
    ∃ t, exec (.init 8 true) State.reset = .next t ∧ t.responses = State.reset.responses ++ [⟨.configurationError, []⟩] ∧
      Status.configurationError ≠ .ok := ⟨_, rfl, rfl, by decide⟩

theorem hostReady_hostInv : HostInv hostReady :=
  ⟨by decide, rfl, rfl, fun _ => ⟨rfl, rfl, boundary_listening⟩⟩

/-- The same witness for the statements about steps of the host's machine. -/
theorem test_witness_StepKeepsHostInvariant_and_HostStepsSendLegalFramesOnly_and_HostCommandsNeverFault :
    HostInv hostReady ∧ answersNext (step hostReady) = true := ⟨hostReady_hostInv, by decide⟩

theorem test_witness_ResetMeetsTheInvariants : HostInv hostReady ∧ MemoriesCanonical hostReady :=
  ⟨hostReady_hostInv, by decide, rfl⟩

theorem test_witness_StepKeepsMemoriesCanonical :
    MemoriesCanonical hostReady ∧ answersNext (step hostReady) = true := ⟨⟨by decide, rfl⟩, by decide⟩

theorem test_witness_BlockNeverReadsTheSlave : boundary.ackSource ≠ .referenceSlave := by decide

theorem test_witness_SetSegmentsWritesItsPositions :
    AtBoundary boundary ∧ Listening boundary.slave ∧ boundary.slave.clobbered = false ∧
    Memory.wf boundary.slave.disp = true ∧ 5 ≤ 5 ∧ 5 + ([0xFF] : List Byte).length ≤ 6 ∧
    answersNext (exec (.setSegments [0xFF] (5 : Nat)) boundary) = true :=
  ⟨boundary_atBoundary, boundary_listening, rfl, rfl, by decide, by decide, by decide⟩

theorem test_witness_WrapHazardClobbersTheDisplay :
    AtBoundary boundary ∧ Listening boundary.slave ∧ 5 ≤ 5 ∧ 6 < 5 + ([1, 2] : List Byte).length ∧
    answersNext (exec (.setSegments [1, 2] (5 : Nat)) boundary) = true :=
  ⟨boundary_atBoundary, boundary_listening, by decide, by decide, by decide⟩

theorem test_witness_SetBrightnessKeepsTheDisplay :
    AtBoundary boundary ∧ Listening boundary.slave ∧ boundary.inited = true ∧ (0 : Int) ≤ 7 ∧ (7 : Int) ≤ 7 ∧
    answersNext (exec (.setBrightness 7 true) boundary) = true :=
  ⟨boundary_atBoundary, boundary_listening, rfl, by decide, by decide, by decide⟩

/-- R221, D6: both lines low in mid-frame, and INIT's idle set-up is a STOP. -/
theorem test_setup_is_a_stop :
    (initSetup { State.reset with drv := ⟨true, true⟩, slave := slaveInFrame }).slave.rx.inframe = false := by decide

/-- Outside a frame, and in a frame that the set-up ends. -/
theorem test_witness_InitClearsTheDisplay :
    (State.reset.slave.rx.inframe = false ∧ State.reset.slave.clobbered = false ∧ State.reset.slave.rx.d ≠ some true) ∧
    (initSetup { State.reset with drv := ⟨true, true⟩, slave := slaveInFrame }).slave.clobbered = false ∧
    Memory.wf slaveInFrame.disp = true ∧ (0 : Int) ≤ 7 ∧ (7 : Int) ≤ 7 ∧
    answersNext (exec (.init 7 true) { State.reset with drv := ⟨true, true⟩, slave := slaveInFrame }) = true := by
  decide +kernel

theorem test_witness_ReferenceSlaveAcknowledgesEveryByte :
    AtBoundary { boundary with ackSource := .referenceSlave } ∧
    Listening ({ boundary with ackSource := .referenceSlave } : State).slave ∧
    ({ boundary with ackSource := .referenceSlave } : State).inited = true ∧ (0 : Int) ≤ 5 ∧ (5 : Int) ≤ 5 ∧
    ([0x7F] : List Byte).length ≤ 6 := ⟨⟨rfl, rfl⟩, ⟨rfl, rfl, rfl⟩, rfl, by decide, by decide, by decide⟩

theorem test_witness_LookupIsAPureRead :
    romFind State.reset.rom '8' = some 0x7F ∧ romFind State.reset.rom 'K' = none := by decide

theorem test_witness_AuxiliaryBitNeverInRom :
    Config.defaultSegDef.wf = true ∧ build Config.defaultSegDef Config.defaultDefs = some State.reset.rom ∧
    romFind State.reset.rom '8' = some 0x7F := by decide

theorem test_witness_DefaultTableForEverySegDef : Config.defaultSegDef.wf = true := by decide

theorem test_witness_EntriesComposeCompletely :
    build Config.defaultSegDef Config.defaultDefs = some State.reset.rom ∧
    (⟨'8', ['0', '-'], []⟩ : RomDef) ∈ Config.defaultDefs ∧ '0' ∈ ['0', '-'] := by decide

theorem test_witness_PrintCountsEveryCharacter :
    AtBoundary boundary ∧ boundary.inited = true ∧ boundary.adapter.col ≤ 6 := ⟨boundary_atBoundary, rfl, by decide⟩

theorem test_witness_PrintBatchesOneLine :
    (∀ c ∈ ['1', ':', '2'], counted c = true) ∧ boundary.adapter.clearPending = false ∧
    ([0x06, 0x5B] : List Byte) = (['1', ':', '2'].filterMap (romFind boundary.rom)).take (6 - boundary.adapter.col) ∧
    (Hits boundary ['H', 'I'] [0x76, 0x06] ∧ ['H', 'I'] ≠ []) ∧
    ({ boundary with adapter := ⟨6, true⟩ } : State).adapter.clearPending = true ∧
    (Hits { boundary with adapter := ⟨6, true⟩ } ['H', 'I'] [0x76, 0x06]) :=
  ⟨by simp [counted], rfl, by decide, ⟨⟨by simp [counted], by decide⟩, by decide⟩, rfl, by simp [counted], by decide⟩

theorem test_witness_PrintCharactersWithoutAFrame :
    (counted ':' = true ∧ romFind boundary.rom ':' = none) ∧
    (counted '8' = true ∧ romFind ({ boundary with adapter := ⟨6, false⟩ } : State).rom '8' = some 0x7F ∧
      ({ boundary with adapter := ⟨6, false⟩ } : State).adapter.col = 6 ∧
      ({ boundary with adapter := ⟨6, false⟩ } : State).adapter.clearPending = false) := by decide

end Sys2Proof.Tests
end

/-! SUPPORT. Completed sequences taken apart: what the next state of a frame, of a command of one frame and of INIT is,
with the command's answer read off it. -/

namespace Sys2Proof.Machine

open Sys2Proof.Safety

theorem andThen_eq_next {r : Result} {f : State → Result} {t : State} :
    andThen r f = .next t ↔ ∃ u, r = .next u ∧ f u = .next t := by
  cases r <;> simp

/-! ## What a frame leaves, field by field -/

namespace SentFrame

variable {bytes : List Byte} {s t : State} {as : List Bool} (h : SentFrame bytes s t as)
include h

theorem trace_eq : t.trace = s.trace ++ frameEvents (bytes.zip as) := congrArg State.trace h.state
theorem responses_eq : t.responses = s.responses := by rw [h.state]
theorem acks_eq : t.acks = s.acks ++ as := congrArg State.acks h.state
theorem ackSource_eq : t.ackSource = s.ackSource := by rw [h.state]

end SentFrame

/-! ## Completed commands (R121, R125, R129) -/

theorem oneFrameCommand_sent {bytes : List Byte} {s t : State} (h : oneFrameCommand bytes s = .next t) :
    ∃ u as, SentFrame bytes (beginCommand s) u as ∧ bytes.length ≤ 7 ∧ t = respondOk u := by
  obtain ⟨u, hu, ht⟩ := andThen_eq_next.1 h
  obtain ⟨as, hs, -, h7, -⟩ := frame_sent hu
  cases ht
  exact ⟨u, as, hs, h7, rfl⟩

/-- SET_SEGMENTS completes with a RangeError or after the frame of its address byte and masks. -/
theorem setSegments_sent {ms : List Byte} {p : Int} {s t : State} (h : setSegments ms p s = .next t) :
    (positionLegal p = false ∧ t = { s with responses := s.responses ++ [⟨.rangeError, []⟩] }) ∨
    (positionLegal p = true ∧ oneFrameCommand (addressByte p :: ms) s = .next t) := by
  rcases setSegments_ends ms p s with ⟨-, he⟩ | ⟨-, hp, he⟩ | ⟨-, -, -, he⟩ | ⟨-, hp, -, he⟩ <;> rw [he] at h
  · cases h
  · cases h; exact .inl ⟨hp, rfl⟩
  · cases h
  · exact .inr ⟨hp, h⟩

/-- SET_BRIGHTNESS completes with a ConfigurationError or after the frame of its control byte. -/
theorem execSetBrightness_sent {b : Int} {shown : Bool} {s t : State} (h : execSetBrightness b shown s = .next t) :
    (brightnessLegal b = false ∧ t = { s with responses := s.responses ++ [⟨.configurationError, []⟩] }) ∨
    (brightnessLegal b = true ∧ oneFrameCommand [controlByte b shown] s = .next t) := by
  unfold execSetBrightness at h
  split at h
  · cases h
  · split at h
    · rename_i hb
      cases h
      exact .inl ⟨by simpa using hb, rfl⟩
    · rename_i hb
      exact .inr ⟨by simpa using hb, h⟩

/-- INIT completes with a ConfigurationError or after its set-up and its three frames. -/
theorem execInit_sent {b : Int} {shown : Bool} {s t : State} (h : execInit b shown s = .next t) :
    (brightnessLegal b = false ∧ t = { s with responses := s.responses ++ [⟨.configurationError, []⟩] }) ∨
    (brightnessLegal b = true ∧ ∃ u v w as bs cs, SentFrame [0x40] (initSetup (beginCommand s)) u as ∧
      SentFrame (0xC0 :: clearMasks) u v bs ∧ SentFrame [controlByte b shown] v w cs ∧ t = respondOk (initDone w)) := by
  unfold execInit at h
  split at h
  · rename_i hb
    cases h
    exact .inl ⟨by simpa using hb, rfl⟩
  · rename_i hb
    obtain ⟨u, hu, h⟩ := andThen_eq_next.1 h
    obtain ⟨v, hv, h⟩ := andThen_eq_next.1 h
    obtain ⟨w, hw, h⟩ := andThen_eq_next.1 h
    obtain ⟨as, has, -⟩ := frame_sent hu
    obtain ⟨bs, hbs, -⟩ := frame_sent hv
    obtain ⟨cs, hcs, -⟩ := frame_sent hw
    cases h
    exact .inr ⟨by simpa using hb, u, v, w, as, bs, cs, has, hbs, hcs, rfl⟩

/-! ## The first bytes the commands put on the wire (R68) -/

theorem legalFirstByte_addressByte {p : Int} (h : positionLegal p = true) : legalFirstByte (addressByte p) = true := by
  obtain ⟨h0, h5⟩ := (positionLegal_iff p).1 h
  interval_cases p <;> decide

theorem legalFirstByte_controlByte {b : Int} (shown : Bool) (h : brightnessLegal b = true) :
    legalFirstByte (controlByte b shown) = true := by
  obtain ⟨h0, h7⟩ := (brightnessLegal_iff b).1 h
  interval_cases b <;> revert shown <;> decide

/-- The bytes of a frame that was sent, each with its ACK bit, are a legal frame if the first byte is legal. -/
theorem SentFrame.legalFrame {v : Byte} {vs : List Byte} {s t : State} {as : List Bool}
    (h : SentFrame (v :: vs) s t as) (h7 : (v :: vs).length ≤ 7) (hv : legalFirstByte v = true) :
    LegalFrame ((v :: vs).zip as) := by
  obtain ⟨a, as', rfl⟩ := List.exists_cons_of_length_eq_add_one h.len
  exact ⟨by simp only [List.length_zip]; omega, v, a, vs.zip as', rfl, hv⟩

/-! ## O45: what a step of the host appends is whole legal frames -/

/-- From `s` to `t` the trace gains whole legal frames and nothing else. -/
def GainsLegalFrames (s t : State) : Prop :=
  ∃ frames : List (List (Byte × Bool)), t.trace = s.trace ++ frames.flatMap frameEvents ∧ ∀ f ∈ frames, LegalFrame f

namespace GainsLegalFrames

variable {s t u : State}

theorem of_trace_eq (h : t.trace = s.trace) : GainsLegalFrames s t := ⟨[], by simp [h], by simp⟩

theorem trans (h : GainsLegalFrames s t) (h' : GainsLegalFrames t u) : GainsLegalFrames s u := by
  obtain ⟨fs, hfs, hl⟩ := h
  obtain ⟨gs, hgs, hl'⟩ := h'
  exact ⟨fs ++ gs, by simp [hgs, hfs], fun f hf => (List.mem_append.1 hf).elim (hl f) (hl' f)⟩

theorem frame {v : Byte} {vs : List Byte} {as : List Bool} (h : SentFrame (v :: vs) s t as)
    (h7 : (v :: vs).length ≤ 7) (hv : legalFirstByte v = true) : GainsLegalFrames s t :=
  ⟨[(v :: vs).zip as], by simp [h.trace_eq], by simpa using h.legalFrame h7 hv⟩

theorem oneFrameCommand {v : Byte} {vs : List Byte} (h : oneFrameCommand (v :: vs) s = .next t)
    (hv : legalFirstByte v = true) : GainsLegalFrames s t := by
  obtain ⟨u, as, hs, h7, rfl⟩ := oneFrameCommand_sent h
  exact (GainsLegalFrames.frame hs h7 hv).trans (of_trace_eq rfl)

theorem setSegments {ms : List Byte} {p : Int} (h : setSegments ms p s = .next t) : GainsLegalFrames s t := by
  obtain ⟨-, rfl⟩ | ⟨hp, h⟩ := setSegments_sent h
  · exact of_trace_eq rfl
  · exact oneFrameCommand h (legalFirstByte_addressByte hp)

theorem setBrightness {b : Int} {shown : Bool} (h : execSetBrightness b shown s = .next t) :
    GainsLegalFrames s t := by
  obtain ⟨-, rfl⟩ | ⟨hb, h⟩ := execSetBrightness_sent h
  · exact of_trace_eq rfl
  · exact oneFrameCommand h (legalFirstByte_controlByte shown hb)

/-- PRINT puts nothing on the wire but the frames of the SET_SEGMENTS it issues (R171). -/
theorem print {cs : List Char} (h : execPrint cs s = .next t) : GainsLegalFrames s t := by
  have hp : PrintSpec (GainsLegalFrames s) (fun _ => True) :=
    { setSegments := fun ms p u hu => by
        cases he : Machine.setSegments ms p u with
        | next w => exact hu.trans (setSegments he)
        | fault e => trivial
        | refused e => trivial
      adapter := fun _ _ hu => hu
      diag := fun _ _ hu => hu
      returned := fun _ _ hu => hu }
  have hend := hp.print cs s (of_trace_eq rfl)
  rw [h] at hend
  exact hend

end GainsLegalFrames

/-- INIT that passes its check appends its set-up and then whole legal frames (R121). -/
theorem execInit_gains {b : Int} {shown : Bool} {s t : State} (h : execInit b shown s = .next t) :
    GainsLegalFrames s t ∨ GainsLegalFrames (initSetup s) t := by
  obtain ⟨-, rfl⟩ | ⟨hb, u, v, w, as, bs, cs, hu, hv, hw, rfl⟩ := execInit_sent h
  · exact .inl (.of_trace_eq rfl)
  · have hsetup : GainsLegalFrames (initSetup s) (initSetup (beginCommand s)) :=
      .of_trace_eq (by simp [initSetup_eq, beginCommand])
    exact .inr (hsetup.trans ((GainsLegalFrames.frame hu (by decide) (by decide)).trans
      ((GainsLegalFrames.frame hv (by decide) (by decide)).trans
        ((GainsLegalFrames.frame hw (by simp) (legalFirstByte_controlByte shown hb)).trans (.of_trace_eq rfl)))))

/-- What the host may issue appends whole legal frames, after INIT's set-up or nothing. -/
theorem exec_host_gains {i : Instr} {s t : State} (hi : hostMayIssue i = true) (h : exec i s = .next t) :
    GainsLegalFrames s t ∨ GainsLegalFrames (initSetup s) t := by
  cases i with
  | init b shown => exact execInit_gains h
  | setSegments ms p => exact .inl (.setSegments h)
  | setBrightness b shown => exact .inl (.setBrightness h)
  | lookup c => cases h; exact .inl (.of_trace_eq rfl)
  | print cs => exact .inl (.print h)
  | _ => cases hi

/-- A step that completes waits, or carries out an operation its issuer may issue (R25, R66). -/
theorem step_next_cases {s t : State} (h : step s = .next t) :
    (s.port = [] ∧ t = s) ∨ ∃ r rest i, s.port = r :: rest ∧ decode r = .ok i ∧
      (r.issuer = .host → hostMayIssue i = true) ∧ exec i { s with port := rest } = .next t := by
  unfold step at h
  split at h
  · cases h; exact .inl ⟨‹_›, rfl⟩
  · rename_i r rest hp
    unfold fetch at h
    cases hd : decode r with
    | error e => rw [hd] at h; cases h
    | ok i =>
      rw [hd] at h
      by_cases hr : r.issuer = .host ∧ hostMayIssue i = false
      · simp [hr] at h
      · simp only [hr, if_false] at h
        exact .inr ⟨r, rest, i, hp, hd, by simpa using hr, h⟩

/-- Settles O45: INIT, SET_SEGMENTS, SET_BRIGHTNESS and the SET_SEGMENTS that PRINT issues are the only senders the host
has, and each sends by `frame` with a first byte of R68. -/
theorem hostStepsSendLegalFramesOnly : Obligations.HostStepsSendLegalFramesOnly := by
  unfold Obligations.HostStepsSendLegalFramesOnly
  rintro s t ⟨hhost, -, -, -⟩ h
  obtain ⟨-, rfl⟩ | ⟨r, rest, i, hport, -, hissue, hexec⟩ := step_next_cases h
  · exact ⟨[], [], by simp, .inl rfl, by simp⟩
  · have hi : hostMayIssue i = true := hissue (hhost r (by simp [hport]))
    obtain ⟨fs, htrace, hlegal⟩ | ⟨fs, htrace, hlegal⟩ := exec_host_gains hi hexec
    · exact ⟨[], fs, by simpa using htrace, .inl rfl, hlegal⟩
    · exact ⟨setupEvents, fs, by simpa [initSetup_eq] using htrace, .inr rfl, hlegal⟩

end Sys2Proof.Machine

/-! SUPPORT. The events and the response of the three host commands as functions of the draws (R4, R26). -/

namespace Sys2Proof.Machine

open Sys2Proof.Safety

/-- Whatever completed execution of `run` begins with the draws `ds`, it appends the same events and the same response, and
if the status is Ok the ACK bits of the response are the first `n` draws. -/
def AnswersByDraws (run : State → Result) (ds : List Bool) (n : Nat) : Prop :=
  ∃ es r, (r.status = .ok → r.acks = ds.take n) ∧
    ∀ s t, s.ackSource = .drawn → s.draws = ds → run s = .next t →
      t.trace = s.trace ++ es ∧ t.responses = s.responses ++ [r]

theorem answersByDraws_error {run : State → Result} (ds : List Bool) (n : Nat) {e : Status} (he : e ≠ .ok)
    (h : ∀ s t, run s = .next t → t = { s with responses := s.responses ++ [⟨e, []⟩] }) : AnswersByDraws run ds n := by
  refine ⟨[], ⟨e, []⟩, fun hok => absurd hok he, fun s t _ _ hrun => ?_⟩
  rw [h s t hrun]
  simp

theorem oneFrameCommand_answersByDraws {bytes : List Byte} {ds : List Bool} (hn : bytes.length ≤ ds.length)
    {run : State → Result} (h : ∀ s t, run s = .next t → oneFrameCommand bytes s = .next t) :
    AnswersByDraws run ds bytes.length := by
  refine ⟨frameEvents (bytes.zip (ds.take bytes.length)), ⟨.ok, ds.take bytes.length⟩, fun _ => rfl, ?_⟩
  intro s t hsrc hds hrun
  obtain ⟨u, as, hu, -, rfl⟩ := oneFrameCommand_sent (h s t hrun)
  have has : as = ds.take bytes.length := hds ▸ hu.drawn hsrc (hds ▸ hn)
  rw [← has]
  exact ⟨hu.trace_eq, by simp [respondOk, hu.acks_eq, hu.responses_eq, beginCommand]⟩

theorem setSegments_answersByDraws (ms : List Byte) (p : Int) {ds : List Bool} (hn : ms.length + 1 ≤ ds.length) :
    AnswersByDraws (execSetSegments ms p) ds (ms.length + 1) := by
  cases hp : positionLegal p
  · refine answersByDraws_error ds _ (e := .rangeError) (by decide) fun s t h => ?_
    obtain ⟨-, rfl⟩ | ⟨hp', -⟩ := setSegments_sent h
    · rfl
    · simp [hp] at hp'
  · refine oneFrameCommand_answersByDraws (bytes := addressByte p :: ms) hn fun s t h => ?_
    obtain ⟨hp', -⟩ | ⟨-, h⟩ := setSegments_sent h
    · simp [hp] at hp'
    · exact h

theorem setBrightness_answersByDraws (b : Int) (shown : Bool) {ds : List Bool} (hn : 1 ≤ ds.length) :
    AnswersByDraws (execSetBrightness b shown) ds 1 := by
  cases hb : brightnessLegal b
  · refine answersByDraws_error ds _ (e := .configurationError) (by decide) fun s t h => ?_
    obtain ⟨-, rfl⟩ | ⟨hb', -⟩ := execSetBrightness_sent h
    · rfl
    · simp [hb] at hb'
  · refine oneFrameCommand_answersByDraws (bytes := [controlByte b shown]) hn fun s t h => ?_
    obtain ⟨hb', -⟩ | ⟨-, h⟩ := execSetBrightness_sent h
    · simp [hb] at hb'
    · exact h

/-- The three frames of INIT take one, seven and one of the draws, in this order (R121). -/
theorem init_answersByDraws (b : Int) (shown : Bool) {ds : List Bool} (hn : 9 ≤ ds.length) :
    AnswersByDraws (execInit b shown) ds 9 := by
  cases hb : brightnessLegal b
  · refine answersByDraws_error ds _ (e := .configurationError) (by decide) fun s t h => ?_
    obtain ⟨-, rfl⟩ | ⟨hb', -⟩ := execInit_sent h
    · rfl
    · simp [hb] at hb'
  · refine ⟨setupEvents ++ frameEvents ([0x40].zip (ds.take 1)) ++
      frameEvents ((0xC0 :: clearMasks).zip ((ds.drop 1).take 7)) ++
      frameEvents ([controlByte b shown].zip (((ds.drop 1).drop 7).take 1)), ⟨.ok, ds.take 9⟩, fun _ => rfl, ?_⟩
    intro s t hsrc hds h
    obtain ⟨hb', -⟩ | ⟨-, u, v, w, as, bs, cs, hu, hv, hw, rfl⟩ := execInit_sent h
    · simp [hb] at hb'
    · have hsrc₀ : (initSetup (beginCommand s)).ackSource = .drawn := by rw [initSetup_eq]; exact hsrc
      have hds₀ : (initSetup (beginCommand s)).draws = ds := by rw [initSetup_eq]; exact hds
      have hsrc₁ : u.ackSource = .drawn := hu.ackSource_eq.trans hsrc₀
      have hsrc₂ : v.ackSource = .drawn := hv.ackSource_eq.trans hsrc₁
      have hds₁ : u.draws = ds.drop 1 := hds₀ ▸ hu.left hsrc₀
      have hds₂ : v.draws = (ds.drop 1).drop 7 := hds₁ ▸ hv.left hsrc₁
      have has : as = ds.take 1 := hds₀ ▸ hu.drawn hsrc₀ (by rw [hds₀]; simp; omega)
      have hbs : bs = (ds.drop 1).take 7 := hds₁ ▸ hv.drawn hsrc₁ (by rw [hds₁]; simp [clearMasks]; omega)
      have hcs : cs = ((ds.drop 1).drop 7).take 1 := hds₂ ▸ hw.drawn hsrc₂ (by rw [hds₂]; simp; omega)
      have htake : ds.take 9 = as ++ bs ++ cs := by
        rw [has, hbs, hcs, ← List.take_add, List.drop_drop, ← List.take_add]
      rw [htake, ← has, ← hbs, ← hcs]
      constructor
      · simp [respondOk, initDone, hw.trace_eq, hv.trace_eq, hu.trace_eq, initSetup_eq, beginCommand]
      · simp [respondOk, initDone, hw.acks_eq, hv.acks_eq, hu.acks_eq, hw.responses_eq, hv.responses_eq, hu.responses_eq,
          initSetup_eq, beginCommand]

/-- Settles O35: both executions answer by the draws they share. -/
theorem commandTraceFollowsTheDraws : Obligations.CommandTraceFollowsTheDraws := by
  unfold Obligations.CommandTraceFollowsTheDraws
  intro i n s₁ s₂ t₁ t₂ hi hsrc₁ hsrc₂ hds hn h₁ h₂
  have key : AnswersByDraws (exec i) s₁.draws n := by
    cases i with
    | init b shown => cases hi; exact init_answersByDraws b shown hn
    | setSegments ms p => cases hi; exact setSegments_answersByDraws ms p hn
    | setBrightness b shown => cases hi; exact setBrightness_answersByDraws b shown hn
    | _ => cases hi
  obtain ⟨es, r, hacks, hrun⟩ := key
  obtain ⟨htrace₁, hresp₁⟩ := hrun s₁ t₁ hsrc₁ rfl h₁
  obtain ⟨htrace₂, hresp₂⟩ := hrun s₂ t₂ hsrc₂ hds.symm h₂
  exact ⟨es, r, htrace₁, htrace₂, hresp₁, hresp₂, hacks⟩

end Sys2Proof.Machine

/-! SUPPORT. BUILD on a whole definition list: which lists build, which keys the table has, the mask of every entry, and what
every cell of it satisfies (R142 to R148); then the spec's default list (R153). -/

namespace Sys2Proof.Machine

/-! ## One entry -/

theorem buildEntry_next (sd : SegDef) {rom : Memory} {d : RomDef} (hk : romFind rom d.key = none)
    (hr : ∀ c ∈ d.refs, (romFind rom c).isSome = true) : ∃ rom', buildEntry sd rom d = some rom' := by
  obtain ⟨m, hm⟩ := Option.isSome_iff_exists.1 ((orRefs_isSome rom d.refs).trans (List.all_eq_true.2 hr))
  exact ⟨_, by unfold buildEntry; rw [hk, hm]⟩

/-- An accepted entry lists one cell more. -/
theorem buildEntry_cell {sd : SegDef} {rom rom' : Memory} {d : RomDef} (h : buildEntry sd rom d = some rom') :
    ∃ m, orRefs rom d.refs = some m ∧ rom' = Memory.insert (romKey d.key) (m ||| orBits sd d.bits) rom := by
  unfold buildEntry at h
  split at h
  · rename_i m _ hm
    cases h
    exact ⟨m, hm, rfl⟩
  · cases h

theorem buildFrom_cons {sd : SegDef} {d : RomDef} {ds : List RomDef} {rom rom' : Memory} :
    buildFrom sd (d :: ds) rom = some rom' ↔
      ∃ r, buildEntry sd rom d = some r ∧ buildFrom sd ds r = some rom' := by
  rw [buildFrom]
  cases buildEntry sd rom d <;> simp

/-! ## The whole list -/

/-- A list in dependency order, without a key defined twice, builds for every SEGDEF (R143, R148). -/
theorem buildFrom_of_defsOrdered (sd : SegDef) {ds : List RomDef} {seen : List Char} {rom : Memory}
    (hseen : ∀ c, (romFind rom c).isSome = seen.contains c) (h : defsOrdered seen ds = true) :
    ∃ rom', buildFrom sd ds rom = some rom' := by
  induction ds generalizing seen rom with
  | nil => exact ⟨rom, rfl⟩
  | cons d ds ih =>
    simp only [defsOrdered, Bool.and_eq_true, Bool.not_eq_true', List.all_eq_true] at h
    obtain ⟨⟨hnew, hrefs⟩, hrest⟩ := h
    have hkey : romFind rom d.key = none := Option.not_isSome_iff_eq_none.1 (by rw [hseen, hnew]; decide)
    obtain ⟨r, hr⟩ := buildEntry_next sd hkey (fun c hc => (hseen c).trans (hrefs c hc))
    have hseen' : ∀ c, (romFind r c).isSome = (d.key :: seen).contains c := by
      obtain ⟨-, m, -, hf⟩ := buildEntry_some hr
      intro c
      rw [hf, List.contains_cons, ← hseen]
      by_cases hc : c = d.key <;> simp [hc]
    obtain ⟨rom', hrom'⟩ := ih hseen' hrest
    exact ⟨rom', buildFrom_cons.2 ⟨r, hr, hrom'⟩⟩

/-- The keys of the table are those it had and those of the list. -/
theorem buildFrom_isSome {sd : SegDef} {ds : List RomDef} {rom rom' : Memory} (h : buildFrom sd ds rom = some rom')
    (c : Char) : (romFind rom' c).isSome = true ↔ (romFind rom c).isSome = true ∨ c ∈ ds.map RomDef.key := by
  induction ds generalizing rom with
  | nil => cases h; simp
  | cons d ds ih =>
    obtain ⟨r, hr, h⟩ := buildFrom_cons.1 h
    obtain ⟨-, m, -, hf⟩ := buildEntry_some hr
    rw [ih h, hf]
    by_cases hc : c = d.key <;> simp [hc]

theorem orRefs_cons {rom : Memory} {c : Char} {cs : List Char} {m r : Byte} (hm : romFind rom c = some m)
    (hr : orRefs rom cs = some r) : orRefs rom (c :: cs) = some (m ||| r) := by
  rw [orRefs, hm, hr]

/-- An OR of entries stays what it is in a table that keeps the entries. -/
theorem orRefs_keeps {rom rom' : Memory} (hk : ∀ c m, romFind rom c = some m → romFind rom' c = some m)
    {cs : List Char} {r : Byte} (h : orRefs rom cs = some r) : orRefs rom' cs = some r := by
  induction cs generalizing r with
  | nil => exact h
  | cons c cs ih =>
    unfold orRefs at h ⊢
    split at h
    · rename_i m r' hm hr'
      rw [hk c m hm, ih hr']
      exact h
    · cases h

/-- Every entry of the list is in the table as the OR of the entries it composes, as the table has them, and its own bits
(R143). -/
theorem buildFrom_entry {sd : SegDef} {ds : List RomDef} {rom rom' : Memory} (h : buildFrom sd ds rom = some rom')
    {d : RomDef} (hd : d ∈ ds) :
    ∃ r, orRefs rom' d.refs = some r ∧ romFind rom' d.key = some (r ||| orBits sd d.bits) := by
  induction ds generalizing rom with
  | nil => cases hd
  | cons e ds ih =>
    obtain ⟨r, hr, hds⟩ := buildFrom_cons.1 h
    obtain rfl | hd := List.mem_cons.1 hd
    · obtain ⟨hk, m, hm, hf⟩ := buildEntry_some hr
      have hgrow : ∀ c v, romFind rom c = some v → romFind rom' c = some v :=
        fun c v hc => buildFrom_keeps h hc
      exact ⟨m, orRefs_keeps hgrow hm, buildFrom_keeps hds (by simp [hf])⟩
    · exact ih hds hd

theorem buildFrom_rising {sd : SegDef} {ds : List RomDef} {rom rom' : Memory} (h : buildFrom sd ds rom = some rom')
    (hr : Memory.rising rom = true) : Memory.rising rom' = true := by
  induction ds generalizing rom with
  | nil => cases h; exact hr
  | cons d ds ih =>
    obtain ⟨r, he, h⟩ := buildFrom_cons.1 h
    obtain ⟨m, -, rfl⟩ := buildEntry_cell he
    exact ih h (Memory.rising_insert rom _ _ hr)

/-- What holds of the cells of a table, and of each cell that an entry of the list adds to such a table, holds of every cell
of the table built. -/
theorem buildFrom_all {sd : SegDef} {ds : List RomDef} (p : Host.Cell → Bool)
    (hstep : ∀ rom : Memory, rom.all p = true → ∀ d ∈ ds, ∀ m, orRefs rom d.refs = some m →
      p (romKey d.key, m ||| orBits sd d.bits) = true)
    {rom rom' : Memory} (h : buildFrom sd ds rom = some rom') (hp : rom.all p = true) : rom'.all p = true := by
  induction ds generalizing rom with
  | nil => cases h; exact hp
  | cons d ds ih =>
    obtain ⟨r, he, h⟩ := buildFrom_cons.1 h
    obtain ⟨m, hm, rfl⟩ := buildEntry_cell he
    exact ih (fun rom hrom e he => hstep rom hrom e (List.mem_cons_of_mem d he)) h
      (Memory.all_insert rom _ _ p (hstep rom hp d List.mem_cons_self m hm) hp)

/-! ## Bit H (R144) -/

/-- The cells whose masks have no bit of `h`. -/
def clearOf (h : Byte) (cell : Host.Cell) : Bool := cell.2 &&& h == 0

theorem or_and_eq_zero {x y h : Byte} (hx : x &&& h = 0) (hy : y &&& h = 0) : (x ||| y) &&& h = 0 := by
  rw [BitVec.and_or_distrib_right, hx, hy]; rfl

theorem Memory.find_all {m : Memory} {k : Nat} {v : Byte} {p : Host.Cell → Bool} (hf : Memory.find m k = some v)
    (hp : m.all p = true) : p (k, v) = true := by
  induction m with
  | nil => cases hf
  | cons c m ih =>
    simp only [List.all_cons, Bool.and_eq_true] at hp
    simp only [Memory.find] at hf
    split at hf
    · subst_vars; cases hf; exact hp.1
    · exact ih hf hp.2

theorem orRefs_clearOf {rom : Memory} {h : Byte} (hrom : rom.all (clearOf h) = true) {cs : List Char} {m : Byte}
    (hm : orRefs rom cs = some m) : m &&& h = 0 := by
  induction cs generalizing m with
  | nil => cases hm; exact BitVec.zero_and
  | cons c cs ih =>
    unfold orRefs at hm
    split at hm
    · rename_i v r hv hr
      cases hm
      exact or_and_eq_zero (by simpa [clearOf] using Memory.find_all hv hrom) (ih hr)
    · cases hm

/-- Two different one-hot bytes have no bit in common. -/
theorem oneHot_and_eq_zero {x y : Byte} (hx : oneHot x = true) (hy : oneHot y = true) (hne : x ≠ y) : x &&& y = 0 := by
  simp only [oneHot, List.any_eq_true, beq_iff_eq] at hx hy
  obtain ⟨i, hi, rfl⟩ := hx
  obtain ⟨j, hj, rfl⟩ := hy
  have key : ∀ i ∈ List.range 8, ∀ j ∈ List.range 8, 1#8 <<< i ≠ 1#8 <<< j → 1#8 <<< i &&& 1#8 <<< j = 0 := by decide
  exact key i hi j hj hne

/-- The bit of a segment A to G is not bit H (R141). -/
theorem segBit_and_h {sd : SegDef} (hwf : sd.wf = true) (seg : Seg) : segBit sd seg &&& sd.h = 0 := by
  simp only [SegDef.wf, Bool.and_eq_true, decide_eq_true_eq, List.all_eq_true] at hwf
  obtain ⟨hhot, hnodup⟩ := hwf
  have hmem : segBit sd seg ∈ sd.all := by cases seg <;> simp [segBit, SegDef.all]
  have hne : segBit sd seg ≠ sd.h := by
    simp only [SegDef.all, List.nodup_cons, List.mem_cons, not_or] at hnodup
    cases seg <;> simp [segBit, hnodup]
  exact oneHot_and_eq_zero (hhot _ hmem) (hhot _ (by simp [SegDef.all])) hne

theorem orBits_and_h {sd : SegDef} (hwf : sd.wf = true) (bits : List Seg) : orBits sd bits &&& sd.h = 0 := by
  induction bits with
  | nil => exact BitVec.zero_and
  | cons seg bits ih => exact or_and_eq_zero (segBit_and_h hwf seg) ih

/-- No cell that BUILD makes has bit H, for a legal SEGDEF. -/
theorem build_clearOf_h {sd : SegDef} (hwf : sd.wf = true) {defs : List RomDef} {rom : Memory}
    (h : build sd defs = some rom) : rom.all (clearOf sd.h) = true :=
  buildFrom_all (clearOf sd.h)
    (fun _ hrom _ _ _ hm => beq_iff_eq.2 (or_and_eq_zero (orRefs_clearOf hrom hm) (orBits_and_h hwf _))) h rfl

/-! ## The default list (R153) -/

/-- Every mask of the table, from those of the entries it composes. -/
theorem build_mask {sd : SegDef} {defs : List RomDef} {rom : Memory} (h : build sd defs = some rom) (k : Char)
    (refs : List Char) (bits : List Seg) (hd : ⟨k, refs, bits⟩ ∈ defs) {r : Byte} (hr : orRefs rom refs = some r) :
    romFind rom k = some (r ||| orBits sd bits) := by
  obtain ⟨r', hr', hf⟩ := buildFrom_entry h hd
  cases hr.symm.trans hr'
  exact hf

theorem build_isSome_iff {sd : SegDef} {defs : List RomDef} {rom : Memory} (h : build sd defs = some rom) (c : Char) :
    (romFind rom c).isSome = true ↔ c ∈ defs.map RomDef.key := by
  simpa [romFind, Memory.find] using buildFrom_isSome h c

theorem build_defaultDefs (sd : SegDef) : ∃ rom, build sd Config.defaultDefs = some rom :=
  buildFrom_of_defsOrdered sd (seen := []) (fun _ => rfl) (by decide)

section
variable {sd : SegDef} {rom : Memory} (h : build sd Config.defaultDefs = some rom)
include h

theorem defaultRom_space : romFind rom ' ' = some 0x00 := by
  simpa [orBits] using build_mask h ' ' [] [] (by decide) rfl

/-- '8' is '0' and '-'; '0' is 'C' and '1'; 'C' is 'L' and A; 'L' is '_' and E, F. -/
theorem defaultRom_eight : romFind rom '8' = some (seg7 sd) := by
  have hdash := build_mask h '-' [] [.g] (by decide) rfl
  have hunder := build_mask h '_' [] [.d] (by decide) rfl
  have hone := build_mask h '1' [] [.b, .c] (by decide) rfl
  have hL := build_mask h 'L' ['_'] [.e, .f] (by decide) (orRefs_cons hunder rfl)
  have hC := build_mask h 'C' ['L'] [.a] (by decide) (orRefs_cons hL rfl)
  have hzero := build_mask h '0' ['C', '1'] [] (by decide) (orRefs_cons hC (orRefs_cons hone rfl))
  have hEight := build_mask h '8' ['0', '-'] [] (by decide) (orRefs_cons hzero (orRefs_cons hdash rfl))
  rw [hEight]
  simp only [orBits, segBit, seg7, List.foldr_cons, List.foldr_nil, BitVec.ofNat_eq_ofNat, BitVec.zero_or,
    BitVec.or_zero]
  refine congrArg some ?_
  ac_rfl

theorem defaultRom_requiredKeys : ∀ c ∈ requiredKeys, (romFind rom c).isSome = true := by
  have hkeys : ∀ c ∈ requiredKeys, c ∈ Config.defaultDefs.map RomDef.key := by
    simp [requiredKeys, Config.defaultDefs, Config.defaultDefsLow, Config.defaultDefsHigh]
  exact fun c hc => (build_isSome_iff h c).2 (hkeys c hc)

/-- No key of the list is one of R149's. -/
theorem defaultRom_not_forbidden : rom.all (fun cell => !forbiddenKey cell.1) = true := by
  have hkeys : ∀ d ∈ Config.defaultDefs, (!forbiddenKey (romKey d.key)) = true := by decide
  exact buildFrom_all _ (fun _ _ d hd _ _ => hkeys d hd) h rfl

/-- For a legal SEGDEF the default table meets the constraints of D18. -/
theorem defaultRom_admissible (hwf : sd.wf = true) : romAdmissible sd rom = true := by
  have hrising : Memory.rising rom = true := buildFrom_rising h rfl
  have hcells : (rom.all fun cell => cell.2 &&& sd.h == 0 && !forbiddenKey cell.1) = true := by
    have hclear := build_clearOf_h hwf h
    have hkeys := defaultRom_not_forbidden h
    rw [List.all_eq_true] at hclear hkeys ⊢
    exact fun cell hc => Bool.and_eq_true_iff.2 ⟨hclear cell hc, hkeys cell hc⟩
  simp only [romAdmissible, hrising, hcells, defaultRom_space h, defaultRom_eight h,
    List.all_eq_true.2 (defaultRom_requiredKeys h), beq_self_eq_true, Bool.and_self]

end

/-- Settles O57: the default list is in dependency order, so it builds; its keys decide the hits and misses, and the
compositions behind '8' give all seven segments. -/
theorem defaultTableForEverySegDef : Obligations.DefaultTableForEverySegDef := by
  unfold Obligations.DefaultTableForEverySegDef
  intro sd
  obtain ⟨rom, h⟩ := build_defaultDefs sd
  refine ⟨rom, h, defaultRom_space h, defaultRom_eight h, fun c hc => ?_, fun n hn => ?_, defaultRom_admissible h⟩
  · have hkeys : ['0', '1', '2', '3', '4', '5', '6', '7', '9', '-', '_', '?', '@', '°', 'H', 'I'] ⊆ requiredKeys := by
      decide
    exact defaultRom_requiredKeys h c (hkeys hc)
  · have hkeys : ∀ n ∈ [0x0A, 0x0D, 0x00, 0x1B], Char.ofNat n ∉ Config.defaultDefs.map RomDef.key := by decide
    exact Option.not_isSome_iff_eq_none.1 (mt (build_isSome_iff h _).1 (hkeys n hn))

end Sys2Proof.Machine

/-! SUPPORT. Reset: the ROM of admissible parameters, and what INIT's set-up makes of lines left anyhow (R220, R221). -/

namespace Sys2Proof.Machine

open Sys2Proof.Safety

theorem paramsAdmissible_iff {p : Params} :
    paramsAdmissible p = true ↔
      p.wf = true ∧ ∃ rom, build p.segdef p.romDefs = some rom ∧ romAdmissible p.segdef rom = true := by
  unfold paramsAdmissible
  cases build p.segdef p.romDefs <;> simp

/-- With admissible parameters the ROM at reset is what BUILD makes of them, and meets the constraints of D18. -/
theorem resetWith_romBuilt {p : Params} (h : paramsAdmissible p = true) :
    RomBuilt (State.resetWith p) ∧ romAdmissible p.segdef (State.resetWith p).rom = true := by
  obtain ⟨-, rom, hb, hr⟩ := paramsAdmissible_iff.1 h
  have hrom : (State.resetWith p).rom = rom := by simp [State.resetWith, hb]
  exact ⟨⟨h, hrom ▸ hb⟩, hrom ▸ hr⟩

theorem defaultParams_admissible : paramsAdmissible Config.defaultParams = true := by
  obtain ⟨rom, h⟩ := build_defaultDefs Config.defaultSegDef
  exact paramsAdmissible_iff.2 ⟨by decide, rom, h, defaultRom_admissible h (by decide)⟩

theorem rxReleaseClk_c (r : Receiver) : (rxReleaseClk r).c = some false := by
  unfold rxReleaseClk; split <;> rfl

theorem rxReleaseClk_d (r : Receiver) : (rxReleaseClk r).d = r.d := by
  unfold rxReleaseClk rxRise
  split
  · dsimp only
    split <;> rfl
  · rfl

/-- Where the decoder knew DIO to be low, INIT's set-up is a STOP to it: CLK is released first (R221). -/
theorem setup_ends_frame {sl : Slave} (h : sl.rx.d = some true) : (slaveHearAll setupEvents sl).rx.inframe = false := by
  simp only [setupEvents, slaveHearAll_cons, slaveHearAll_nil, slaveHear_pc, slaveHear_pd, slaveHear_w, slaveHear_ch,
    slaveHear_rx, rxHear, rxReleaseDio, rxReleaseClk_c, rxReleaseClk_d, h, true_and]
  split
  · rfl
  · rename_i hout
    simpa using hout

/-- After a hardware reset the slave's decoder sees DIO as the reset left it (log 21). -/
theorem hardwareReset_rx_d (s : State) : (hardwareReset s).slave.rx.d = some (hardwareReset s).drv.dio := rfl

/-- Settles O1: the registers by evaluation, the ROM by what BUILD makes of admissible parameters, the set-up by what the
slave hears of it. -/
theorem resetLeavesWhatTheSpecFixes : Obligations.ResetLeavesWhatTheSpecFixes := by
  unfold Obligations.ResetLeavesWhatTheSpecFixes
  refine ⟨fun p => ⟨rfl, rfl, rfl, rfl, rfl, resetWith_romBuilt⟩, rfl,
    (resetWith_romBuilt defaultParams_admissible).1, fun s => ⟨rfl, rfl, rfl, rfl, ?_, ?_, fun hlow => ?_⟩⟩
  · rw [initSetup_eq]; rfl
  · rw [initSetup_eq]
  · rw [initSetup_eq]
    exact setup_ends_frame ((hardwareReset_rx_d s).trans (congrArg some hlow))

end Sys2Proof.Machine

/-! SUPPORT. What one operation does to `inited`, `fsm`, the pads and the memories, read off the laws of Laws/Step and
Laws/Ops (R13, R22, R109, R20). -/

namespace Sys2Proof.Machine

open Sys2Proof.Safety

/-- SAMPLE, whoever drives DIO (R83): the level is latched and traced, and the slave takes no notice of it. -/
theorem sampleDio_eq (s : State) : ∃ ds n, sampleDio s = { s with
    draws := ds, fresh := n, ackbit := level s .dio, trace := s.trace ++ [.s (level s .dio)] } := by
  cases h : s.drv.dio
  · exact ⟨drawsAfter s, freshAfter s, by rw [sampleDio_released s h]; simp [level, h]⟩
  · exact ⟨s.draws, s.fresh, by rw [sampleDio_driven s h]; simp [level, h]⟩

/-! ## O38: the events appended account for the pads -/

/-- From `s` to `t` some events were appended; the pads, the pulls, ACKBIT and the slave are what they make of them. -/
def TracedBy (s t : State) : Prop :=
  ∃ es, t.trace = s.trace ++ es ∧ t.drv = es.foldl drvAfter s.drv ∧ t.pull = es.foldl pullAfter s.pull ∧
    t.ackbit = es.foldl ackAfter s.ackbit ∧ t.slave = slaveHearAll es s.slave

namespace TracedBy

variable {s t u : State}

theorem trans (h : TracedBy s t) (h' : TracedBy t u) : TracedBy s u := by
  obtain ⟨es, htrace, hdrv, hpull, hack, hslave⟩ := h
  obtain ⟨fs, htrace', hdrv', hpull', hack', hslave'⟩ := h'
  refine ⟨es ++ fs, ?_, ?_, ?_, ?_, ?_⟩
  · rw [htrace', htrace, List.append_assoc]
  · rw [hdrv', hdrv, List.foldl_append]
  · rw [hpull', hpull, List.foldl_append]
  · rw [hack', hack, List.foldl_append]
  · rw [hslave', hslave, slaveHearAll_append]

theorem of_quiet (h : Quiet s t) : TracedBy s t :=
  ⟨[], by simp [h.trace], h.drv, h.pull, h.ackbit, h.slave⟩

theorem driveLow (l : Line) (s : State) : TracedBy s (driveLow l s) := by
  cases l
  · exact ⟨[.cl], rfl, rfl, rfl, rfl, rfl⟩
  · exact ⟨[.dl], rfl, rfl, rfl, rfl, rfl⟩

theorem release (l : Line) (s : State) : TracedBy s (release l s) := by
  cases l
  · exact ⟨[.ch], rfl, rfl, rfl, rfl, rfl⟩
  · exact ⟨[.dh], rfl, rfl, rfl, rfl, rfl⟩

theorem cfgPull (l : Line) (s : State) : TracedBy s (cfgPull l s) := by
  cases l
  · exact ⟨[.pc], rfl, rfl, rfl, rfl, rfl⟩
  · exact ⟨[.pd], rfl, rfl, rfl, rfl, rfl⟩

theorem sampleDio (s : State) : TracedBy s (sampleDio s) := by
  obtain ⟨ds, n, h⟩ := sampleDio_eq s
  rw [h]
  exact ⟨[.s (level s .dio)], rfl, rfl, rfl, rfl, rfl⟩

theorem across : Across TracedBy where
  refl _ := ⟨[], by simp, rfl, rfl, rfl, rfl⟩
  trans := trans
  quiet := of_quiet
  driveLow := driveLow
  release := release
  waitBit _ := ⟨[.w], rfl, rfl, rfl, rfl, rfl⟩
  cfgPull := cfgPull
  sampleDio := sampleDio

/-- INIT's last step appends nothing. -/
theorem initDone (s : State) : TracedBy s (initDone s) := ⟨[], by simp [Machine.initDone], rfl, rfl, rfl, rfl⟩

end TracedBy

/-- Settles O38: each line primitive is accounted for by its one event, and accounts compose. -/
theorem traceAccountsForThePads : Obligations.TraceAccountsForThePads := by
  unfold Obligations.TraceAccountsForThePads
  intro i s t h
  exact TracedBy.across.exec TracedBy.initDone h

/-! ## O46: the memories stay canonical -/

/-- The ROM is kept, and the slave's display memory stays canonical. -/
def KeepsMemories (s t : State) : Prop :=
  t.rom = s.rom ∧ (Memory.wf s.slave.disp = true → Memory.wf t.slave.disp = true)

theorem keepsMemories_across : Across KeepsMemories where
  refl _ := ⟨rfl, id⟩
  trans := fun ⟨hrom, hwf⟩ ⟨hrom', hwf'⟩ => ⟨hrom'.trans hrom, hwf' ∘ hwf⟩
  quiet h := ⟨h.rom, by rw [h.slave]; exact id⟩
  driveLow l _ := ⟨rfl, slaveHear_wf (lowEvent l) _⟩
  release l _ := ⟨rfl, slaveHear_wf (highEvent l) _⟩
  waitBit _ := ⟨rfl, id⟩
  cfgPull l _ := ⟨rfl, slaveHear_wf (pullEvent l) _⟩
  sampleDio s := by
    obtain ⟨ds, n, h⟩ := sampleDio_eq s
    rw [h]
    exact ⟨rfl, id⟩

/-- Settles O46: no operation writes the ROM, and what the slave hears writes the display memory canonically. -/
theorem stepKeepsMemoriesCanonical : Obligations.StepKeepsMemoriesCanonical := by
  unfold Obligations.StepKeepsMemoriesCanonical
  rintro s t ⟨hrising, hdisp⟩ h
  obtain ⟨hrom, hwf⟩ := keepsMemories_across.step (fun _ => ⟨rfl, id⟩) h
  exact ⟨by rw [hrom]; exact hrising, hwf hdisp⟩

/-! ## O39: `inited` -/

theorem inited_across : Across fun s t => t.inited = s.inited where
  refl _ := rfl
  trans h h' := h'.trans h
  quiet h := h.inited
  driveLow _ _ := rfl
  release _ _ := rfl
  waitBit _ := rfl
  cfgPull _ _ := rfl
  sampleDio s := by
    obtain ⟨ds, n, h⟩ := sampleDio_eq s
    rw [h]

/-- INIT that completes leaves `inited` at 1 if its brightness is legal, and as it was if not (R120, R123). -/
theorem execInit_inited {b : Int} {shown : Bool} {s t : State} (h : execInit b shown s = .next t) :
    t.inited = true ↔ s.inited = true ∨ (0 ≤ b ∧ b ≤ 7) := by
  rw [← brightnessLegal_iff]
  obtain ⟨hb, rfl⟩ | ⟨hb, u, v, w, as, bs, cs, -, -, -, rfl⟩ := execInit_sent h
  · simp [hb]
  · simp [hb, respondOk, initDone]

/-- Settles O39: INIT ends in `initDone` where its check passes; every other operation keeps `inited`. -/
theorem onlyInitSetsInited : Obligations.OnlyInitSetsInited := by
  unfold Obligations.OnlyInitSetsInited
  intro i s t h
  by_cases hi : ∃ b shown, i = .init b shown
  · obtain ⟨b, shown, rfl⟩ := hi
    rw [execInit_inited h]
    simp
  · have hkeep : t.inited = s.inited := inited_across.exec_but_init (fun b shown he => hi ⟨b, shown, he⟩) h
    rw [hkeep, or_iff_left]
    rintro ⟨b, shown, he, -⟩
    exact hi ⟨b, shown, he⟩

/-! ## O22: the moves of `fsm` -/

theorem guarded_eq_next {c : Bool} {e : Fault} {t u : State} :
    (if c then (.next u : Result) else .fault e) = .next t ↔ c = true ∧ u = t := by
  cases c <;> simp

/-- A byte that is sent leaves TransmittingByte, inside a frame before it too (R105). -/
theorem sendByte_fsm {v : Byte} {s t : State} (h : sendByte v s = .next t) :
    t.fsm = .transmittingByte ∧ (s.fsm = .started ∨ s.fsm = .transmittingByte) := by
  obtain ⟨hin, -, rfl⟩ := sendByte_next_inv h
  exact ⟨by rw [byteOps_eq], by simpa [inFrame] using hin⟩

/-- A wire command that is sent was the first byte of its frame (R65). -/
theorem sendFirstByte_fsm {v : Byte} {s t : State} (h : sendFirstByte v s = .next t) :
    s.fsm = .started ∧ t.fsm = .transmittingByte := by
  unfold sendFirstByte at h
  split at h
  · rename_i hs
    exact ⟨hs, (sendByte_fsm h).1⟩
  · cases h

/-- SEG_DATA that is sent was not the first byte of its frame (R65). -/
theorem sendDataByte_fsm {v : Byte} {s t : State} (h : sendDataByte v s = .next t) : t.fsm = s.fsm := by
  unfold sendDataByte at h
  split at h
  · rename_i hs
    simp only [inAddressFrame, Bool.and_eq_true, beq_iff_eq] at hs
    rw [(sendByte_fsm h).1, hs.1]
  · cases h

/-- Settles O22: START, the bytes and STOP move `fsm` as R109 says, and no other internal operation writes it. -/
theorem frameStateTransitionsAreClosed : Obligations.FrameStateTransitionsAreClosed := by
  unfold Obligations.FrameStateTransitionsAreClosed
  intro i s t hi h
  cases i with
  | dataCmd =>
    obtain ⟨hs, ht⟩ := sendFirstByte_fsm h
    exact .inr (.inr (.inl ⟨hs, ht, .inl rfl⟩))
  | addrCmd p =>
    simp only [exec, execAddrCmd] at h
    split at h
    · obtain ⟨hs, ht⟩ := sendFirstByte_fsm h
      exact .inr (.inr (.inl ⟨hs, ht, .inr (.inl ⟨p, rfl⟩)⟩))
    · cases h
  | dispCtrl b n =>
    obtain ⟨hs, ht⟩ := sendFirstByte_fsm h
    exact .inr (.inr (.inl ⟨hs, ht, .inr (.inr (.inl ⟨b, n, rfl⟩))⟩))
  | segData m => exact .inl (sendDataByte_fsm h)
  | driveLow l => cases h; exact .inl rfl
  | release l => cases h; exact .inl rfl
  | sample =>
    cases h
    obtain ⟨ds, n, hs⟩ := sampleDio_eq s
    exact .inl (by rw [hs])
  | wait => cases h; exact .inl rfl
  | cfgPull l => cases h; exact .inl rfl
  | start =>
    obtain ⟨hready, rfl⟩ := guarded_eq_next.1 h
    simp only [startReady, Bool.and_eq_true, beq_iff_eq] at hready
    exact .inr (.inl ⟨rfl, hready.1.1, rfl⟩)
  | writeBit b =>
    obtain ⟨-, rfl⟩ := guarded_eq_next.1 h
    exact .inl (by rw [bitOps_eq]; rfl)
  | ackSlot =>
    obtain ⟨-, rfl⟩ := guarded_eq_next.1 h
    exact .inl (by rw [ackOps_eq])
  | writeByte v =>
    obtain ⟨ht, hs | hs⟩ := sendByte_fsm h
    · exact .inr (.inr (.inl ⟨hs, ht, .inr (.inr (.inr ⟨v, rfl⟩))⟩))
    · exact .inl (ht.trans hs.symm)
  | stop =>
    obtain ⟨hready, rfl⟩ := guarded_eq_next.1 h
    simp only [stopReady, Bool.and_eq_true, beq_iff_eq] at hready
    exact .inr (.inr (.inr ⟨rfl, hready.1, rfl⟩))
  | init b shown => cases hi
  | setSegments ms p => cases hi
  | setBrightness b shown => cases hi
  | lookup c => cases hi
  | print cs => cases hi

/-! ## One operation: STOP and SET_BRIGHTNESS; and the step itself -/

/-- Settles O19: the precondition of STOP, then its operations as one record update; the registers it leaves open are free
values of their range. -/
theorem stopClosesTheFrame : Obligations.StopClosesTheFrame := by
  unfold Obligations.StopClosesTheFrame
  refine ⟨fun s hfsm hclk => ?_, fun s h => ?_⟩
  · have hready : stopReady s = true := by simp [stopReady, hfsm, hclk]
    refine ⟨stopOps s, guarded_eq_next.2 ⟨hready, rfl⟩, ?_, ?_, by rw [stopOps_eq]; rfl⟩
    · have hlt := (Config.freeBitCnt s.fresh).isLt
      rw [stopOps_eq]
      simp only [BitVec.toNat_ofNat]
      omega
    · have hlt := (Config.freeByteIdx s.fresh).isLt
      rw [stopOps_eq]
      simp only [BitVec.toNat_ofNat]
      omega
  · have hready : stopReady s = false := by
      rcases h with h | h <;> simp [stopReady, h]
    simp [exec, execStop, stopFrame, hready]

/-- Settles O32: the checks pass, and the command is its one frame, whose one ACK bit is the last one sampled. -/
theorem setBrightnessSendsOneByte : Obligations.SetBrightnessSendsOneByte := by
  unfold Obligations.SetBrightnessSendsOneByte
  intro b shown s hb hinit h0 h7
  have hlegal : brightnessLegal b = true := (brightnessLegal_iff b).2 ⟨h0, h7⟩
  obtain ⟨u, as, -, hs, hnext, hstate⟩ :=
    oneFrameCommand_next [controlByte b shown] s hb (by simp) (by simp)
  obtain ⟨a, rfl⟩ := List.length_eq_one_iff.1 hs.len
  exact ⟨respondOk u, a, by simp [exec, execSetBrightness, hinit, hlegal, hnext], hstate⟩

/-- Settles O2: the fetch answers the decoded operation where its issuer may issue it. -/
theorem stepRunsDecodedRecord : Obligations.StepRunsDecodedRecord := by
  unfold Obligations.StepRunsDecodedRecord
  intro s r rest i hport hdec hissue
  have hfetch : fetch r = .ok i := by
    simp only [fetch, hdec]
    rw [if_neg]
    rintro ⟨hhost, hnot⟩
    rw [hissue hhost] at hnot
    cases hnot
  simp only [step, hport, hfetch]

end Sys2Proof.Machine

/-! SUPPORT. The command boundary invariant: what a frame keeps of it, then every command of the host; and both invariants
at reset (R110, R220, R222). -/

namespace Sys2Proof.Machine

open Sys2Proof.Safety

/-- Both pulls are configured, and the decoder knows both lines to be released: what INIT's set-up brings about, and every
frame keeps. -/
def SetUp (s : State) : Prop :=
  s.pull = ⟨true, true⟩ ∧ s.slave.rx.c = some false ∧ s.slave.rx.d = some false

theorem setUp_initSetup (s : State) : SetUp (initSetup s) := by
  rw [initSetup_eq]
  exact ⟨rfl, setup_released s.slave⟩

namespace SentFrame

variable {bytes : List Byte} {s t : State} {as : List Bool} (h : SentFrame bytes s t as)
include h

theorem port_eq : t.port = s.port := by rw [h.state]
theorem fsm_eq : t.fsm = .idle := congrArg State.fsm h.state
theorem drv_eq : t.drv = released := congrArg State.drv h.state
theorem pull_eq : t.pull = s.pull := by rw [h.state]
theorem inited_eq : t.inited = s.inited := by rw [h.state]
theorem slave_eq : t.slave = slaveHearAll (frameEvents (bytes.zip as)) s.slave := congrArg State.slave h.state

/-- After a frame from a state that is set up the slave is between frames. -/
theorem listening (h0 : bytes ≠ []) (hs : SetUp s) : Listening t.slave := by
  obtain ⟨-, hc, hd⟩ := hs
  have hzip : bytes.zip as ≠ [] := by
    rw [← List.length_pos_iff, List.length_zip, h.len, Nat.min_self]
    exact List.length_pos_iff.2 h0
  rw [h.slave_eq]
  exact listening_after_frame _ _ hc hd hzip

theorem setUp (h0 : bytes ≠ []) (hs : SetUp s) : SetUp t := by
  obtain ⟨hc, hd, -⟩ := h.listening h0 hs
  exact ⟨h.pull_eq.trans hs.1, hc, hd⟩

end SentFrame

theorem oneFrameCommand_hostInv {bytes : List Byte} {s t : State} (h0 : bytes ≠ []) (hinv : HostInv s)
    (h : oneFrameCommand bytes s = .next t) : HostInv t := by
  obtain ⟨u, as, hu, -, rfl⟩ := oneFrameCommand_sent h
  obtain ⟨hhost, -, -, hready⟩ := hinv
  refine ⟨fun r hr => hhost r (hu.port_eq ▸ hr), hu.fsm_eq, rfl, fun hi => ?_⟩
  obtain ⟨-, hpull, hc, hd, -⟩ := hready (hu.inited_eq ▸ hi)
  exact ⟨hu.drv_eq, hu.pull_eq.trans hpull, hu.listening h0 ⟨hpull, hc, hd⟩⟩

theorem setSegments_hostInv {ms : List Byte} {p : Int} {s t : State} (hinv : HostInv s)
    (h : setSegments ms p s = .next t) : HostInv t := by
  obtain ⟨-, rfl⟩ | ⟨-, h⟩ := setSegments_sent h
  · exact hinv
  · exact oneFrameCommand_hostInv (by simp) hinv h

theorem execSetBrightness_hostInv {b : Int} {shown : Bool} {s t : State} (hinv : HostInv s)
    (h : execSetBrightness b shown s = .next t) : HostInv t := by
  obtain ⟨-, rfl⟩ | ⟨-, h⟩ := execSetBrightness_sent h
  · exact hinv
  · exact oneFrameCommand_hostInv (by simp) hinv h

theorem execPrint_hostInv {cs : List Char} {s t : State} (hinv : HostInv s) (h : execPrint cs s = .next t) :
    HostInv t := by
  have hp : PrintSpec HostInv (fun _ => True) :=
    { setSegments := fun ms p u hu => by
        cases he : setSegments ms p u with
        | next w => exact setSegments_hostInv hu he
        | fault e => trivial
        | refused e => trivial
      adapter := fun _ _ hu => hu
      diag := fun _ _ hu => hu
      returned := fun _ _ hu => hu }
  have hend := hp.print cs s hinv
  rw [h] at hend
  exact hend

/-- INIT sets the lines up itself, so nothing need hold of them before (R121). -/
theorem execInit_hostInv {b : Int} {shown : Bool} {s t : State} (hinv : HostInv s)
    (h : execInit b shown s = .next t) : HostInv t := by
  obtain ⟨-, rfl⟩ | ⟨-, u, v, w, as, bs, cs, hu, hv, hw, rfl⟩ := execInit_sent h
  · exact hinv
  · have hsu : SetUp u := hu.setUp (by simp) (setUp_initSetup _)
    have hsv : SetUp v := hv.setUp (by simp) hsu
    have hport : w.port = s.port := by
      rw [hw.port_eq, hv.port_eq, hu.port_eq, initSetup_eq]; rfl
    exact ⟨fun r hr => hinv.1 r (hport ▸ hr), hw.fsm_eq, rfl,
      fun _ => ⟨hw.drv_eq, hw.pull_eq.trans hsv.1, hw.listening (by simp) hsv⟩⟩

theorem exec_host_hostInv {i : Instr} {s t : State} (hi : hostMayIssue i = true) (hinv : HostInv s)
    (h : exec i s = .next t) : HostInv t := by
  cases i with
  | init b shown => exact execInit_hostInv hinv h
  | setSegments ms p => exact setSegments_hostInv hinv h
  | setBrightness b shown => exact execSetBrightness_hostInv hinv h
  | lookup c => cases h; exact hinv
  | print cs => exact execPrint_hostInv hinv h
  | _ => cases hi

/-- Settles O42: a step of the host waits or carries out one of the host's operations, each of which keeps the invariant. -/
theorem stepKeepsHostInvariant : Obligations.StepKeepsHostInvariant := by
  unfold Obligations.StepKeepsHostInvariant
  intro s t hinv h
  obtain ⟨-, rfl⟩ | ⟨r, rest, i, hport, -, hissue, hexec⟩ := step_next_cases h
  · exact hinv
  · have hi : hostMayIssue i = true := hissue (hinv.1 r (by simp [hport]))
    have htaken : HostInv { s with port := rest } :=
      ⟨fun q hq => hinv.1 q (by simp [hport, hq]), hinv.2⟩
    exact exec_host_hostInv hi htaken hexec

/-! ## O43: at reset -/

theorem hardwareReset_hostInv {s : State} (h : HostInv s) : HostInv (hardwareReset s) :=
  ⟨h.1, rfl, rfl, fun hi => by cases hi⟩

theorem resetWith_rising (p : Params) : Memory.rising (State.resetWith p).rom = true := by
  cases hb : build p.segdef p.romDefs with
  | none => simp [State.resetWith, hb, Memory.rising, Memory.risingFrom]
  | some rom => simpa [State.resetWith, hb] using buildFrom_rising hb rfl

/-- The free values a hardware reset leaves in the display registers are written one by one. -/
theorem slaveUnknown_wf (time : Nat) (clk dio : Bool) (sl : Slave) :
    Memory.wf (slaveUnknown time clk dio sl).disp = true := by
  have hfold : ∀ (ps : List Nat) (m : Memory), (∀ p ∈ ps, p < Config.npos) → Memory.wf m = true →
      Memory.wf (ps.foldl (fun m p => Memory.write p (Config.freeDisp time p) m) m) = true := by
    intro ps
    induction ps with
    | nil => exact fun _ _ hm => hm
    | cons p ps ih =>
      exact fun m hps hm => ih _ (fun q hq => hps q (List.mem_cons_of_mem p hq))
        (Memory.wf_write m p _ (hps p List.mem_cons_self) hm)
  exact hfold [0, 1, 2, 3, 4, 5] [] (by decide) rfl

/-- Settles O43: at State.reset the port is empty and BUILD made the ROM; a hardware reset clears `inited` and leaves the
ROM as it was. -/
theorem resetMeetsTheInvariants : Obligations.ResetMeetsTheInvariants := by
  unfold Obligations.ResetMeetsTheInvariants
  refine ⟨⟨⟨?_, rfl, rfl, fun hi => by cases hi⟩, fun _ => hardwareReset_hostInv⟩,
    ⟨resetWith_rising _, rfl⟩, fun s h => ⟨h.1, slaveUnknown_wf _ _ _ _⟩⟩
  intro r hr
  cases hr

end Sys2Proof.Machine

/-! SUPPORT. Two executions from states that differ in the slave alone: every shared operation, every part of PRINT and so
every operation ends alike in both, unless the reference slave answers the ACK slots (R23, R54). -/

namespace Sys2Proof.Machine

/-- The state with another slave. -/
def withSlave (sl : Slave) (s : State) : State := { s with slave := sl }

/-- The two states differ in the slave alone, and the reference slave answers no sample. -/
def AlikeButSlave (s t : State) : Prop := s.ackSource ≠ .referenceSlave ∧ ∃ sl, t = withSlave sl s

/-- Two results that are next states alike but for the slave, or the same stop. -/
inductive EndAlike : Result → Result → Prop where
  | next {s t : State} (h : AlikeButSlave s t) : EndAlike (.next s) (.next t)
  | fault (e : Fault) : EndAlike (.fault e) (.fault e)
  | refused (e : Refusal) : EndAlike (.refused e) (.refused e)

/-- The same for a part of PRINT, whose variables are the same in both. -/
inductive StepsAlike : PrintStep → PrintStep → Prop where
  | ok (v : PrintVars) {s t : State} (h : AlikeButSlave s t) : StepsAlike (.ok (v, s)) (.ok (v, t))
  | error {r r' : Result} (h : EndAlike r r') : StepsAlike (.error r) (.error r')

/-! ## What a sample reads -/

/-- A draw reads the slave for the reference slave's answer only. -/
theorem nextDraw_slave {s : State} (h : s.ackSource ≠ .referenceSlave) (sl : Slave) :
    nextDraw (withSlave sl s) = nextDraw s := by
  cases hsrc : s.ackSource
  · simp [nextDraw, withSlave, hsrc]
  · exact absurd hsrc h
  · simp [nextDraw, withSlave, hsrc]

theorem level_slave {s : State} (h : s.ackSource ≠ .referenceSlave) (sl : Slave) (l : Line) :
    level (withSlave sl s) l = level s l := by
  cases l
  · rfl
  · simp only [level, nextDraw_slave h]; rfl

theorem slotDraw_slave {s : State} (h : s.ackSource ≠ .referenceSlave) (sl : Slave) :
    slotDraw (withSlave sl s) = slotDraw s :=
  (nextDraw_slave h _).trans (nextDraw_slave h _).symm

theorem byteDraw_slave {s : State} (h : s.ackSource ≠ .referenceSlave) (v : Byte) (sl : Slave) :
    byteDraw v (withSlave sl s) = byteDraw v s :=
  (slotDraw_slave h _).trans (slotDraw_slave h _).symm

/-! ## The operations that make up the meanings -/

namespace AlikeButSlave

variable {s t : State} (h : AlikeButSlave s t)
include h

theorem driveLow (l : Line) : AlikeButSlave (driveLow l s) (driveLow l t) := by
  obtain ⟨hs, sl, rfl⟩ := h; exact ⟨hs, _, rfl⟩

theorem release (l : Line) : AlikeButSlave (release l s) (release l t) := by
  obtain ⟨hs, sl, rfl⟩ := h; exact ⟨hs, _, rfl⟩

theorem waitBit : AlikeButSlave (waitBit s) (waitBit t) := by
  obtain ⟨hs, sl, rfl⟩ := h; exact ⟨hs, _, rfl⟩

theorem cfgPull (l : Line) : AlikeButSlave (cfgPull l s) (cfgPull l t) := by
  obtain ⟨hs, sl, rfl⟩ := h; exact ⟨hs, _, rfl⟩

theorem startOps : AlikeButSlave (startOps s) (startOps t) := by
  obtain ⟨hs, sl, rfl⟩ := h; exact ⟨hs, _, rfl⟩

theorem stopOps : AlikeButSlave (stopOps s) (stopOps t) := by
  obtain ⟨hs, sl, rfl⟩ := h; rw [stopOps_eq, stopOps_eq]; exact ⟨hs, _, rfl⟩

theorem bitOps (b : Bool) : AlikeButSlave (countBit (bitOps b s)) (countBit (bitOps b t)) := by
  obtain ⟨hs, sl, rfl⟩ := h; rw [bitOps_eq, bitOps_eq]; exact ⟨hs, _, rfl⟩

theorem initSetup : AlikeButSlave (initSetup s) (initSetup t) := by
  obtain ⟨hs, sl, rfl⟩ := h; rw [initSetup_eq, initSetup_eq]; exact ⟨hs, _, rfl⟩

theorem sampleDio : AlikeButSlave (sampleDio s) (sampleDio t) := by
  obtain ⟨hs, sl, rfl⟩ := h
  cases hd : s.drv.dio
  · rw [sampleDio_released s hd, sampleDio_released _ (by exact hd), nextDraw_slave hs]
    exact ⟨hs, _, rfl⟩
  · rw [sampleDio_driven s hd, sampleDio_driven _ (by exact hd)]
    exact ⟨hs, _, rfl⟩

theorem ackOps : AlikeButSlave (ackOps s) (ackOps t) := by
  obtain ⟨hs, sl, rfl⟩ := h
  rw [ackOps_eq, ackOps_eq, slotDraw_slave hs]
  exact ⟨hs, _, rfl⟩

theorem byteOps (v : Byte) : AlikeButSlave (byteOps v s) (byteOps v t) := by
  obtain ⟨hs, sl, rfl⟩ := h
  rw [byteOps_eq, byteOps_eq, byteDraw_slave hs]
  exact ⟨hs, _, rfl⟩

theorem beginCommand : AlikeButSlave (beginCommand s) (beginCommand t) := by
  obtain ⟨hs, sl, rfl⟩ := h; exact ⟨hs, _, rfl⟩

theorem respondOk : AlikeButSlave (respondOk s) (respondOk t) := by
  obtain ⟨hs, sl, rfl⟩ := h; exact ⟨hs, _, rfl⟩

theorem initDone : AlikeButSlave (initDone s) (initDone t) := by
  obtain ⟨hs, sl, rfl⟩ := h; exact ⟨hs, _, rfl⟩

theorem setCol (n : Nat) : AlikeButSlave (setCol n s) (setCol n t) := by
  obtain ⟨hs, sl, rfl⟩ := h; exact ⟨hs, _, rfl⟩

theorem setClearPending (b : Bool) : AlikeButSlave (setClearPending b s) (setClearPending b t) := by
  obtain ⟨hs, sl, rfl⟩ := h; exact ⟨hs, _, rfl⟩

theorem diag (d : Diag) : AlikeButSlave (diag d s) (diag d t) := by
  obtain ⟨hs, sl, rfl⟩ := h; exact ⟨hs, _, rfl⟩

theorem printReturn (v : PrintVars) : AlikeButSlave (printReturn v s) (printReturn v t) := by
  obtain ⟨hs, sl, rfl⟩ := h; exact ⟨hs, _, rfl⟩

theorem lookup (c : Char) : EndAlike (execLookup c s) (execLookup c t) := by
  obtain ⟨hs, sl, rfl⟩ := h; exact .next ⟨hs, _, rfl⟩

theorem raiseError (e : Status) : EndAlike (raiseError e s) (raiseError e t) := by
  obtain ⟨hs, sl, rfl⟩ := h; exact .next ⟨hs, _, rfl⟩

end AlikeButSlave

/-! ## Sequences and guards -/

theorem EndAlike.andThen {r r' : Result} {f g : State → Result} (h : EndAlike r r')
    (hf : ∀ s t, AlikeButSlave s t → EndAlike (f s) (g t)) : EndAlike (andThen r f) (andThen r' g) := by
  cases h with
  | next hst => exact hf _ _ hst
  | fault e => exact .fault e
  | refused e => exact .refused e

/-- Both executions take the same branch of a choice that does not read the slave. -/
theorem EndAlike.ite {c : Prop} [Decidable c] {r r' q q' : Result} (hr : EndAlike r r') (hq : EndAlike q q') :
    EndAlike (if c then r else q) (if c then r' else q') := by
  split
  · exact hr
  · exact hq

theorem EndAlike.printCommand {r r' : Result} (h : EndAlike r r') (v : PrintVars) :
    StepsAlike (printCommand r v) (printCommand r' v) := by
  cases h with
  | next hst => exact .ok v hst
  | fault e => exact .error (.fault e)
  | refused e => exact .error (.refused e)

namespace AlikeButSlave

variable {s t : State}

theorem sendByte (h : AlikeButSlave s t) (v : Byte) : EndAlike (sendByte v s) (sendByte v t) := by
  have hops := h.byteOps v
  obtain ⟨-, sl, rfl⟩ := h
  exact .ite (.ite (.next hops) (.fault _)) (.fault _)

theorem startFrame (h : AlikeButSlave s t) : EndAlike (startFrame s) (startFrame t) := by
  have hops := h.startOps
  obtain ⟨-, sl, rfl⟩ := h
  exact .ite (.next hops) (.fault _)

theorem stopFrame (h : AlikeButSlave s t) : EndAlike (stopFrame s) (stopFrame t) := by
  have hops := h.stopOps
  obtain ⟨-, sl, rfl⟩ := h
  exact .ite (.next hops) (.fault _)

theorem sendBit (h : AlikeButSlave s t) (b : Bool) : EndAlike (sendBit b s) (sendBit b t) := by
  have hops := h.bitOps b
  obtain ⟨-, sl, rfl⟩ := h
  exact .ite (.next hops) (.fault _)

theorem ackSlot (h : AlikeButSlave s t) : EndAlike (ackSlot s) (ackSlot t) := by
  have hops := h.ackOps
  obtain ⟨-, sl, rfl⟩ := h
  exact .ite (.next hops) (.fault _)

theorem sendFirstByte (h : AlikeButSlave s t) (v : Byte) : EndAlike (sendFirstByte v s) (sendFirstByte v t) := by
  have hsend := h.sendByte v
  obtain ⟨-, sl, rfl⟩ := h
  exact .ite hsend (.fault _)

theorem sendDataByte (h : AlikeButSlave s t) (v : Byte) : EndAlike (sendDataByte v s) (sendDataByte v t) := by
  have hsend := h.sendByte v
  obtain ⟨-, sl, rfl⟩ := h
  exact .ite hsend (.fault _)

theorem sendBytes (h : AlikeButSlave s t) (vs : List Byte) : EndAlike (sendBytes vs s) (sendBytes vs t) := by
  induction vs generalizing s t with
  | nil => exact .next h
  | cons v vs ih => exact (h.sendByte v).andThen fun _ _ => ih

theorem frame (h : AlikeButSlave s t) (vs : List Byte) : EndAlike (frame vs s) (frame vs t) :=
  h.startFrame.andThen fun _ _ h => (h.sendBytes vs).andThen fun _ _ => stopFrame

/-! ## The host commands -/

theorem oneFrameCommand (h : AlikeButSlave s t) (vs : List Byte) :
    EndAlike (oneFrameCommand vs s) (oneFrameCommand vs t) :=
  (h.beginCommand.frame vs).andThen fun _ _ h => .next h.respondOk

theorem setSegments (h : AlikeButSlave s t) (ms : List Byte) (p : Int) :
    EndAlike (setSegments ms p s) (setSegments ms p t) := by
  have herror := h.raiseError .rangeError
  have hframe := h.oneFrameCommand (addressByte p :: ms)
  obtain ⟨-, sl, rfl⟩ := h
  exact .ite (.refused _) (.ite herror (.ite (.refused _) hframe))

theorem setBrightness (h : AlikeButSlave s t) (b : Int) (shown : Bool) :
    EndAlike (execSetBrightness b shown s) (execSetBrightness b shown t) := by
  have herror := h.raiseError .configurationError
  have hframe := h.oneFrameCommand [controlByte b shown]
  obtain ⟨-, sl, rfl⟩ := h
  exact .ite (.refused _) (.ite herror hframe)

theorem init (h : AlikeButSlave s t) (b : Int) (shown : Bool) :
    EndAlike (execInit b shown s) (execInit b shown t) :=
  .ite (h.raiseError _)
    ((h.beginCommand.initSetup.frame _).andThen fun _ _ h => (h.frame _).andThen fun _ _ h =>
      (h.frame _).andThen fun _ _ h => .next h.initDone.respondOk)

/-! ## PRINT, part by part -/

theorem printFlush (h : AlikeButSlave s t) (v : PrintVars) : StepsAlike (printFlush v s) (printFlush v t) := by
  unfold Machine.printFlush
  split
  · exact .ok v h
  · exact (h.setSegments _ _).printCommand _

theorem printClear (h : AlikeButSlave s t) (v : PrintVars) : StepsAlike (printClear v s) (printClear v t) := by
  have hflush := h.printFlush v
  have hpend : t.adapter = s.adapter := by obtain ⟨-, sl, rfl⟩ := h; rfl
  unfold Machine.printClear
  rw [hpend]
  split
  · generalize Machine.printFlush v s = p, Machine.printFlush v t = q at hflush
    cases hflush with
    | error he => exact .error he
    | @ok v s' t' hflushed =>
      have hclear := (hflushed.setSegments clearMasks 0).printCommand v
      simp only [clearDisplay]
      generalize printCommand (Machine.setSegments clearMasks 0 s') v = p,
        printCommand (Machine.setSegments clearMasks 0 t') v = q at hclear
      cases hclear with
      | error he => exact .error he
      | ok v hcleared => exact .ok v ((hcleared.setClearPending false).setCol 0)
  · exact .ok v h

theorem printPlace (h : AlikeButSlave s t) (m : Byte) (v : PrintVars) :
    StepsAlike (.ok (printPlace m v s)) (.ok (printPlace m v t)) := by
  obtain ⟨hs, sl, rfl⟩ := h
  unfold Machine.printPlace
  rw [show (withSlave sl s).adapter = s.adapter from rfl]
  split
  · exact .ok _ ⟨hs, sl, rfl⟩
  · exact .ok _ (setCol ⟨hs, sl, rfl⟩ _)

theorem printChar (h : AlikeButSlave s t) (c : Char) (v : PrintVars) :
    StepsAlike (printChar c v s) (printChar c v t) := by
  have hflush := h.printFlush v
  have hclear := h.printClear v
  have hrom : t.rom = s.rom := by obtain ⟨-, sl, rfl⟩ := h; rfl
  unfold Machine.printChar
  rw [hrom]
  split
  · exact .ok v (h.setClearPending true)
  · split
    · generalize Machine.printFlush v s = p, Machine.printFlush v t = q at hflush
      cases hflush with
      | error he => exact .error he
      | ok v hflushed => exact .ok v (hflushed.setCol 0)
    · cases romFind s.rom c with
      | none => exact .ok _ (h.diag (.lookupMiss c))
      | some m =>
        generalize Machine.printClear v s = p, Machine.printClear v t = q at hclear
        cases hclear with
        | error he => exact .error he
        | ok v hcleared => exact hcleared.printPlace m v

theorem printChars (h : AlikeButSlave s t) (cs : List Char) (v : PrintVars) :
    StepsAlike (printChars cs v s) (printChars cs v t) := by
  induction cs generalizing v s t with
  | nil => exact .ok v h
  | cons c cs ih =>
    have hchar := h.printChar c v
    unfold Machine.printChars
    generalize Machine.printChar c v s = p, Machine.printChar c v t = q at hchar
    cases hchar with
    | error he => exact .error he
    | ok v hnext => exact ih hnext v

theorem print (h : AlikeButSlave s t) (cs : List Char) : EndAlike (execPrint cs s) (execPrint cs t) := by
  have hchars := h.printChars cs ⟨0, 0, [], 0⟩
  unfold execPrint
  generalize Machine.printChars cs _ s = p, Machine.printChars cs _ t = q at hchars
  cases hchars with
  | error he => exact he
  | @ok v s' t' hread =>
    have hflush := hread.printFlush v
    simp only
    generalize Machine.printFlush v s' = p, Machine.printFlush v t' = q at hflush
    cases hflush with
    | error he => exact he
    | ok v hflushed => exact .next (hflushed.printReturn v)

/-! ## Every operation -/

theorem exec (h : AlikeButSlave s t) (i : Instr) : EndAlike (exec i s) (exec i t) := by
  cases i with
  | dataCmd => exact h.sendFirstByte _
  | addrCmd p => exact .ite (h.sendFirstByte _) (.fault _)
  | dispCtrl b n => exact h.sendFirstByte _
  | segData m => exact h.sendDataByte m
  | driveLow l => exact .next (h.driveLow l)
  | release l => exact .next (h.release l)
  | sample => exact .next h.sampleDio
  | wait => exact .next h.waitBit
  | cfgPull l => exact .next (h.cfgPull l)
  | start => exact h.startFrame
  | writeBit b => exact h.sendBit b
  | ackSlot => exact h.ackSlot
  | writeByte v => exact h.sendByte v
  | stop => exact h.stopFrame
  | init b shown => exact h.init b shown
  | setSegments ms p => exact h.setSegments ms p
  | setBrightness b shown => exact h.setBrightness b shown
  | lookup c => exact h.lookup c
  | print cs => exact h.print cs

end AlikeButSlave

/-- Settles O47: the sample of an ACK slot is the one place that can read the slave, and does so for the reference slave's
answer alone. -/
theorem blockNeverReadsTheSlave : Obligations.BlockNeverReadsTheSlave := by
  unfold Obligations.BlockNeverReadsTheSlave
  intro i s sl hsrc
  have hst : AlikeButSlave s { s with slave := sl } := ⟨hsrc, sl, rfl⟩
  have hends := hst.exec i
  generalize exec i s = r, exec i { s with slave := sl } = r' at hends
  cases hends with
  | next h => obtain ⟨-, sl', rfl⟩ := h; rfl
  | fault e => rfl
  | refused e => rfl

end Sys2Proof.Machine

/-! SUPPORT. The slave's display under the host commands: what a completed frame is to it, the data bytes of an address
frame one after another, and its ACK answer to every byte (R43, R53 to R55, R126, R131). -/

namespace Sys2Proof.Machine

open Sys2Proof.Safety

/-! ## O18: the bit order -/

/-- Bit group `i` of a byte stands at its events 6i to 6i + 5 (R105). -/
theorem byteEvents_group (v : Byte) (a : Bool) {i : Nat} (hi : i < 8) :
    ((byteEvents v a).drop (6 * i)).take 6 = bitEvents (v.getLsbD i) := by
  interval_cases i <;> rfl

/-- Settles O18: WRITE_BYTE appends its eight bit groups in order, then the slot's events. -/
theorem bitsAreSentLeastSignificantFirst : Obligations.BitsAreSentLeastSignificantFirst := by
  unfold Obligations.BitsAreSentLeastSignificantFirst
  intro v s t h
  obtain ⟨-, -, rfl⟩ := sendByte_next_inv h
  obtain ⟨-, -, -, -, hlen⟩ := byteEvents_counts v (byteDraw v s)
  exact ⟨byteEvents v (byteDraw v s), by rw [byteOps_eq], hlen, fun i hi => byteEvents_group v _ hi⟩

/-! ## The frames the commands send, as the slave takes them (R53) -/

/-- A completed frame, heard with both lines released, is one frame to the slave. -/
theorem SentFrame.slave_takes {bytes : List Byte} {s t : State} {as : List Bool} (h : SentFrame bytes s t as)
    (h0 : bytes ≠ []) (hc : s.slave.rx.c = some false) (hd : s.slave.rx.d = some false) :
    t.slave = slaveFrame { s.slave with rx := t.slave.rx, pulling := false } bytes := by
  have hfst : (bytes.zip as).map Prod.fst = bytes := List.map_fst_zip h.len.ge
  have hzip : bytes.zip as ≠ [] := fun hz => h0 (by rw [← hfst, hz]; rfl)
  have hframe := slave_hears_frame (bytes.zip as) s.slave hc hd hzip
  rw [hfst] at hframe
  rw [h.slave_eq, hframe, slaveFrame_rx]

theorem oneFrameCommand_slave {bytes : List Byte} {s t : State} (h0 : bytes ≠ []) (hl : Listening s.slave)
    (h : oneFrameCommand bytes s = .next t) :
    t.slave = slaveFrame { s.slave with rx := t.slave.rx, pulling := false } bytes := by
  obtain ⟨u, as, hu, -, rfl⟩ := oneFrameCommand_sent h
  obtain ⟨hc, hd, -⟩ := hl
  exact hu.slave_takes h0 hc hd

theorem slaveFrame_dataCmd (sl : Slave) : slaveFrame sl [0x40] = { sl with autoinc := true } := rfl

theorem slaveFrame_addressByte (sl : Slave) {p : Nat} (hp : p ≤ 5) (ms : List Byte) :
    slaveFrame sl (addressByte p :: ms) = ms.foldl slaveData { sl with ptr := BitVec.ofNat 3 p } := by
  interval_cases p <;> rfl

theorem slaveFrame_controlByte (sl : Slave) {b : Int} (h0 : 0 ≤ b) (h7 : b ≤ 7) (shown : Bool) :
    slaveFrame sl [controlByte b shown] = { sl with bright := BitVec.ofInt 3 b, on := shown } := by
  interval_cases b <;> cases shown <;> rfl

/-- A legal brightness fits the slave's three bits. -/
theorem bright_toNat {b : Int} (h0 : 0 ≤ b) (h7 : b ≤ 7) : ((BitVec.ofInt 3 b).toNat : Int) = b := by
  rw [BitVec.toNat_ofInt]
  omega

/-- A completed SET_SEGMENTS at a legal position is one address frame to the slave. -/
theorem setSegments_slave {ms : List Byte} {p : Nat} {s t : State} (hp : p ≤ 5) (hl : Listening s.slave)
    (h : setSegments ms p s = .next t) :
    t.slave = slaveFrame { s.slave with rx := t.slave.rx, pulling := false } (addressByte p :: ms) := by
  have hlegal : positionLegal p = true := (positionLegal_iff p).2 (by omega)
  obtain ⟨hillegal, -⟩ | ⟨-, h⟩ := setSegments_sent h
  · simp [hlegal] at hillegal
  · exact oneFrameCommand_slave (by simp) hl h

/-! ## Data bytes in a row -/

/-- A legal position is the value of the slave's pointer set to it. -/
theorem startPointer_toNat {p : Nat} (hp : p ≤ 5) : (BitVec.ofNat 3 p).toNat = p := by
  rw [BitVec.toNat_ofNat]
  omega

/-- From `sl` to `sl'` the bytes `ms` were written to the display registers from position `p` on: no other register has
changed, nor the brightness, the on bit, the addressing mode or the clobbered flag. -/
structure WroteFrom (p : Nat) (ms : List Byte) (sl sl' : Slave) : Prop where
  inside    : ∀ i m, ms[i]? = some m → Memory.read sl'.disp (p + i) = m
  outside   : ∀ a, a < p ∨ p + ms.length ≤ a → Memory.read sl'.disp a = Memory.read sl.disp a
  autoinc   : sl'.autoinc = sl.autoinc
  bright    : sl'.bright = sl.bright
  on        : sl'.on = sl.on
  clobbered : sl'.clobbered = sl.clobbered

/-- Data bytes that stay within the six positions are written from the pointer on. -/
theorem slaveData_fold_wrote (ms : List Byte) (sl : Slave) (hwf : Memory.wf sl.disp = true)
    (h : sl.ptr.toNat + ms.length ≤ 6) : WroteFrom sl.ptr.toNat ms sl (ms.foldl slaveData sl) := by
  induction ms generalizing sl with
  | nil => exact ⟨nofun, fun _ _ => rfl, rfl, rfl, rfl, rfl⟩
  | cons m ms ih =>
    rw [List.length_cons] at h
    obtain ⟨hstep, hsucc⟩ := slaveData_within sl m (by omega)
    have hptr : (slaveData sl m).ptr.toNat = sl.ptr.toNat + 1 := by rw [hstep]; exact hsucc
    have hread : ∀ a, Memory.read (slaveData sl m).disp a = if a = sl.ptr.toNat then m else Memory.read sl.disp a := by
      intro a; rw [hstep]; exact Memory.read_write _ _ _ _ hwf
    have hrest := ih (slaveData sl m) (slaveData_wf sl m hwf) (by omega)
    rw [hptr] at hrest
    refine ⟨fun i m' hm => ?_, fun a ha => ?_, hrest.autoinc.trans (by rw [hstep]), hrest.bright.trans (by rw [hstep]),
      hrest.on.trans (by rw [hstep]), hrest.clobbered.trans (by rw [hstep])⟩
    · cases i with
      | zero => cases hm; exact (hrest.outside _ (.inl (by omega))).trans ((hread _).trans (if_pos rfl))
      | succ i => rw [Nat.add_comm i 1, ← Nat.add_assoc]; exact hrest.inside i m' hm
    · rw [List.length_cons] at ha
      exact (hrest.outside a (by omega)).trans ((hread a).trans (if_neg (by omega)))

/-- An address frame whose data bytes stay within the six positions. -/
theorem wroteFrom_of_frame {p : Nat} {ms : List Byte} {sl sl' : Slave} {rx : Receiver} {pulling : Bool}
    (h : sl' = slaveFrame { sl with rx := rx, pulling := pulling } (addressByte p :: ms))
    (hwf : Memory.wf sl.disp = true) (hp : p ≤ 5) (hend : p + ms.length ≤ 6) : WroteFrom p ms sl sl' := by
  have hptr := startPointer_toNat hp
  have hw := slaveData_fold_wrote ms { sl with rx := rx, pulling := pulling, ptr := BitVec.ofNat 3 p } hwf
    (by rw [hptr]; exact hend)
  rw [hptr] at hw
  rw [h, slaveFrame_addressByte _ hp]
  exact ⟨hw.inside, hw.outside, hw.autoinc, hw.bright, hw.on, hw.clobbered⟩

/-- Data bytes that run past position 5 leave the slave clobbered. -/
theorem slaveData_fold_overrun (ms : List Byte) (sl : Slave) (hptr : sl.ptr.toNat ≤ 6)
    (h : 6 < sl.ptr.toNat + ms.length) : (ms.foldl slaveData sl).clobbered = true := by
  induction ms generalizing sl with
  | nil => simp only [List.length_nil] at h; omega
  | cons m ms ih =>
    rw [List.length_cons] at h
    by_cases h5 : sl.ptr.toNat ≤ 5
    · obtain ⟨hstep, hsucc⟩ := slaveData_within sl m h5
      have hptr' : (slaveData sl m).ptr.toNat = sl.ptr.toNat + 1 := by rw [hstep]; exact hsucc
      exact ih _ (by omega) (by omega)
    · exact slaveData_clobbered ms _ (slaveData_beyond sl m (by omega))

/-! ## O48, O49, O50: the display after one command -/

/-- Settles O48: SET_SEGMENTS is one address frame whose bytes stay within the six positions, and no operation writes the
ROM. -/
theorem setSegmentsWritesItsPositions : Obligations.SetSegmentsWritesItsPositions := by
  unfold Obligations.SetSegmentsWritesItsPositions
  intro ms p s t _ hl hclob hwf hp hend h
  have hrom : t.rom = s.rom := (keepsMemories_across.setSegments h).1
  have hw := wroteFrom_of_frame (setSegments_slave hp hl h) hwf hp hend
  exact ⟨hw.inside, hw.outside, hw.clobbered.trans hclob, hw.bright, hw.on, hw.autoinc, fun c => by rw [hrom]⟩

/-- Settles O49: one of the data bytes comes past position 5. -/
theorem wrapHazardClobbersTheDisplay : Obligations.WrapHazardClobbersTheDisplay := by
  unfold Obligations.WrapHazardClobbersTheDisplay
  intro ms p s t _ hl hp hover h
  have hptr := startPointer_toNat hp
  rw [setSegments_slave hp hl h, slaveFrame_addressByte _ hp]
  exact slaveData_fold_overrun ms _ (by dsimp only; omega) (by dsimp only; omega)

/-- Settles O50: a display control frame is two registers of the slave. -/
theorem setBrightnessKeepsTheDisplay : Obligations.SetBrightnessKeepsTheDisplay := by
  unfold Obligations.SetBrightnessKeepsTheDisplay
  intro b shown s t _ hl _ h0 h7 h
  have hlegal : brightnessLegal b = true := (brightnessLegal_iff b).2 ⟨h0, h7⟩
  obtain ⟨hillegal, -⟩ | ⟨-, h⟩ := execSetBrightness_sent h
  · simp [hlegal] at hillegal
  · have hslave := (oneFrameCommand_slave (by simp) hl h).trans (slaveFrame_controlByte _ h0 h7 shown)
    rw [hslave]
    exact ⟨bright_toNat h0 h7, rfl, rfl, fun a => rfl⟩

/-! ## O51: the display after INIT -/

theorem rxReleaseClk_inframe (r : Receiver) : (rxReleaseClk r).inframe = r.inframe := by
  unfold rxReleaseClk rxRise
  split
  · dsimp only
    split <;> rfl
  · rfl

/-- A rise of DIO that ends no frame: none is in progress, or the decoder does not know DIO to be low. -/
theorem slaveHear_dh_no_stop (sl : Slave) (h : sl.rx.inframe = false ∨ sl.rx.d ≠ some true) :
    slaveHear .dh sl = { sl with rx := { sl.rx with d := some false } } := by
  have hstop : ¬(sl.rx.c = some false ∧ sl.rx.d = some true ∧ sl.rx.inframe = true) := by
    rintro ⟨-, hd, hf⟩
    rcases h with h | h
    · rw [h] at hf; cases hf
    · exact h hd
  simp only [slaveHear, rxHear, rxReleaseDio, if_neg hstop, slavePull]

/-- INIT's set-up that ends no frame leaves the clobbered flag as it was (R221). -/
theorem setup_keeps_clobbered {sl : Slave} (h : sl.rx.inframe = false ∨ sl.rx.d ≠ some true) :
    (slaveHearAll setupEvents sl).clobbered = sl.clobbered := by
  have hno : (slaveHear .ch sl).rx.inframe = false ∨ (slaveHear .ch sl).rx.d ≠ some true := by
    rw [slaveHear_ch, rxReleaseClk_inframe, rxReleaseClk_d]
    exact h
  simp only [setupEvents, slaveHearAll_cons, slaveHearAll_nil, slaveHear_pc, slaveHear_pd, slaveHear_w,
    slaveHear_dh_no_stop _ hno]
  rw [slaveHear_ch]

/-- Six zero masks from position 0 on leave every register 0x00. -/
theorem read_clearMasks {sl sl' : Slave} (hwf : Memory.wf sl.disp = true) (h : WroteFrom 0 clearMasks sl sl') (a : Nat) :
    Memory.read sl'.disp a = 0x00 := by
  by_cases ha : a < 6
  · have hm : clearMasks[a]? = some 0x00 := by interval_cases a <;> rfl
    have hread := h.inside a 0x00 hm
    rwa [Nat.zero_add] at hread
  · have hlen : (0 : Nat) + clearMasks.length = 6 := rfl
    exact (h.outside a (.inr (by omega))).trans (Memory.read_beyond _ a hwf (by simp only [Config.npos]; omega))

/-- INIT's three frames to a slave that hears both lines released: the data command, the clear, the display control. -/
theorem initFrames_slave {b : Int} {shown : Bool} {s u v w : State} {as bs cs : List Bool} (hs : SetUp s)
    (hwf : Memory.wf s.slave.disp = true) (h0 : 0 ≤ b) (h7 : b ≤ 7) (hu : SentFrame [0x40] s u as)
    (hv : SentFrame (0xC0 :: clearMasks) u v bs) (hw : SentFrame [controlByte b shown] v w cs) :
    w.slave.autoinc = true ∧ (∀ a, Memory.read w.slave.disp a = 0x00) ∧ (w.slave.bright.toNat : Int) = b ∧
      w.slave.on = shown ∧ w.slave.clobbered = s.slave.clobbered := by
  have hsu : SetUp u := hu.setUp (by simp) hs
  have hsv : SetUp v := hv.setUp (by simp) hsu
  obtain ⟨-, hc, hd⟩ := hs
  obtain ⟨-, hcu, hdu⟩ := hsu
  obtain ⟨-, hcv, hdv⟩ := hsv
  have hdata := (hu.slave_takes (by simp) hc hd).trans (slaveFrame_dataCmd _)
  have hctrl := (hw.slave_takes (by simp) hcv hdv).trans (slaveFrame_controlByte _ h0 h7 shown)
  have hwfu : Memory.wf u.slave.disp = true := by rw [hdata]; exact hwf
  have hclear : WroteFrom 0 clearMasks u.slave v.slave :=
    wroteFrom_of_frame (p := 0) (hv.slave_takes (by simp) hcu hdu) hwfu (by omega) (by decide)
  have hread := read_clearMasks hwfu hclear
  have hauto : u.slave.autoinc = true := by rw [hdata]
  have hclob : u.slave.clobbered = s.slave.clobbered := by rw [hdata]
  rw [hctrl]
  exact ⟨hclear.autoinc.trans hauto, hread, bright_toNat h0 h7, rfl, hclear.clobbered.trans hclob⟩

/-- Settles O51: INIT's three frames to the slave, after a set-up that may end a frame and does no more. -/
theorem initClearsTheDisplay : Obligations.InitClearsTheDisplay := by
  unfold Obligations.InitClearsTheDisplay
  refine ⟨fun b shown s t hclob hwf h0 h7 h => ?_, fun s hno hclob => ?_⟩
  · have hlegal : brightnessLegal b = true := (brightnessLegal_iff b).2 ⟨h0, h7⟩
    obtain ⟨hillegal, -⟩ | ⟨-, u, v, w, as, bs, cs, hu, hv, hw, rfl⟩ := execInit_sent h
    · simp [hlegal] at hillegal
    · have hslave : (initSetup (beginCommand s)).slave = (initSetup s).slave := by
        rw [initSetup_eq, initSetup_eq]; rfl
      have hwf₀ : Memory.wf (initSetup (beginCommand s)).slave.disp = true := by
        rw [initSetup_eq]; exact slaveHearAll_wf _ _ hwf
      obtain ⟨hauto, hread, hbright, hon, hkeep⟩ :=
        initFrames_slave (setUp_initSetup (beginCommand s)) hwf₀ h0 h7 hu hv hw
      exact ⟨hauto, hread, hbright, hon, hkeep.trans (hslave ▸ hclob)⟩
  · rw [initSetup_eq]
    exact (setup_keeps_clobbered hno).trans hclob

/-! ## O52: the reference slave's answer -/

/-- The slave is in a frame, at the beginning of a byte. -/
def AwaitsByte (sl : Slave) : Prop := sl.rx.inframe = true ∧ sl.rx.k % 9 = 0 ∧ sl.rx.cur = []

theorem awaitsByte_start {sl : Slave} (h : Listening sl) : AwaitsByte (slaveHearAll startEvents sl) := by
  obtain ⟨hc, hd, -⟩ := h
  simp [AwaitsByte, startEvents, slaveHear_dl, rxDriveDio, hc, hd]

theorem awaitsByte_byte {sl : Slave} (h : AwaitsByte sl) (v : Byte) (a : Bool) :
    AwaitsByte (slaveHearAll (byteEvents v a) sl) := by
  obtain ⟨hf, hk, hc⟩ := h
  rw [slave_hears_byte v a sl hf hk hc]
  exact ⟨rfl, by simp only; omega, rfl⟩

/-- A byte's slot samples 0 where the reference slave answers it (R54). -/
theorem byteDraw_reference {s : State} (hsrc : s.ackSource = .referenceSlave) (h : AwaitsByte s.slave) (v : Byte) :
    byteDraw v s = false := by
  obtain ⟨hf, hk, hc⟩ := h
  have hpull : (slaveHearAll [.cl, .dh, .w, .ch, .w] (slaveHearAll (dataEvents v) s.slave)).pulling = true := by
    rw [slave_hears_data v s.slave hf hk hc]
    exact slave_pulls_in_slot _ rfl rfl (by dsimp only; omega)
  simp only [byteDraw, slotDraw, nextDraw, hsrc, hpull, Bool.not_true]

theorem sendBytes_acks_reference {bytes : List Byte} {s t : State} (hsrc : s.ackSource = .referenceSlave)
    (hs : AwaitsByte s.slave) (h : sendBytes bytes s = .next t) :
    t.acks = s.acks ++ List.replicate bytes.length false := by
  induction bytes generalizing s with
  | nil => cases h; simp
  | cons v vs ih =>
    obtain ⟨u, hu, h⟩ := andThen_eq_next.1 h
    obtain ⟨-, -, rfl⟩ := sendByte_next_inv hu
    have hdraw := byteDraw_reference hsrc hs v
    have hrest := ih (by rw [byteOps_eq]; exact hsrc) (by rw [byteOps_eq]; exact awaitsByte_byte hs v _) h
    rw [hrest, byteOps_eq, hdraw]
    simp [List.replicate_succ]

/-- The ACK bits of a frame that the reference slave answers are all 0. -/
theorem SentFrame.acks_reference {bytes : List Byte} {s t : State} {as : List Bool} (hsent : SentFrame bytes s t as)
    (hsrc : s.ackSource = .referenceSlave) (hl : Listening s.slave) (h : frame bytes s = .next t) :
    as = List.replicate bytes.length false := by
  obtain ⟨u, hstart, hrest⟩ := andThen_eq_next.1 h
  obtain ⟨w, hw, hend⟩ := andThen_eq_next.1 hrest
  obtain ⟨-, rfl⟩ := guarded_eq_next.1 hstart
  obtain ⟨-, rfl⟩ := guarded_eq_next.1 hend
  have hacks := sendBytes_acks_reference (by rw [startOps_eq]; exact hsrc)
    (by rw [startOps_eq]; exact awaitsByte_start hl) hw
  rw [startOps_eq] at hacks
  have hstop : (stopOps w).acks = w.acks := by rw [stopOps_eq]
  exact List.append_cancel_left (hsent.acks_eq.symm.trans (hstop.trans hacks))

theorem mismatches_replicate_false (n k : Nat) : mismatches n (List.replicate k false) = [] := by
  induction k generalizing n with
  | zero => rfl
  | succ k ih => simp [List.replicate_succ, mismatches, ih]

/-- Settles O52: SET_SEGMENTS is one frame, and the slave pulls DIO low at each of its samples. -/
theorem referenceSlaveAcknowledgesEveryByte : Obligations.ReferenceSlaveAcknowledgesEveryByte := by
  unfold Obligations.ReferenceSlaveAcknowledgesEveryByte
  intro ms p s hb hl hinit hsrc h0 h5 h6
  obtain ⟨u, as, hu, hs, hnext, hstate⟩ :=
    oneFrameCommand_next (addressByte p :: ms) s hb (by simp) (by rw [List.length_cons]; omega)
  have hlegal : positionLegal p = true := (positionLegal_iff p).2 ⟨h0, h5⟩
  have hexec : exec (.setSegments ms p) s = oneFrameCommand (addressByte p :: ms) s := by
    simp [exec, execSetSegments, setSegments, hinit, hlegal, Config.maxMasks, h6]
  have has : as = List.replicate (ms.length + 1) false := hs.acks_reference hsrc hl hu
  refine ⟨respondOk u, hexec.trans hnext, ?_, ?_⟩
  · rw [hstate, has]
  · rw [hstate, has, mismatches_replicate_false]
    simp

end Sys2Proof.Machine

/-! SUPPORT. The code bytes of R61 to R64 as bit rows, as numbers and as the sums and disjunctions the rules write; the decoder
and the encoder against each other; and what the fetch makes of a record (R61 to R68). -/

namespace Sys2Proof.Machine

open Sys2Proof.Safety

/-! ## The code bytes of the wire commands as numbers (R62, R63) -/

theorem codeOf_addrCmd_toNat (p : BitVec 3) : (codeOf (.addrCmd p)).2.toNat = 0xC0 + p.toNat := by
  revert p; decide

theorem codeOf_dispCtrl_toNat (shown : Bool) (b : BitVec 3) :
    (codeOf (.dispCtrl shown b)).2.toNat = 0x80 + (if shown = true then 8 else 0) + b.toNat := by
  revert shown b; decide

/-! ## The patterns, bit row by bit row -/

/-- A word whose high bits under a mask are `r` is `r` and its own low bits. -/
theorem eq_append_of_and_mask {n k : Nat} {x : BitVec (n + k)} {r : BitVec n}
    (h : x &&& (BitVec.allOnes n ++ 0#k) = r ++ 0#k) : x = r ++ x.extractLsb' 0 k := by
  have hrow : x.extractLsb' k n = r := by
    have hmask := congrArg (BitVec.extractLsb' k n) h
    simpa [BitVec.extractLsb'_and, BitVec.extractLsb'_append_eq_left] using hmask
  rw [← hrow, BitVec.extractLsb'_append_extractLsb'_eq_extractLsb' (Nat.zero_add k).symm, BitVec.extractLsb'_eq_self]

/-- R62: bits 7:3 are the pattern, bits 2:0 the position. -/
theorem isAddrCmd_iff (b : Byte) : isAddrCmd b = true ↔ b = (codeOf (.addrCmd (b.extractLsb' 0 3))).2 := by
  refine ⟨fun h => eq_append_of_and_mask (n := 5) (k := 3) (beq_iff_eq.1 h), fun h => ?_⟩
  rw [h]
  generalize b.extractLsb' 0 3 = p
  revert p; decide

/-- R63: bits 7:4 are the pattern, bit 3 the show bit, bits 2:0 the brightness. -/
theorem isDispCtrl_iff (b : Byte) :
    isDispCtrl b = true ↔ b = (codeOf (.dispCtrl (b.getLsbD 3) (b.extractLsb' 0 3))).2 := by
  refine ⟨fun h => ?_, fun h => ?_⟩
  · have hrow : b = 0b1000#4 ++ b.extractLsb' 0 4 := eq_append_of_and_mask (n := 4) (k := 4) (beq_iff_eq.1 h)
    have hlow : b.extractLsb' 0 4 = BitVec.ofBool (b.getLsbD 3) ++ b.extractLsb' 0 3 := by
      have hshow : b.extractLsb' 3 1 = BitVec.ofBool (b.getLsbD 3) :=
        BitVec.eq_of_getLsbD_eq fun i hi => by
          obtain rfl : i = 0 := by omega
          simp
      rw [← hshow]
      exact (BitVec.extractLsb'_append_extractLsb'_eq_extractLsb' (len₁ := 3) (len₂ := 1) rfl).symm
    calc b = 0b1000#4 ++ (BitVec.ofBool (b.getLsbD 3) ++ b.extractLsb' 0 3) := by rw [← hlow]; exact hrow
      _ = 0b1000#4 ++ BitVec.ofBool (b.getLsbD 3) ++ b.extractLsb' 0 3 := BitVec.append_assoc.symm
  · rw [h]
    generalize b.getLsbD 3 = shown
    generalize b.extractLsb' 0 3 = p
    revert shown p; decide

/-- The address patterns are 0xC0 to 0xC7 (R62). -/
theorem isAddrCmd_iff_toNat (b : Byte) : isAddrCmd b = true ↔ 0xC0 ≤ b.toNat ∧ b.toNat ≤ 0xC7 := by
  rw [isAddrCmd_iff, ← BitVec.toNat_inj, codeOf_addrCmd_toNat, BitVec.extractLsb'_toNat]
  have := b.isLt
  simp only [Nat.shiftRight_zero]
  omega

/-! ## Decode of encode, encode of decode -/

theorem wf_addrCmd_iff (p : BitVec 3) : (Instr.addrCmd p).wf = true ↔ p.toNat ≤ 5 := by
  rw [Instr.wf, decide_eq_true_iff, Config.npos, Nat.lt_succ_iff]

/-- The first byte that the encoder gives a wire command decodes to it (R61 to R63). -/
theorem decodeFirstByte_codeOf {i : Instr} (hwf : i.wf = true) (hspace : (codeOf i).1 = .wireFirst) :
    decodeFirstByte (codeOf i).2 = .ok i := by
  cases i with
  | dataCmd => rfl
  | addrCmd p => clear hspace; revert p; decide
  | dispCtrl shown b => clear hwf hspace; revert shown b; decide
  | _ => cases hspace

theorem decodeFirstByte_eq_ok_iff {b : Byte} {i : Instr} :
    decodeFirstByte b = .ok i ↔ i.wf = true ∧ codeOf i = (.wireFirst, b) := by
  refine ⟨fun h => ?_, fun ⟨hwf, hcode⟩ => ?_⟩
  · unfold decodeFirstByte at h
    split at h
    · rename_i hdata
      cases h
      exact ⟨rfl, congrArg (Prod.mk _) (beq_iff_eq.1 hdata).symm⟩
    · split at h
      · rename_i haddr
        split at h
        · rename_i hpos
          cases h
          exact ⟨decide_eq_true hpos, congrArg (Prod.mk _) ((isAddrCmd_iff b).1 haddr).symm⟩
        · cases h
      · split at h
        · rename_i hdisp
          cases h
          exact ⟨rfl, congrArg (Prod.mk _) ((isDispCtrl_iff b).1 hdisp).symm⟩
        · cases h
  · have hdec := decodeFirstByte_codeOf hwf (congrArg Prod.fst hcode)
    rwa [hcode] at hdec

theorem decode_encode {i : Instr} (hwf : i.wf = true) : decode (encode i) = .ok i := by
  cases i with
  | dataCmd | addrCmd | dispCtrl => exact decodeFirstByte_codeOf hwf rfl
  | _ => rfl

/-! ## The fetch (R66, R68) -/

theorem issuerOf_host {i : Instr} (h : issuerOf i = .host) : hostMayIssue i = true := by
  unfold issuerOf at h
  split at h
  · assumption
  · cases h

theorem fetch_of_decode_ok {r : Record} {i : Instr} (h : decode r = .ok i) :
    fetch r = if r.issuer = .host ∧ hostMayIssue i = false then .error .notForTheHost else .ok i := by
  simp only [fetch, h]

theorem fetch_of_decode_error {r : Record} {e : DecodeError} (h : decode r = .error e) :
    fetch r = .error (.undecodable e) := by
  simp only [fetch, h]

theorem step_of_fetch_error {s : State} {r : Record} {rest : List Record} {e : Refusal} (hport : s.port = r :: rest)
    (h : fetch r = .error e) : step s = .refused e := by
  simp only [step, hport, h]

/-- Settles O6: the tagged rows by evaluation, the wire commands by their bit rows; the encoder's issuer is the host only
where the host may issue. -/
theorem decodeOfEncodeIsIdentity : Obligations.DecodeOfEncodeIsIdentity := by
  unfold Obligations.DecodeOfEncodeIsIdentity
  intro i hwf
  refine ⟨decode_encode hwf, (fetch_of_decode_ok (decode_encode hwf)).trans (if_neg ?_)⟩
  rintro ⟨hhost, hnot⟩
  cases (issuerOf_host hhost).symm.trans hnot

/-- Settles O3: an empty port by evaluation, a rejected record by what the fetch answers. -/
theorem stepWaitsOrRejectsByName : Obligations.StepWaitsOrRejectsByName := by
  unfold Obligations.StepWaitsOrRejectsByName
  refine ⟨fun s hport => ?_, fun s r rest e hport hdec => ?_, fun s r rest i hport hdec hhost hnot => ?_⟩
  · simp only [step, hport]
  · exact step_of_fetch_error hport (fetch_of_decode_error hdec)
  · exact step_of_fetch_error hport ((fetch_of_decode_ok hdec).trans (if_pos ⟨hhost, hnot⟩))

/-- A bare word that reads as an instruction stands for a record that decodes to it, issued by who may issue it. -/
theorem decodeTableWord_record {nbits w : Nat} {i : Instr} (h : decodeTableWord nbits w = some i) :
    ∃ r, tableRecord nbits w = some r ∧ decode r = .ok i ∧ r.issuer = issuerOf i := by
  unfold decodeTableWord at h
  split at h
  · rename_i r hr
    split at h
    · rename_i j hj
      cases h
      refine ⟨r, hr, hj, ?_⟩
      unfold tableRecord at hr
      split at hr
      · dsimp only at hr
        split at hr
        · rename_i k hk
          cases hr
          cases hj.symm.trans hk
          rfl
        · cases hr
      · cases hr
    · cases h
  · cases h

/-- Settles O4: the record the word stands for is at the head of the port, and the step runs what it decodes to. -/
theorem fetchWordRunsTableInstruction : Obligations.FetchWordRunsTableInstruction := by
  unfold Obligations.FetchWordRunsTableInstruction
  intro s nbits w i h
  obtain ⟨r, hr, hdec, hissuer⟩ := decodeTableWord_record h
  have hport : (s.withFetchWord nbits w).port = r :: s.port := by simp only [State.withFetchWord, hr, Option.getD_some]
  exact stepRunsDecodedRecord _ r s.port i hport hdec fun hhost => issuerOf_host (hissuer.symm.trans hhost)

/-- Settles O5, by evaluation of the decoder on the ten records. -/
theorem writtenWordsDecode : Obligations.WrittenWordsDecode := by
  unfold Obligations.WrittenWordsDecode
  exact ⟨rfl, rfl, rfl, rfl, rfl, rfl, rfl, rfl, rfl, rfl⟩

/-! ## The legal first bytes (R68) -/

theorem legalFirstByte_iff (b : Byte) : legalFirstByte b = true ↔
    b.toNat = 0x40 ∨ (0xC0 ≤ b.toNat ∧ b.toNat ≤ 0xC5) ∨ (0x80 ≤ b.toNat ∧ b.toNat ≤ 0x8F) := by
  simp [legalFirstByte, or_assoc]

/-- The code byte of a well-formed wire command is a legal first byte. -/
theorem legalFirstByte_codeOf {i : Instr} (hwf : i.wf = true) (hspace : (codeOf i).1 = .wireFirst) :
    legalFirstByte (codeOf i).2 = true := by
  rw [legalFirstByte_iff]
  cases i with
  | dataCmd => exact .inl rfl
  | addrCmd p =>
    have hp := (wf_addrCmd_iff p).1 hwf
    rw [codeOf_addrCmd_toNat]
    omega
  | dispCtrl shown b =>
    have hb := b.isLt
    rw [codeOf_dispCtrl_toNat]
    split <;> omega
  | _ => cases hspace

/-- Every legal first byte is the code byte of a well-formed wire command, which its value gives. -/
theorem exists_codeOf_of_legalFirstByte {b : Byte} (h : legalFirstByte b = true) :
    ∃ i : Instr, i.wf = true ∧ codeOf i = (.wireFirst, b) := by
  rcases (legalFirstByte_iff b).1 h with hdata | haddr | hdisp
  · exact ⟨.dataCmd, rfl, congrArg (Prod.mk _) (BitVec.eq_of_toNat_eq hdata.symm)⟩
  · have hp : (BitVec.ofNat 3 (b.toNat - 0xC0)).toNat = b.toNat - 0xC0 := by
      rw [BitVec.toNat_ofNat]; omega
    refine ⟨.addrCmd (BitVec.ofNat 3 (b.toNat - 0xC0)), ?_, congrArg (Prod.mk _) (BitVec.eq_of_toNat_eq ?_)⟩
    · rw [wf_addrCmd_iff, hp]
      omega
    · exact (codeOf_addrCmd_toNat _).trans (by omega)
  · have hn : (BitVec.ofNat 3 (b.toNat - 0x80)).toNat = (b.toNat - 0x80) % 8 := BitVec.toNat_ofNat _ _
    refine ⟨.dispCtrl (decide (0x88 ≤ b.toNat)) (BitVec.ofNat 3 (b.toNat - 0x80)), rfl,
      congrArg (Prod.mk _) (BitVec.eq_of_toNat_eq ?_)⟩
    refine (codeOf_dispCtrl_toNat _ _).trans ?_
    simp only [hn, decide_eq_true_eq]
    split <;> omega

/-- Settles O7: a byte decodes first in a frame exactly if it is the code byte of a well-formed wire command, and these code
bytes are the legal first bytes. -/
theorem firstBytePatternsAreExact : Obligations.FirstBytePatternsAreExact := by
  unfold Obligations.FirstBytePatternsAreExact
  refine fun b => ⟨⟨fun h => ?_, fun ⟨i, h⟩ => ?_⟩, fun i => decodeFirstByte_eq_ok_iff.1⟩
  · obtain ⟨i, hi⟩ := exists_codeOf_of_legalFirstByte h
    exact ⟨i, decodeFirstByte_eq_ok_iff.2 hi⟩
  · obtain ⟨hwf, hcode⟩ := decodeFirstByte_eq_ok_iff.1 h
    have hlegal := legalFirstByte_codeOf hwf (congrArg Prod.fst hcode)
    rwa [hcode] at hlegal

/-! ## Operand assembly (R67, R130) -/

/-- `0xC0 | position` (R62) is the bit row with the position in bits 2:0. -/
theorem or_position_eq_codeOf (p : BitVec 3) : (0xC0 : Byte) ||| p.setWidth 8 = (codeOf (.addrCmd p)).2 := by
  revert p; decide

/-- `0x80 | brightness | show bit` (R63) is the bit row with the show bit in bit 3 and the brightness in bits 2:0. -/
theorem or_brightness_eq_codeOf (shown : Bool) (b : BitVec 3) :
    (0x80 : Byte) ||| b.setWidth 8 ||| (if shown then 0x08 else 0x00) = (codeOf (.dispCtrl shown b)).2 := by
  revert shown b; decide

/-- An operand of 0 to 7 fits three bits, so that zext_8 drops none of it. -/
theorem zext8_of_threeBits {n : Int} (h0 : 0 ≤ n) (h7 : n ≤ 7) : zext8 n = (BitVec.ofInt 3 n).setWidth 8 := by
  apply BitVec.eq_of_toNat_eq
  simp only [zext8, BitVec.toNat_setWidth, BitVec.toNat_ofInt]
  omega

theorem addressByte_eq_codeOf {p : Int} (h0 : 0 ≤ p) (h7 : p ≤ 7) :
    addressByte p = (codeOf (.addrCmd (BitVec.ofInt 3 p))).2 := by
  rw [addressByte, zext8_of_threeBits h0 h7, or_position_eq_codeOf]

theorem controlByte_eq_codeOf {b : Int} (h0 : 0 ≤ b) (h7 : b ≤ 7) (shown : Bool) :
    controlByte b shown = (codeOf (.dispCtrl shown (BitVec.ofInt 3 b))).2 := by
  rw [controlByte, zext8_of_threeBits h0 h7, or_brightness_eq_codeOf]

/-- Settles O27: each byte is a code byte of R62 and R63, whose fields do not overlap. -/
theorem operandAssemblyIsExact : Obligations.OperandAssemblyIsExact := by
  unfold Obligations.OperandAssemblyIsExact
  refine ⟨fun b shown h0 h7 => ?_, fun p h0 h5 => ?_⟩
  · have hfits := bright_toNat h0 h7
    rw [controlByte_eq_codeOf h0 h7, codeOf_dispCtrl_toNat]
    push_cast
    rw [hfits]
  · have hfits := bright_toNat h0 (by omega : p ≤ 7)
    rw [addressByte_eq_codeOf h0 (by omega), codeOf_addrCmd_toNat]
    omega

end Sys2Proof.Machine

/-! SUPPORT. The wire forms in their frame: each is WRITE_BYTE of its byte in its position, and an address frame is its wire
forms in order (R61 to R65, R108). -/

namespace Sys2Proof.Machine

open Sys2Proof.Safety

/-! ## A wire form in its position (R65) -/

theorem sendFirstByte_of_started (v : Byte) {s : State} (h : s.fsm = .started) : sendFirstByte v s = sendByte v s :=
  if_pos h

theorem sendFirstByte_of_not_started (v : Byte) {s : State} (h : s.fsm ≠ .started) :
    sendFirstByte v s = .fault .wirePosition := if_neg h

theorem sendDataByte_of_inAddressFrame (v : Byte) {s : State} (h : inAddressFrame s = true) :
    sendDataByte v s = sendByte v s := if_pos h

theorem sendDataByte_of_not_inAddressFrame (v : Byte) {s : State} (h : ¬ inAddressFrame s = true) :
    sendDataByte v s = .fault .wirePosition := if_neg h

theorem inAddressFrame_iff {s : State} : inAddressFrame s = true ↔
    s.fsm = .transmittingByte ∧ ∃ b rest, s.sent = b :: rest ∧ isAddrCmd b = true := by
  cases hs : s.sent <;> simp [inAddressFrame, hs]

/-- WRITE_BYTE inside a frame with room completes and records its byte (R105). -/
theorem writeByte_sent (v : Byte) {s : State} (hf : inFrame s = true) (hi : s.byteidx.toNat ≤ 6) :
    ∃ t, sendByte v s = .next t ∧ exec (.writeByte v) s = .next t ∧ t.sent = s.sent ++ [v] :=
  ⟨byteOps v s, sendByte_next v s hf hi, sendByte_next v s hf hi, by rw [byteOps_eq]⟩

/-- A legal address command sends its code byte first in its frame (R62). -/
theorem exec_addrCmd {p : BitVec 3} (hp : p.toNat ≤ 5) (s : State) :
    exec (.addrCmd p) s = sendFirstByte (codeOf (.addrCmd p)).2 s := by
  rw [← or_position_eq_codeOf]
  exact if_pos (Nat.lt_succ_of_le hp)

/-- An address pattern with no position behind it stops (R68). -/
theorem exec_addrCmd_illegal {p : BitVec 3} (hp : 5 < p.toNat) (s : State) :
    exec (.addrCmd p) s = .fault .wirePosition := if_neg (Nat.not_lt_of_ge hp)

/-- A display command sends its code byte first in its frame (R63). -/
theorem exec_dispCtrl (shown : Bool) (b : BitVec 3) (s : State) :
    exec (.dispCtrl shown b) s = sendFirstByte (codeOf (.dispCtrl shown b)).2 s := by
  rw [← or_brightness_eq_codeOf]
  rfl

/-- Settles O20: each command is its code byte sent first in its frame, and WRITE_BYTE of it there. -/
theorem wireCommandsOpenTheirFrame : Obligations.WireCommandsOpenTheirFrame := by
  unfold Obligations.WireCommandsOpenTheirFrame
  refine ⟨fun s hs hi => ?_, fun s hs => ⟨?_, fun p => ?_, fun shown b => ?_⟩, fun s p hp => exec_addrCmd_illegal hp s⟩
  · have hsent (v : Byte) :
        ∃ t, sendFirstByte v s = .next t ∧ exec (.writeByte v) s = .next t ∧ t.sent = s.sent ++ [v] := by
      rw [sendFirstByte_of_started v hs]
      exact writeByte_sent v (by simp [inFrame, hs]) hi
    refine ⟨hsent 0x40, fun p hp => ?_, fun shown b => ?_⟩
    · obtain ⟨t, hfirst, hwrite, ht⟩ := hsent (codeOf (.addrCmd p)).2
      exact ⟨t, _, (exec_addrCmd hp s).trans hfirst, hwrite, codeOf_addrCmd_toNat p, ht⟩
    · obtain ⟨t, hfirst, hwrite, ht⟩ := hsent (codeOf (.dispCtrl shown b)).2
      exact ⟨t, _, (exec_dispCtrl shown b s).trans hfirst, hwrite, codeOf_dispCtrl_toNat shown b, ht⟩
  · exact sendFirstByte_of_not_started _ hs
  · by_cases hp : p.toNat ≤ 5
    · exact (exec_addrCmd hp s).trans (sendFirstByte_of_not_started _ hs)
    · exact exec_addrCmd_illegal (by omega) s
  · exact (exec_dispCtrl shown b s).trans (sendFirstByte_of_not_started _ hs)

/-- Settles O21: SEG_DATA asks for TransmittingByte and an address pattern as the frame's first byte, and is then WRITE_BYTE
of its mask. -/
theorem segDataFollowsAnAddress : Obligations.SegDataFollowsAnAddress := by
  unfold Obligations.SegDataFollowsAnAddress
  refine ⟨fun m b rest s hfsm hsent hlo hhi hi => ?_, fun m b rest s hsent hb => ?_, fun m s hfsm => ?_⟩
  · have haddr : inAddressFrame s = true :=
      inAddressFrame_iff.2 ⟨hfsm, b, rest, hsent, (isAddrCmd_iff_toNat b).2 ⟨hlo, hhi⟩⟩
    obtain ⟨t, hsend, hwrite, ht⟩ := writeByte_sent m (by simp [inFrame, hfsm]) hi
    exact ⟨t, (sendDataByte_of_inAddressFrame m haddr).trans hsend, hwrite, ht⟩
  · refine sendDataByte_of_not_inAddressFrame m fun haddr => ?_
    obtain ⟨-, b', rest', hsent', hpattern⟩ := inAddressFrame_iff.1 haddr
    obtain ⟨rfl, -⟩ := List.cons.inj (hsent.symm.trans hsent')
    obtain ⟨hlo, hhi⟩ := (isAddrCmd_iff_toNat b).1 hpattern
    omega
  · exact sendDataByte_of_not_inAddressFrame m fun haddr => hfsm (inAddressFrame_iff.1 haddr).1

/-! ## Operations in a row -/

theorem andThen_next_right (r : Result) : andThen r .next = r := by
  cases r <;> rfl

/-- Two continuations that agree on the state `r` answers with, if it answers one, give the same sequence. -/
theorem andThen_congr {r : Result} {f g : State → Result} (h : ∀ t, r = .next t → f t = g t) :
    andThen r f = andThen r g := by
  cases r with
  | next t => exact h t rfl
  | fault e => rfl
  | refused e => rfl

theorem execAll_append (is js : List Instr) (s : State) :
    execAll (is ++ js) s = andThen (execAll is s) (execAll js) := by
  induction is generalizing s with
  | nil => rfl
  | cons i is ih =>
    simp only [List.cons_append, execAll, andThen_assoc]
    exact andThen_congr fun t _ => ih t

/-! ## An address frame (R65, R125) -/

/-- After a byte the frame is an address frame if its first byte, perhaps the one just sent, is an address pattern. -/
theorem inAddressFrame_of_sendByte {v b : Byte} {rest : List Byte} {s t : State} (h : sendByte v s = .next t)
    (hsent : s.sent ++ [v] = b :: rest) (hb : isAddrCmd b = true) : inAddressFrame t = true := by
  obtain ⟨-, -, rfl⟩ := sendByte_next_inv h
  rw [inAddressFrame_iff, byteOps_eq]
  exact ⟨rfl, b, rest, hsent, hb⟩

/-- In an address frame the SEG_DATA of some masks are WRITE_BYTE of each, whether or not the frame has room for them. -/
theorem execAll_segData (ms : List Byte) {s : State} (h : inAddressFrame s = true) :
    execAll (ms.map .segData) s = sendBytes ms s := by
  induction ms generalizing s with
  | nil => rfl
  | cons m ms ih =>
    calc execAll ((m :: ms).map .segData) s
        = andThen (sendByte m s) (execAll (ms.map .segData)) :=
          congrArg (andThen · _) (sendDataByte_of_inAddressFrame m h)
      _ = andThen (sendByte m s) (sendBytes ms) := andThen_congr fun t ht => by
          obtain ⟨-, b, rest, hsent, hb⟩ := inAddressFrame_iff.1 h
          exact ih (inAddressFrame_of_sendByte ht (by rw [hsent]; rfl) hb)

/-- After START, ADDR_CMD and the SEG_DATA of some masks are WRITE_BYTE of the address byte and of each mask. -/
theorem execAll_addrCmd_segData {p : BitVec 3} (hp : p.toNat ≤ 5) (ms : List Byte) {s : State} (hfsm : s.fsm = .started)
    (hsent : s.sent = []) :
    execAll (.addrCmd p :: ms.map .segData) s = sendBytes ((codeOf (.addrCmd p)).2 :: ms) s := by
  have haddr : exec (.addrCmd p) s = sendByte (codeOf (.addrCmd p)).2 s :=
    (exec_addrCmd hp s).trans (sendFirstByte_of_started _ hfsm)
  simp only [execAll, sendBytes, haddr]
  refine andThen_congr fun t ht => execAll_segData ms (inAddressFrame_of_sendByte ht (by rw [hsent]; rfl) ?_)
  rw [isAddrCmd_iff_toNat, codeOf_addrCmd_toNat]
  omega

/-- The frame of an address byte and masks is its wire forms in order, from every state. -/
theorem execAll_addressFrame {p : BitVec 3} (hp : p.toNat ≤ 5) (ms : List Byte) (s : State) :
    execAll ([.start, .addrCmd p] ++ ms.map .segData ++ [.stop]) s = frame ((codeOf (.addrCmd p)).2 :: ms) s := by
  have hstop : execAll [.stop] = stopFrame := funext fun u => andThen_next_right (stopFrame u)
  calc execAll ([.start, .addrCmd p] ++ ms.map .segData ++ [.stop]) s
      = andThen (startFrame s) fun u => andThen (execAll (.addrCmd p :: ms.map .segData) u) stopFrame := by
        rw [execAll_append, hstop]
        exact andThen_assoc _ _ _
    _ = frame ((codeOf (.addrCmd p)).2 :: ms) s := andThen_congr fun u hu => by
        obtain ⟨-, rfl⟩ := guarded_eq_next.1 hu
        rw [execAll_addrCmd_segData hp ms rfl rfl]

/-- Settles O23: the frame is its wire forms from every state, and completes from a command boundary with at most seven
bytes. -/
theorem addressFrameIsItsWireForms : Obligations.AddressFrameIsItsWireForms := by
  unfold Obligations.AddressFrameIsItsWireForms
  intro p ms s hb hp hms
  have hbyte : addressByte p.toNat = (codeOf (.addrCmd p)).2 := by
    rw [addressByte_eq_codeOf (by omega) (by omega), BitVec.ofInt_natCast, BitVec.ofNat_toNat, BitVec.setWidth_eq]
  obtain ⟨t, as, ht, -⟩ :=
    frame_next (addressByte p.toNat :: ms) s hb (by simp) (by rw [List.length_cons]; omega)
  exact ⟨by rw [hbyte]; exact execAll_addressFrame hp ms s, t, ht⟩

end Sys2Proof.Machine

/-! SUPPORT. The three host commands seen to complete where their checks pass, and the counts of what they append (R230). -/

namespace Sys2Proof.Machine

open Sys2Proof.Safety

/-! ## The commands complete where their checks pass (R121, R125, R129) -/

theorem SentFrame.atBoundary {bytes : List Byte} {s t : State} {as : List Bool} (h : SentFrame bytes s t as) :
    AtBoundary t :=
  ⟨h.fsm_eq, h.drv_eq⟩

/-- INIT with a legal brightness completes from every state: its set-up reaches a command boundary, and so does each of its
first two frames (log 30). -/
theorem execInit_next {b : Int} (h0 : 0 ≤ b) (h7 : b ≤ 7) (shown : Bool) (s : State) :
    ∃ u v w as bs cs, execInit b shown s = .next (respondOk (initDone w)) ∧
      SentFrame [0x40] (initSetup (beginCommand s)) u as ∧ SentFrame (0xC0 :: clearMasks) u v bs ∧
      SentFrame [controlByte b shown] v w cs := by
  have hlegal : brightnessLegal b = true := (brightnessLegal_iff b).2 ⟨h0, h7⟩
  have hsetup : AtBoundary (initSetup (beginCommand s)) := by rw [initSetup_eq]; exact ⟨rfl, rfl⟩
  obtain ⟨u, as, hu, has⟩ := frame_next [0x40] _ hsetup (by simp) (by simp)
  obtain ⟨v, bs, hv, hbs⟩ := frame_next (0xC0 :: clearMasks) u has.atBoundary (by simp) (by simp [clearMasks])
  obtain ⟨w, cs, hw, hcs⟩ := frame_next [controlByte b shown] v hbs.atBoundary (by simp) (by simp)
  refine ⟨u, v, w, as, bs, cs, ?_, has, hbs, hcs⟩
  rw [execInit, if_neg (by simp [hlegal])]
  exact andThen_eq_next.2 ⟨u, hu, andThen_eq_next.2 ⟨v, hv, andThen_eq_next.2 ⟨w, hw, rfl⟩⟩⟩

theorem setSegments_legal {ms : List Byte} {p : Int} {s : State} (hinit : s.inited = true) (h0 : 0 ≤ p) (h5 : p ≤ 5)
    (hms : ms.length ≤ 6) : setSegments ms p s = oneFrameCommand (addressByte p :: ms) s := by
  have hlegal : positionLegal p = true := (positionLegal_iff p).2 ⟨h0, h5⟩
  have hroom : ¬ ms.length > Config.maxMasks := Nat.not_lt.2 hms
  simp [setSegments, hinit, hlegal, hroom]

theorem execSetBrightness_legal {b : Int} {s : State} (hinit : s.inited = true) (h0 : 0 ≤ b) (h7 : b ≤ 7)
    (shown : Bool) : execSetBrightness b shown s = oneFrameCommand [controlByte b shown] s := by
  have hlegal : brightnessLegal b = true := (brightnessLegal_iff b).2 ⟨h0, h7⟩
  simp [execSetBrightness, hinit, hlegal]

/-! ## O34: the counts -/

/-- `T_BIT_MIN` is one microsecond (R5, R86). -/
theorem leastDuration_eq_waits (es : List Event) : leastDuration es = waits es := Nat.mul_one _

theorem setupEvents_counts :
    padOps setupEvents = 2 ∧ waits setupEvents = 1 ∧ samples setupEvents = 0 ∧ pullConfigs setupEvents = 2 ∧
      setupEvents.length = 5 := by decide

/-- The counts of a frame that was sent, by the number of its bytes (R111). -/
theorem SentFrame.counts {bytes : List Byte} {s t : State} {as : List Bool} (h : SentFrame bytes s t as) {n : Nat}
    (hn : bytes.length = n) :
    padOps (frameEvents (bytes.zip as)) = 28 * n + 4 ∧ waits (frameEvents (bytes.zip as)) = 26 * n + 4 ∧
      samples (frameEvents (bytes.zip as)) = n ∧ pullConfigs (frameEvents (bytes.zip as)) = 0 ∧
      (frameEvents (bytes.zip as)).length = 55 * n + 8 := by
  have hzip : (bytes.zip as).length = n := by rw [List.length_zip, h.len, Nat.min_self, hn]
  simpa only [hzip] using frameEvents_counts (bytes.zip as)

/-- The counts of a command of one frame (R230). -/
theorem oneFrameCommand_counts {bytes : List Byte} {s : State} (hb : AtBoundary s) (h0 : bytes ≠ [])
    (h7 : bytes.length ≤ 7) :
    ∃ t es, oneFrameCommand bytes s = .next t ∧ t.trace = s.trace ++ es ∧ padOps es = 28 * bytes.length + 4 ∧
      waits es = 26 * bytes.length + 4 ∧ samples es = bytes.length ∧ pullConfigs es = 0 ∧
      es.length = 55 * bytes.length + 8 ∧ leastDuration es = 26 * bytes.length + 4 := by
  obtain ⟨u, as, -, hsent, hnext, -⟩ := oneFrameCommand_next bytes s hb h0 h7
  obtain ⟨hpads, hwaits, hsamples, hpulls, hlen⟩ := hsent.counts rfl
  exact ⟨respondOk u, frameEvents (bytes.zip as), hnext, hsent.trace_eq, hpads, hwaits, hsamples, hpulls, hlen,
    (leastDuration_eq_waits _).trans hwaits⟩

/-- The counts of INIT: its set-up, and frames of one, seven and one bytes (R230). -/
theorem execInit_counts {b : Int} (h0 : 0 ≤ b) (h7 : b ≤ 7) (shown : Bool) (s : State) :
    ∃ t es, execInit b shown s = .next t ∧ t.trace = s.trace ++ es ∧ padOps es = 266 ∧ waits es = 247 ∧
      samples es = 9 ∧ pullConfigs es = 2 ∧ es.length = 524 ∧ leastDuration es = 247 := by
  obtain ⟨u, v, w, as, bs, cs, hnext, hu, hv, hw⟩ := execInit_next h0 h7 shown s
  refine ⟨respondOk (initDone w), setupEvents ++ frameEvents ([0x40].zip as) ++ frameEvents ((0xC0 :: clearMasks).zip bs)
    ++ frameEvents ([controlByte b shown].zip cs), hnext, ?_, ?_⟩
  · simp [respondOk, initDone, hw.trace_eq, hv.trace_eq, hu.trace_eq, initSetup_eq, beginCommand]
  · have hsetup := setupEvents_counts
    have hdata := hu.counts (n := 1) rfl
    have hclear := hv.counts (n := 7) rfl
    have hctrl := hw.counts (n := 1) rfl
    simp only [leastDuration_eq_waits, padOps_append, waits_append, samples_append, pullConfigs_append,
      List.length_append]
    omega

/-- Settles O34: INIT completes from every state with three frames after its set-up, the other two commands with one frame
each, and a frame's counts are those of its number of bytes. -/
theorem commandCountsAreFixed : Obligations.CommandCountsAreFixed := by
  unfold Obligations.CommandCountsAreFixed
  refine ⟨fun b shown s h0 h7 => execInit_counts h0 h7 shown s, fun ms p s hb hinit h0 h5 hms => ?_,
    fun b shown s hb hinit h0 h7 => ?_⟩
  · have hrun : exec (.setSegments ms p) s = oneFrameCommand (addressByte p :: ms) s := setSegments_legal hinit h0 h5 hms
    rw [hrun]
    exact oneFrameCommand_counts hb (by simp) (Nat.succ_le_succ hms)
  · have hrun : exec (.setBrightness b shown) s = oneFrameCommand [controlByte b shown] s :=
      execSetBrightness_legal hinit h0 h7 shown
    rw [hrun]
    exact oneFrameCommand_counts hb (by simp) (by simp)

end Sys2Proof.Machine

/-! SUPPORT. The line primitives one by one: the level a line reads, and what the slave's display makes of their events (R81
to R89). -/

namespace Sys2Proof.Machine

/-! ## The level of a line (R21) -/

theorem level_driven {s : State} {l : Line} (h : lineBit s.drv l = true) : level s l = false := by
  cases l with
  | clk => exact congrArg not h
  | dio => exact if_pos h

theorem level_dio_released {s : State} (h : s.drv.dio = false) : level s .dio = nextDraw s := by
  simp only [level, h, Bool.false_eq_true, if_false]

theorem nextDraw_noSlave {s : State} (h : s.ackSource = .noSlave) : nextDraw s = true := by
  simp only [nextDraw, h]

theorem level_released_noSlave {s : State} {l : Line} (hdrv : lineBit s.drv l = false) (h : s.ackSource = .noSlave) :
    level s l = true := by
  cases l with
  | clk => exact congrArg not hdrv
  | dio => rw [level_dio_released hdrv, nextDraw_noSlave h]

/-! ## The display under one event (R53) -/

/-- An event that ends no frame leaves the display memory alone. -/
theorem slaveHear_disp {e : Event} {sl : Slave} (h : (rxHear e sl.rx).2 = none) : (slaveHear e sl).disp = sl.disp := by
  simp only [slaveHear, h]

theorem rxHear_lowEvent_no_frame (l : Line) (r : Receiver) : (rxHear (lowEvent l) r).2 = none := by
  cases l <;> rfl

/-- The rise of a line ends a frame only where it is DIO's and a STOP to the decoder (R114). -/
theorem rxHear_highEvent_no_frame {l : Line} {r : Receiver}
    (h : ¬(l = .dio ∧ r.c = some false ∧ r.d = some true ∧ r.inframe = true)) : (rxHear (highEvent l) r).2 = none := by
  cases l with
  | clk => rfl
  | dio =>
    have hstop : ¬(r.c = some false ∧ r.d = some true ∧ r.inframe = true) := fun hr => h ⟨rfl, hr⟩
    simp only [highEvent, rxHear, rxReleaseDio, if_neg hstop]

/-! ## O8 to O13 -/

/-- Settles O8: the driver bit decides the level, and a fall of a line ends no frame. -/
theorem driveLowSinksItsLine : Obligations.DriveLowSinksItsLine := by
  unfold Obligations.DriveLowSinksItsLine
  intro l s
  have hdrv : lineBit (driveLow l s).drv l = true := lineBit_set_same s.drv l true
  refine ⟨rfl, driveLow l s, rfl, hdrv, fun l' hne => lineBit_set_other s.drv l l' true hne, level_driven hdrv, ?_,
    fun p => ?_, rfl⟩
  · cases l <;> rfl
  · exact congrArg (Memory.read · p) (slaveHear_disp (rxHear_lowEvent_no_frame l s.slave.rx))

/-- Settles O9: a released CLK reads 1 and a released DIO what the environment makes of it; only a STOP to the slave ends a
frame. -/
theorem releaseFreesItsLine : Obligations.ReleaseFreesItsLine := by
  unfold Obligations.ReleaseFreesItsLine
  intro l s
  have hdrv : lineBit (release l s).drv l = false := lineBit_set_same s.drv l false
  refine ⟨rfl, release l s, rfl, hdrv, fun l' hne => lineBit_set_other s.drv l l' false hne, ?_, ?_,
    fun hsrc => level_released_noSlave hdrv hsrc, ?_, fun hno p => ?_, rfl⟩
  · rintro rfl
    exact congrArg not hdrv
  · rintro rfl
    exact level_dio_released hdrv
  · cases l <;> rfl
  · exact congrArg (Memory.read · p) (slaveHear_disp (rxHear_highEvent_no_frame hno))

/-- Settles O10: the two values of b, each by its line primitive. -/
theorem setDioIsReleaseOrDriveLow : Obligations.SetDioIsReleaseOrDriveLow := by
  unfold Obligations.SetDioIsReleaseOrDriveLow
  intro b s
  cases b with
  | false => exact ⟨rfl, congrArg State.trace (driveLow_eq .dio s), congrArg (·.drv.dio) (driveLow_eq .dio s)⟩
  | true => exact ⟨rfl, congrArg State.trace (release_eq .dio s), congrArg (·.drv.dio) (release_eq .dio s)⟩

/-- Settles O11: DIO is driven low by the block, and no draw is used, or it is released, and the sample is the draw. -/
theorem sampleReadsDio : Obligations.SampleReadsDio := by
  unfold Obligations.SampleReadsDio
  refine ⟨rfl, fun s => ⟨sampleDio s, rfl, ?_⟩⟩
  cases hdio : s.drv.dio with
  | true =>
    rw [sampleDio_driven s hdio, level_driven (l := .dio) hdio]
    simp
  | false =>
    rw [sampleDio_released s hdio, level_dio_released hdio]
    have hdrawn : ∀ b ds, s.ackSource = .drawn → s.draws = b :: ds → nextDraw s = b ∧ drawsAfter s = ds :=
      fun b ds hsrc hds => by simp [nextDraw, drawsAfter, hsrc, hds]
    exact ⟨rfl, rfl, nofun, fun b ds _ => hdrawn b ds, fun _ hsrc => nextDraw_noSlave hsrc, fun _ => rfl, rfl⟩

/-- Settles O12: WAIT is its one event, which the slave takes no notice of. -/
theorem waitIsABareMarker : Obligations.WaitIsABareMarker := by
  unfold Obligations.WaitIsABareMarker
  intro s
  simp [exec, execWait, waitBit_eq]

/-- Settles O13: the tag by evaluation, the pull bit and its event for each line; the slave takes no notice of them. -/
theorem cfgPullRecordsThePull : Obligations.CfgPullRecordsThePull := by
  unfold Obligations.CfgPullRecordsThePull
  refine ⟨fun _ => rfl, fun s => ⟨?_, ?_⟩⟩
  · simp [exec, execCfgPull, cfgPull_eq, setLineBit, pullEvent]
  · simp [exec, execCfgPull, cfgPull_eq, setLineBit, pullEvent]

end Sys2Proof.Machine

/-! SUPPORT. What a receiver makes of the block's event sequences: which of them output a frame, and what a frame's edges are
(R112, R114). -/

namespace Sys2Proof.Machine

open Sys2Proof.Safety

/-! ## The reference decoder over event sequences (R114) -/

/-- The reference decoder after a list of events. -/
def rxHearAll (es : List Event) (r : Receiver) : Receiver := es.foldl (fun r e => (rxHear e r).1) r

/-- The slave's decoder is the reference decoder. -/
theorem slaveHearAll_rx (es : List Event) (sl : Slave) : (slaveHearAll es sl).rx = rxHearAll es sl.rx := by
  induction es generalizing sl with
  | nil => rfl
  | cons e es ih => exact (ih _).trans (congrArg (rxHearAll es) (slaveHear_rx e sl))

theorem decodeFrames_append (es fs : List Event) (r : Receiver) :
    decodeFrames r (es ++ fs) = decodeFrames r es ++ decodeFrames (rxHearAll es r) fs := by
  induction es generalizing r with
  | nil => rfl
  | cons e es ih =>
    rw [show rxHearAll (e :: es) r = rxHearAll es (rxHear e r).1 from rfl]
    cases hout : rxHear e r with
    | mk r' out => cases out <;> simp [decodeFrames, hout, ih]

/-- Two sequences that output nothing, whatever was heard before, output nothing in a row. -/
theorem decodeFrames_append_nil {es fs : List Event} (hes : ∀ r, decodeFrames r es = [])
    (hfs : ∀ r, decodeFrames r fs = []) (r : Receiver) : decodeFrames r (es ++ fs) = [] := by
  rw [decodeFrames_append, hes, hfs]; rfl

/-- START drives lines low only, so it ends no frame. -/
theorem decodeFrames_startEvents (r : Receiver) : decodeFrames r startEvents = [] := rfl

/-- In a bit group DIO moves while CLK is low, so it ends no frame. -/
theorem decodeFrames_bitEvents (b : Bool) (r : Receiver) : decodeFrames r (bitEvents b) = [] := by
  cases b with
  | false => rfl
  | true => simp [bitEvents, decodeFrames, rxHear, rxReleaseDio]

/-- In an ACK slot DIO is released while CLK is low, so it ends no frame. -/
theorem decodeFrames_ackEvents (a : Bool) (r : Receiver) : decodeFrames r (ackEvents a) = [] := by
  simp [ackEvents, decodeFrames, rxHear, rxReleaseDio]

theorem decodeFrames_byteEvents (v : Byte) (a : Bool) : ∀ r, decodeFrames r (byteEvents v a) = [] := by
  have hbit (i : Nat) : ∀ r, decodeFrames r (bitEvents (v.getLsbD i)) = [] := decodeFrames_bitEvents _
  have hdata : ∀ r, decodeFrames r (dataEvents v) = [] := by
    iterate 7 refine decodeFrames_append_nil ?_ (hbit _)
    exact hbit 0
  exact decodeFrames_append_nil hdata (decodeFrames_ackEvents a)

theorem decodeFrames_bytesEvents (ps : List (Byte × Bool)) : ∀ r, decodeFrames r (bytesEvents ps) = [] := by
  induction ps with
  | nil => exact fun _ => rfl
  | cons p ps ih => exact decodeFrames_append_nil (decodeFrames_byteEvents p.1 p.2) ih

/-- After START and the bytes, begun with both lines released, the decoder has the bytes and sees CLK low. -/
theorem rxHearAll_bytes_of_idle {ps : List (Byte × Bool)} (h0 : ps ≠ []) :
    rxHearAll (startEvents ++ bytesEvents ps) Receiver.idle =
      ⟨some true, some false, true, 9 * ps.length, [], ps.map Prod.fst⟩ := by
  rw [← slaveHearAll_rx _ { Slave.reset with rx := Receiver.idle }, slaveHearAll_append,
    slave_hears_bytes ps _ rfl rfl rfl h0]
  simp [startEvents, slaveHear_dl, rxDriveDio, Receiver.idle]

/-- STOP after whole bytes outputs them: the bit that its rise of CLK adds belongs to no byte. -/
theorem decodeFrames_stopEvents (k : Nat) (bytes : List Byte) :
    decodeFrames ⟨some true, some false, true, 9 * k, [], bytes⟩ stopEvents = [bytes] := by
  simp [stopEvents, decodeFrames, rxHear, rxDriveDio, rxReleaseClk, rxRise, rxReleaseDio]

/-- A frame heard with both lines released is output once, by its STOP. -/
theorem decodeFrames_frameEvents {ps : List (Byte × Bool)} (h0 : ps ≠ []) :
    decodeFrames Receiver.idle (frameEvents ps) = [ps.map Prod.fst] := by
  have hbody := decodeFrames_append_nil decodeFrames_startEvents (decodeFrames_bytesEvents ps) Receiver.idle
  rw [frameEvents, decodeFrames_append, hbody, rxHearAll_bytes_of_idle h0, decodeFrames_stopEvents]
  rfl

namespace SentFrame

variable {bytes : List Byte} {s t : State} {as : List Bool} (h : SentFrame bytes s t as)
include h

theorem zip_fst : (bytes.zip as).map Prod.fst = bytes := List.map_fst_zip h.len.ge

theorem zip_length : (bytes.zip as).length = bytes.length := by rw [List.length_zip, h.len, Nat.min_self]

theorem zip_ne_nil (h0 : bytes ≠ []) : bytes.zip as ≠ [] := fun hz => h0 (by rw [← h.zip_fst, hz]; rfl)

end SentFrame

/-- Settles O26: the decoder collects each byte from its eight rises of CLK, and outputs nothing before STOP. -/
theorem receiverReadsTheFrameSent : Obligations.ReceiverReadsTheFrameSent := by
  unfold Obligations.ReceiverReadsTheFrameSent
  intro bs s t _ h
  obtain ⟨as, hs, h0, -, -⟩ := frame_sent h
  exact ⟨frameEvents (bs.zip as), hs.trace_eq, by rw [decodeFrames_frameEvents (hs.zip_ne_nil h0), hs.zip_fst]⟩

/-! ## O25: the edges (R112) -/

theorem bytesEvents_drvAfter {ps : List (Byte × Bool)} (h0 : ps ≠ []) (d : LineBits) :
    (bytesEvents ps).foldl drvAfter d = ⟨true, false⟩ := by
  induction ps generalizing d with
  | nil => exact absurd rfl h0
  | cons p ps ih =>
    obtain ⟨v, a⟩ := p
    rw [bytesEvents_cons, List.foldl_append, (byteEvents_edges v a d 0).2.2]
    cases ps with
    | nil => rfl
    | cons q qs => exact ih (by simp) _

/-- The bytes of a frame never move DIO while CLK is released, and CLK rises nine times in each. -/
theorem bytesEvents_edges (ps : List (Byte × Bool)) (d : LineBits) (n : Nat) :
    dioMovesWhileHigh n d (bytesEvents ps) = [] ∧ clkRises d (bytesEvents ps) = 9 * ps.length := by
  induction ps generalizing d n with
  | nil => exact ⟨rfl, rfl⟩
  | cons p ps ih =>
    obtain ⟨v, a⟩ := p
    obtain ⟨hmoves, hrises, hdrv⟩ := byteEvents_edges v a d n
    rw [bytesEvents_cons, dioMovesWhileHigh_append, clkRises_append, hmoves, hrises, hdrv, (ih _ _).1, (ih _ n).2,
      List.length_cons]
    exact ⟨rfl, by omega⟩

/-- A frame begun with both lines released: `DL` of START and `DH` of STOP move DIO while CLK is released. -/
theorem frameEvents_edges {ps : List (Byte × Bool)} (h0 : ps ≠ []) :
    dioMovesWhileHigh 0 released (frameEvents ps) = [0, 55 * ps.length + 6] ∧
      clkRises released (frameEvents ps) = 9 * ps.length + 1 := by
  have hstart : dioMovesWhileHigh 0 released startEvents = [0] ∧ clkRises released startEvents = 0 := by decide
  have hstop (n : Nat) :
      dioMovesWhileHigh n ⟨true, false⟩ stopEvents = [n + 4] ∧ clkRises ⟨true, false⟩ stopEvents = 1 := ⟨rfl, rfl⟩
  obtain ⟨-, -, -, -, hlen⟩ := bytesEvents_counts ps
  have hindex : 0 + (startEvents ++ bytesEvents ps).length + 4 = 55 * ps.length + 6 := by
    rw [List.length_append, hlen]; simp only [startEvents, List.length_cons, List.length_nil]; omega
  constructor
  · rw [frameEvents, dioMovesWhileHigh_append, dioMovesWhileHigh_append, hstart.1, (bytesEvents_edges ps _ _).1,
      List.foldl_append, bytesEvents_drvAfter h0, (hstop _).1, hindex]
    rfl
  · rw [frameEvents, clkRises_append, clkRises_append, hstart.2, (bytesEvents_edges ps _ 0).2, List.foldl_append,
      bytesEvents_drvAfter h0, (hstop 0).2, Nat.zero_add]

/-- Settles O25: a frame that completes began with both lines released. -/
theorem dioMovesOnlyWhileClkIsLow : Obligations.DioMovesOnlyWhileClkIsLow := by
  unfold Obligations.DioMovesOnlyWhileClkIsLow
  intro bs s t _ h
  obtain ⟨as, hs, h0, -, -, hdrv⟩ := frame_sent h
  refine ⟨frameEvents (bs.zip as), hs.trace_eq, ?_⟩
  rw [hdrv, ← hs.zip_length]
  exact frameEvents_edges (hs.zip_ne_nil h0)

/-- Settles O24: a frame's counts are those of its number of bytes, and STOP releases both lines. -/
theorem frameCountsAreFixed : Obligations.FrameCountsAreFixed := by
  unfold Obligations.FrameCountsAreFixed
  intro bs s hb h1 h7
  obtain ⟨t, as, ht, hs⟩ := frame_next bs s hb (List.length_pos_iff.1 h1) h7
  obtain ⟨hpads, hwaits, hsamples, -, hlen⟩ := hs.counts rfl
  exact ⟨t, as, ht, hs.len, hs.trace_eq, hs.atBoundary, hpads, hwaits, hsamples, hlen⟩

end Sys2Proof.Machine

/-! SUPPORT. START, WRITE_BIT, ACK_SLOT and WRITE_BYTE one by one: their preconditions, and that none of them changes the
slave's display (R100 to R105). -/

namespace Sys2Proof.Machine

open Sys2Proof.Safety

/-! ## The display under events that end no frame (R53) -/

/-- Events for which the reference decoder outputs no frame leave the display memory alone. -/
theorem slaveHearAll_disp {es : List Event} {sl : Slave} (h : decodeFrames sl.rx es = []) :
    (slaveHearAll es sl).disp = sl.disp := by
  induction es generalizing sl with
  | nil => rfl
  | cons e es ih =>
    cases hout : rxHear e sl.rx with
    | mk r out =>
      cases out with
      | some f => simp [decodeFrames, hout] at h
      | none =>
        have hrest : decodeFrames (slaveHear e sl).rx es = [] := by
          simpa [decodeFrames, hout, slaveHear_rx] using h
        exact (ih hrest).trans (slaveHear_disp (by rw [hout]))

/-- Events that end no frame, whatever was heard before, leave every display register as it reads. -/
theorem read_disp_of_no_frame {es : List Event} (hno : ∀ r, decodeFrames r es = []) (sl : Slave) (p : Nat) :
    Memory.read (slaveHearAll es sl).disp p = Memory.read sl.disp p :=
  congrArg (Memory.read · p) (slaveHearAll_disp (hno sl.rx))

/-! ## Where the block is inside a frame (R102, R105) -/

theorem inFrame_iff {s : State} : inFrame s = true ↔ s.fsm = .started ∨ s.fsm = .transmittingByte := by
  simp [inFrame]

theorem not_inFrame {s : State} (h : s.fsm = .idle ∨ s.fsm = .stopped) : ¬ inFrame s = true := by
  rcases h with h | h <;> simp [inFrame, h]

/-! ## O14, O15 -/

/-- Settles O14: the precondition of START, then its operations as one record update; it only drives DIO low. -/
theorem startOpensAFrame : Obligations.StartOpensAFrame := by
  unfold Obligations.StartOpensAFrame
  refine ⟨fun s hidle hdrv => ?_, fun s h => if_neg ?_⟩
  · have hready : startReady s = true := by simp [startReady, hidle, hdrv]
    refine ⟨startOps s, guarded_eq_next.2 ⟨hready, rfl⟩, fun p => ?_, ?_⟩
    · rw [startOps_eq]
      exact read_disp_of_no_frame decodeFrames_startEvents s.slave p
    · rw [startOps_eq, hdrv]; rfl
  · rcases h with h | h | h <;> simp [startReady, h]

/-- Settles O15: WRITE_BIT asks for a frame, and is then its six events and the count of the bit. -/
theorem writeBitClocksOneBit : Obligations.WriteBitClocksOneBit := by
  unfold Obligations.WriteBitClocksOneBit
  refine ⟨fun b s hfsm => ⟨countBit (bitOps b s), guarded_eq_next.2 ⟨inFrame_iff.2 hfsm, rfl⟩, fun p => ?_, ?_⟩,
    fun b s hfsm => if_neg (not_inFrame hfsm)⟩
  · rw [bitOps_eq]
    exact read_disp_of_no_frame (decodeFrames_bitEvents b) s.slave p
  · rw [bitOps_eq]
    cases b <;> rfl

/-! ## O16: ACK_SLOT, and a byte sent bit by bit -/

/-- The condition of R104 on the bits of the current byte, as the words and as the bracket say it (log 25). -/
theorem byteBitsDone_iff {s : State} :
    byteBitsDone s = true ↔ s.bitsDone = 8 ∨ s.fsm = .transmittingByte ∧ s.bitcnt = 8 := by
  simp [byteBitsDone]

theorem ackReady_iff {s : State} :
    ackReady s = true ↔ (s.fsm = .started ∨ s.fsm = .transmittingByte) ∧
      (s.bitsDone = 8 ∨ s.fsm = .transmittingByte ∧ s.bitcnt = 8) ∧ s.drv.clk = false := by
  simp [ackReady, inFrame_iff, byteBitsDone_iff, and_assoc]

/-- A draw supplied from outside is the value the slot samples, and is used up. -/
theorem slotDraw_drawn {s : State} {b : Bool} {ds : List Bool} (hsrc : s.ackSource = .drawn) (hds : s.draws = b :: ds) :
    slotDraw s = b ∧ drawsAfter s = ds := by
  simp [slotDraw, nextDraw, drawsAfter, hsrc, hds]

/-- How many bits of the current byte are done after one more WRITE_BIT performed by itself (log 25). -/
def bitsAfter (n : Nat) : Nat := if n < 8 then n + 1 else 1

theorem countBit_bitOps (b : Bool) (s : State) :
    countBit (bitOps b s) = { s with
      drv := ⟨false, !b⟩, bitsDone := bitsAfter s.bitsDone, trace := s.trace ++ bitEvents b,
      slave := slaveHearAll (bitEvents b) s.slave } := by
  rw [bitOps_eq]; rfl

/-- WRITE_BITs performed one by one inside a frame append their bit groups and are counted. -/
theorem execAll_writeBits (bs : List Bool) {s : State} (hf : inFrame s = true) :
    ∃ t, execAll (bs.map .writeBit) s = .next t ∧ t.fsm = s.fsm ∧ t.trace = s.trace ++ bs.flatMap bitEvents ∧
      t.bitsDone = bitsAfter^[bs.length] s.bitsDone ∧ (bs ≠ [] → t.drv.clk = false) := by
  induction bs generalizing s with
  | nil => exact ⟨s, rfl, rfl, by simp, rfl, by simp⟩
  | cons b bs ih =>
    have hnext : exec (.writeBit b) s = .next (countBit (bitOps b s)) := guarded_eq_next.2 ⟨hf, rfl⟩
    have hstep := countBit_bitOps b s
    obtain ⟨t, ht, hfsm, htrace, hbits, hclk⟩ := ih (s := countBit (bitOps b s)) (by rw [hstep]; exact hf)
    refine ⟨t, andThen_eq_next.2 ⟨_, hnext, ht⟩, ?_, ?_, ?_, fun _ => ?_⟩
    · rw [hfsm, hstep]
    · rw [htrace, hstep]; simp
    · rw [hbits, hstep]; rfl
    · cases bs with
      | nil => cases ht; rw [hstep]
      | cons b' bs' => exact hclk (by simp)

/-- The eight bits of a byte, least significant first. -/
def bitsOf (v : Byte) : List Bool :=
  [v.getLsbD 0, v.getLsbD 1, v.getLsbD 2, v.getLsbD 3, v.getLsbD 4, v.getLsbD 5, v.getLsbD 6, v.getLsbD 7]

theorem flatMap_bitEvents_bitsOf (v : Byte) : (bitsOf v).flatMap bitEvents = dataEvents v := by
  simp [bitsOf, dataEvents]

/-- A byte begun at none or at eight bits has its eight bits after eight WRITE_BITs. -/
theorem bitsAfter_eight {n : Nat} (h : n = 0 ∨ n = 8) : bitsAfter^[8] n = 8 := by
  rcases h with rfl | rfl <;> rfl

/-- The eight bits of a byte and the slot, performed one by one inside a frame. -/
theorem execAll_bits_ackSlot (v : Byte) {s : State} (hf : inFrame s = true) (hbits : s.bitsDone = 0 ∨ s.bitsDone = 8) :
    ∃ t a, execAll ((bitsOf v).map .writeBit ++ [.ackSlot]) s = .next t ∧ t.trace = s.trace ++ byteEvents v a ∧
      t.ackbit = a ∧ t.drv = ⟨true, false⟩ := by
  obtain ⟨u, hu, hfsm, htrace, hcount, hclk⟩ := execAll_writeBits (bitsOf v) hf
  have hready : ackReady u = true :=
    ackReady_iff.2 ⟨hfsm ▸ inFrame_iff.1 hf, .inl (hcount.trans (bitsAfter_eight hbits)), hclk (by simp [bitsOf])⟩
  have hslot : execAll [.ackSlot] u = .next (ackOps u) := andThen_eq_next.2 ⟨_, guarded_eq_next.2 ⟨hready, rfl⟩, rfl⟩
  refine ⟨ackOps u, slotDraw u, ?_, ?_, ?_, ?_⟩
  · rw [execAll_append, hu]; exact hslot
  · rw [ackOps_eq, htrace, flatMap_bitEvents_bitsOf, byteEvents, ← List.append_assoc]
  · rw [ackOps_eq]
  · rw [ackOps_eq]

/-- Settles O16: the precondition of ACK_SLOT, its operations as one record update, and a byte performed bit by bit. -/
theorem ackSlotSamplesOnce : Obligations.AckSlotSamplesOnce := by
  unfold Obligations.AckSlotSamplesOnce
  refine ⟨fun s hbits hclk => ?_, fun s h => if_neg ?_, fun v s hfsm hbits =>
    execAll_bits_ackSlot v (inFrame_iff.2 hfsm) hbits⟩
  · have hready : ackReady s = true := by
      rcases hbits with ⟨hfsm, hdone⟩ | ⟨hfsm, hcnt⟩
      · exact ackReady_iff.2 ⟨hfsm, .inl hdone, hclk⟩
      · exact ackReady_iff.2 ⟨.inr hfsm, .inr ⟨hfsm, hcnt⟩, hclk⟩
    refine ⟨ackOps s, slotDraw s, guarded_eq_next.2 ⟨hready, rfl⟩, fun b ds hsrc hds => ?_, fun p => ?_, ?_⟩
    · rw [ackOps_eq]
      exact slotDraw_drawn hsrc hds
    · rw [ackOps_eq]
      exact read_disp_of_no_frame (decodeFrames_ackEvents _) s.slave p
    · rw [ackOps_eq]; rfl
  · rw [ackReady_iff]
    rintro ⟨hfsm, hdone, hclk⟩
    rcases h with h | h | h | ⟨hbits, h⟩
    · simp [h] at hfsm
    · simp [h] at hfsm
    · simp [h] at hclk
    · obtain ⟨hsending, hcnt⟩ := hdone.resolve_left hbits
      simp [hsending, hcnt] at h

/-- Settles O17: WRITE_BYTE asks for a frame with room, and is then its operations as one record update. -/
theorem writeByteSendsEightBitsAndSlot : Obligations.WriteByteSendsEightBitsAndSlot := by
  unfold Obligations.WriteByteSendsEightBitsAndSlot
  refine ⟨fun v s hfsm hi => ⟨byteOps v s, byteDraw v s, sendByte_next v s (inFrame_iff.2 hfsm) hi, fun p => ?_, ?_⟩,
    fun v s hfsm => if_neg (not_inFrame hfsm), fun v s hfsm hi => ?_⟩
  · rw [byteOps_eq]
    exact read_disp_of_no_frame (decodeFrames_byteEvents v _) s.slave p
  · rw [byteOps_eq]
  · have hfull : ¬ s.byteidx.toNat ≤ Config.maxMasks := by rw [hi]; decide
    exact (if_pos (inFrame_iff.2 hfsm)).trans (if_neg hfull)

end Sys2Proof.Machine

/-! SUPPORT. What the host issues never stops with a fault: under the command boundary invariant every frame begins at a
boundary (R101, R110, R234). -/

namespace Sys2Proof.Machine

open Sys2Proof.Safety

/-- The two stops that R198 and R199 give a command of the host. -/
def RefusedByRule (r : Result) : Prop := r = .refused .notInitialized ∨ r = .refused .tooManyMasks

/-- An initialised machine under the host's invariant is at a command boundary. -/
theorem atBoundary_of_hostInv {s : State} (h : HostInv s) (hinit : s.inited = true) : AtBoundary s := by
  obtain ⟨-, hidle, -, hready⟩ := h
  exact ⟨hidle, (hready hinit).1⟩

theorem oneFrameCommand_completes {bytes : List Byte} {s : State} (hb : AtBoundary s) (h0 : bytes ≠ [])
    (h7 : bytes.length ≤ 7) : ∃ t, oneFrameCommand bytes s = .next t := by
  obtain ⟨u, -, -, -, hnext, -⟩ := oneFrameCommand_next bytes s hb h0 h7
  exact ⟨respondOk u, hnext⟩

theorem setSegments_completes_or_refused (ms : List Byte) (p : Int) {s : State} (h : HostInv s) :
    (∃ t, setSegments ms p s = .next t) ∨ RefusedByRule (setSegments ms p s) := by
  obtain ⟨-, he⟩ | ⟨-, -, he⟩ | ⟨-, -, -, he⟩ | ⟨hinit, -, hms, he⟩ := setSegments_ends ms p s <;> rw [he]
  · exact .inr (.inl rfl)
  · exact .inl ⟨_, rfl⟩
  · exact .inr (.inr rfl)
  · exact .inl (oneFrameCommand_completes (atBoundary_of_hostInv h hinit) (by simp) (Nat.succ_le_succ hms))

theorem setBrightness_completes_or_refused (b : Int) (shown : Bool) {s : State} (h : HostInv s) :
    (∃ t, execSetBrightness b shown s = .next t) ∨ RefusedByRule (execSetBrightness b shown s) := by
  unfold execSetBrightness
  split
  · exact .inr (.inl rfl)
  · rename_i hinit
    split
    · exact .inl ⟨_, rfl⟩
    · exact .inl (oneFrameCommand_completes (atBoundary_of_hostInv h (by simpa using hinit)) (by simp) (by simp))

/-- INIT sets the lines up itself, so it completes from every state (log 30). -/
theorem execInit_completes (b : Int) (shown : Bool) (s : State) : ∃ t, execInit b shown s = .next t := by
  cases hb : brightnessLegal b with
  | false => exact ⟨_, if_pos (by rw [hb]; rfl)⟩
  | true =>
    obtain ⟨h0, h7⟩ := (brightnessLegal_iff b).1 hb
    obtain ⟨u, v, w, as, bs, cs, hnext, -⟩ := execInit_next h0 h7 shown s
    exact ⟨_, hnext⟩

/-- PRINT keeps the invariant from one SET_SEGMENTS to the next, and stops only as one of them does. -/
theorem execPrint_completes_or_refused (cs : List Char) {s : State} (h : HostInv s) :
    (∃ t, execPrint cs s = .next t) ∨ RefusedByRule (execPrint cs s) := by
  have hp : PrintSpec HostInv RefusedByRule :=
    { setSegments := fun ms p u hu => by
        obtain ⟨t, ht⟩ | hr | hr := setSegments_completes_or_refused ms p hu
        · rw [ht]; exact setSegments_hostInv hu ht
        · rw [hr]; exact .inl rfl
        · rw [hr]; exact .inr rfl
      adapter := fun _ _ hu => hu
      diag := fun _ _ hu => hu
      returned := fun _ _ hu => hu }
  have hend := hp.print cs s h
  cases hr : execPrint cs s with
  | next t => exact .inl ⟨t, rfl⟩
  | fault e => rw [hr] at hend; exact .inr hend
  | refused e => rw [hr] at hend; exact .inr hend

theorem exec_host_completes_or_refused {i : Instr} (hi : hostMayIssue i = true) {s : State} (h : HostInv s) :
    (∃ t, exec i s = .next t) ∨ RefusedByRule (exec i s) := by
  cases i with
  | init b shown => exact .inl (execInit_completes b shown s)
  | setSegments ms p => exact setSegments_completes_or_refused ms p h
  | setBrightness b shown => exact setBrightness_completes_or_refused b shown h
  | lookup c => exact .inl ⟨_, rfl⟩
  | print cs => exact execPrint_completes_or_refused cs h
  | _ => cases hi

/-- Taking a record off the port keeps the host's invariant. -/
theorem hostInv_take {s : State} {r : Record} {rest : List Record} (h : HostInv s) (hport : s.port = r :: rest) :
    HostInv { s with port := rest } :=
  ⟨fun q hq => h.1 q (by simp [hport, hq]), h.2⟩

/-- Settles O44: the fetch rejects by name, and each of the host's operations completes or is refused by R198 or R199. -/
theorem hostCommandsNeverFault : Obligations.HostCommandsNeverFault := by
  unfold Obligations.HostCommandsNeverFault
  intro s h
  obtain ⟨hwaits, hundecodable, hnotForTheHost⟩ := stepWaitsOrRejectsByName
  cases hport : s.port with
  | nil => exact .inl ⟨s, hwaits s hport⟩
  | cons r rest =>
    cases hdec : decode r with
    | error e => exact .inr (.inr (.inr (.inr ⟨e, hundecodable s r rest e hport hdec⟩)))
    | ok i =>
      have hhost : r.issuer = .host := h.1 r (by simp [hport])
      cases hi : hostMayIssue i with
      | false => exact .inr (.inr (.inr (.inl (hnotForTheHost s r rest i hport hdec hhost hi))))
      | true =>
        rw [stepRunsDecodedRecord s r rest i hport hdec fun _ => hi]
        obtain ⟨t, ht⟩ | ht | ht := exec_host_completes_or_refused hi (hostInv_take h hport)
        · exact .inl ⟨t, ht⟩
        · exact .inr (.inl ht)
        · exact .inr (.inr (.inl ht))

end Sys2Proof.Machine

/-! SUPPORT. Two executions that differ in what the ACK slots sampled: a frame, PRINT and so every command of the host ends
alike in both (R115, R133). -/

namespace Sys2Proof.Machine

open Sys2Proof.Safety

/-! ## Two executions related throughout -/

/-- Two next states that `R` relates, or the same stop. -/
inductive EndRelated (R : State → State → Prop) : Result → Result → Prop where
  | next {s t : State} (h : R s t) : EndRelated R (.next s) (.next t)
  | fault (e : Fault) : EndRelated R (.fault e) (.fault e)
  | refused (e : Refusal) : EndRelated R (.refused e) (.refused e)

/-- The same for a part of PRINT, whose variables are the same in both. -/
inductive StepsRelated (R : State → State → Prop) : PrintStep → PrintStep → Prop where
  | ok (v : PrintVars) {s t : State} (h : R s t) : StepsRelated R (.ok (v, s)) (.ok (v, t))
  | error {r r' : Result} (h : EndRelated R r r') : StepsRelated R (.error r) (.error r')

section
variable {R : State → State → Prop}

theorem EndRelated.andThen {r r' : Result} {f g : State → Result} (h : EndRelated R r r')
    (hf : ∀ s t, R s t → EndRelated R (f s) (g t)) : EndRelated R (andThen r f) (andThen r' g) := by
  cases h with
  | next hst => exact hf _ _ hst
  | fault e => exact .fault e
  | refused e => exact .refused e

theorem EndRelated.ite {c : Prop} [Decidable c] {r r' q q' : Result} (hr : EndRelated R r r')
    (hq : EndRelated R q q') : EndRelated R (if c then r else q) (if c then r' else q') := by
  split
  · exact hr
  · exact hq

theorem EndRelated.printCommand {r r' : Result} (h : EndRelated R r r') (v : PrintVars) :
    StepsRelated R (printCommand r v) (printCommand r' v) := by
  cases h with
  | next hst => exact .ok v hst
  | fault e => exact .error (.fault e)
  | refused e => exact .error (.refused e)

end

/-- What must hold of a relation for two executions of PRINT to end related: SET_SEGMENTS ends related, PRINT reads the same
ROM and adapter in both, and its own updates keep the relation. -/
structure PrintRelated (R : State → State → Prop) : Prop where
  setSegments : ∀ ms p {s t}, R s t → EndRelated R (setSegments ms p s) (setSegments ms p t)
  rom_eq      : ∀ {s t}, R s t → s.rom = t.rom
  adapter_eq  : ∀ {s t}, R s t → s.adapter = t.adapter
  adapter     : ∀ a {s t}, R s t → R (withAdapter a s) (withAdapter a t)
  diag        : ∀ d {s t}, R s t → R (diag d s) (diag d t)
  returned    : ∀ v {s t}, R s t → R (printReturn v s) (printReturn v t)

namespace PrintRelated

variable {R : State → State → Prop} (hp : PrintRelated R) {s t : State}
include hp

theorem setCol (n : Nat) (h : R s t) : R (setCol n s) (setCol n t) := by
  have hkeep := hp.adapter { s.adapter with col := n } h
  unfold Machine.setCol
  rw [← hp.adapter_eq h]
  exact hkeep

theorem setClearPending (b : Bool) (h : R s t) : R (setClearPending b s) (setClearPending b t) := by
  have hkeep := hp.adapter { s.adapter with clearPending := b } h
  unfold Machine.setClearPending
  rw [← hp.adapter_eq h]
  exact hkeep

theorem flush (v : PrintVars) (h : R s t) : StepsRelated R (printFlush v s) (printFlush v t) := by
  unfold printFlush
  split
  · exact .ok v h
  · exact (hp.setSegments _ _ h).printCommand _

theorem clear (v : PrintVars) (h : R s t) : StepsRelated R (printClear v s) (printClear v t) := by
  have hflush := hp.flush v h
  unfold printClear
  rw [← hp.adapter_eq h]
  split
  · generalize printFlush v s = p, printFlush v t = q at hflush
    cases hflush with
    | error he => exact .error he
    | @ok v s' t' hflushed =>
      have hclear := (hp.setSegments clearMasks 0 hflushed).printCommand v
      dsimp only [clearDisplay]
      generalize printCommand (Machine.setSegments clearMasks 0 s') v = p,
        printCommand (Machine.setSegments clearMasks 0 t') v = q at hclear
      cases hclear with
      | error he => exact .error he
      | ok v hcleared => exact .ok v (hp.setCol 0 (hp.setClearPending false hcleared))
  · exact .ok v h

theorem place (m : Byte) (v : PrintVars) (h : R s t) :
    StepsRelated R (.ok (printPlace m v s)) (.ok (printPlace m v t)) := by
  unfold printPlace
  rw [← hp.adapter_eq h]
  split
  · exact .ok _ h
  · exact .ok _ (hp.setCol _ h)

theorem char (c : Char) (v : PrintVars) (h : R s t) : StepsRelated R (printChar c v s) (printChar c v t) := by
  have hflush := hp.flush v h
  have hclear := hp.clear v h
  unfold printChar
  rw [← hp.rom_eq h]
  split
  · exact .ok v (hp.setClearPending true h)
  · split
    · generalize printFlush v s = p, printFlush v t = q at hflush
      cases hflush with
      | error he => exact .error he
      | ok v hflushed => exact .ok v (hp.setCol 0 hflushed)
    · cases romFind s.rom c with
      | none => exact .ok _ (hp.diag (.lookupMiss c) h)
      | some m =>
        generalize printClear v s = p, printClear v t = q at hclear
        cases hclear with
        | error he => exact .error he
        | ok v hcleared => exact hp.place m v hcleared

theorem chars (cs : List Char) (v : PrintVars) (h : R s t) :
    StepsRelated R (printChars cs v s) (printChars cs v t) := by
  induction cs generalizing v s t with
  | nil => exact .ok v h
  | cons c cs ih =>
    have hchar := hp.char c v h
    unfold printChars
    generalize printChar c v s = p, printChar c v t = q at hchar
    cases hchar with
    | error he => exact .error he
    | ok v hnext => exact ih v hnext

theorem print (cs : List Char) (h : R s t) : EndRelated R (execPrint cs s) (execPrint cs t) := by
  have hchars := hp.chars cs ⟨0, 0, [], 0⟩ h
  unfold execPrint
  generalize printChars cs _ s = p, printChars cs _ t = q at hchars
  cases hchars with
  | error he => exact he
  | @ok v s' t' hread =>
    have hflush := hp.flush v hread
    dsimp only
    generalize printFlush v s' = p, printFlush v t' = q at hflush
    cases hflush with
    | error he => exact he
    | ok v hflushed => exact .next (hp.returned v hflushed)

end PrintRelated

/-! ## The events of a frame but for its samples -/

theorem blankSample_bitEvents (b : Bool) : (bitEvents b).map blankSample = bitEvents b := by
  cases b <;> rfl

theorem blankSample_byteEvents (v : Byte) (a : Bool) : (byteEvents v a).map blankSample = byteEvents v false := by
  simp only [byteEvents, dataEvents, List.map_append, blankSample_bitEvents]
  rfl

/-- With its samples blanked, a frame's events are those of its bytes with every ACK bit 0. -/
theorem blankSample_frameEvents (ps : List (Byte × Bool)) :
    (frameEvents ps).map blankSample = frameEvents (ps.map fun p => (p.1, false)) := by
  have hbytes : (bytesEvents ps).map blankSample = bytesEvents (ps.map fun p => (p.1, false)) := by
    simp only [bytesEvents, List.map_flatMap, List.flatMap_map, blankSample_byteEvents]
  rw [frameEvents, List.map_append, List.map_append, hbytes]
  rfl

/-! ## States that differ in what the ACK slots sampled -/

/-- The two states agree in their events but for the values sampled, in the pads, the pulls, `inited`, `fsm`, the adapter and
the ROM, and in the statuses answered. Draws, ACK bits, diagnostics and the slave may differ, and so may the registers that
are free values outside a frame. -/
structure AlikeButAcks (s t : State) : Prop where
  trace    : s.trace.map blankSample = t.trace.map blankSample
  drv      : s.drv = t.drv
  pull     : s.pull = t.pull
  inited   : s.inited = t.inited
  fsm      : s.fsm = t.fsm
  adapter  : s.adapter = t.adapter
  rom      : s.rom = t.rom
  statuses : s.responses.map Response.status = t.responses.map Response.status

/-- A frame not begun at a command boundary is START's fault (R101). -/
theorem frame_fault {bs : List Byte} {s : State} (h : ¬ AtBoundary s) : frame bs s = .fault .startPrecondition := by
  have hready : ¬ startReady s = true := by
    simp only [startReady, Bool.and_eq_true, beq_iff_eq, Bool.not_eq_true']
    rintro ⟨⟨hidle, hclk⟩, hdio⟩
    exact h ⟨hidle, congr (congrArg LineBits.mk hclk) hdio⟩
  simp only [frame, startFrame, if_neg hready, andThen_fault]

theorem SentFrame.blank_trace {bs : List Byte} {s t : State} {as : List Bool} (h : SentFrame bs s t as) :
    t.trace.map blankSample = s.trace.map blankSample ++ frameEvents (bs.map fun b => (b, false)) := by
  have hpairs : (bs.zip as).map (fun p => (p.1, false)) = bs.map fun b => (b, false) := by
    conv_rhs => rw [← h.zip_fst, List.map_map]
    rfl
  rw [h.trace_eq, List.map_append, blankSample_frameEvents, hpairs]

namespace AlikeButAcks

variable {s t : State} (h : AlikeButAcks s t)
include h

/-- A frame completes in both executions, whatever its slots sample, or in neither. -/
theorem frame {bs : List Byte} (h0 : bs ≠ []) (h7 : bs.length ≤ 7) :
    EndRelated AlikeButAcks (frame bs s) (frame bs t) := by
  by_cases hs : AtBoundary s
  · have ht : AtBoundary t := ⟨h.fsm ▸ hs.1, h.drv ▸ hs.2⟩
    obtain ⟨s', as, hs', hsent⟩ := frame_next bs s hs h0 h7
    obtain ⟨t', bs', ht', hsent'⟩ := frame_next bs t ht h0 h7
    rw [hs', ht']
    exact .next
      { trace := by rw [hsent.blank_trace, hsent'.blank_trace, h.trace]
        drv := hsent.drv_eq.trans hsent'.drv_eq.symm
        pull := by rw [hsent.pull_eq, hsent'.pull_eq, h.pull]
        inited := by rw [hsent.inited_eq, hsent'.inited_eq, h.inited]
        fsm := hsent.fsm_eq.trans hsent'.fsm_eq.symm
        adapter := by rw [hsent.state, hsent'.state]; exact h.adapter
        rom := by rw [hsent.state, hsent'.state]; exact h.rom
        statuses := by rw [hsent.responses_eq, hsent'.responses_eq, h.statuses] }
  · have ht : ¬ AtBoundary t := fun ht => hs ⟨h.fsm.symm ▸ ht.1, h.drv.symm ▸ ht.2⟩
    rw [frame_fault hs, frame_fault ht]
    exact .fault _

theorem beginCommand : AlikeButAcks (beginCommand s) (beginCommand t) := { h with }

theorem respondOk : AlikeButAcks (respondOk s) (respondOk t) :=
  { h with statuses := by simp [Machine.respondOk, h.statuses] }

theorem raiseError (e : Status) : EndRelated AlikeButAcks (raiseError e s) (raiseError e t) :=
  .next { h with statuses := by simp [h.statuses] }

theorem initSetup : AlikeButAcks (initSetup s) (initSetup t) := by
  rw [initSetup_eq, initSetup_eq]
  exact { h with trace := by simp [h.trace], drv := rfl, pull := rfl, fsm := rfl }

theorem initDone : AlikeButAcks (initDone s) (initDone t) := { h with inited := rfl, adapter := rfl }

theorem oneFrameCommand {bs : List Byte} (h0 : bs ≠ []) (h7 : bs.length ≤ 7) :
    EndRelated AlikeButAcks (oneFrameCommand bs s) (oneFrameCommand bs t) :=
  (h.beginCommand.frame h0 h7).andThen fun _ _ h => .next h.respondOk

theorem setSegments (ms : List Byte) (p : Int) :
    EndRelated AlikeButAcks (setSegments ms p s) (setSegments ms p t) := by
  unfold Machine.setSegments
  rw [h.inited]
  refine .ite (.refused _) (.ite (h.raiseError _) ?_)
  split
  · exact .refused _
  · rename_i hroom
    exact h.oneFrameCommand (by simp) (Nat.succ_le_succ (Nat.not_lt.1 hroom))

theorem setBrightness (b : Int) (shown : Bool) :
    EndRelated AlikeButAcks (execSetBrightness b shown s) (execSetBrightness b shown t) := by
  unfold execSetBrightness
  rw [h.inited]
  exact .ite (.refused _) (.ite (h.raiseError _) (h.oneFrameCommand (by simp) (by simp)))

theorem init (b : Int) (shown : Bool) : EndRelated AlikeButAcks (execInit b shown s) (execInit b shown t) :=
  .ite (h.raiseError _)
    ((h.beginCommand.initSetup.frame (by simp) (by simp)).andThen fun _ _ h =>
      (h.frame (by simp) (by simp [clearMasks])).andThen fun _ _ h =>
        (h.frame (by simp) (by simp)).andThen fun _ _ h => .next h.initDone.respondOk)

omit h in
theorem printRelated : PrintRelated AlikeButAcks where
  setSegments ms p _ _ h := h.setSegments ms p
  rom_eq h := h.rom
  adapter_eq h := h.adapter
  adapter _ _ _ h := { h with adapter := rfl }
  diag _ _ _ h := { h with }
  returned _ _ _ h := { h with }

theorem exec_host {i : Instr} (hi : hostMayIssue i = true) : EndRelated AlikeButAcks (exec i s) (exec i t) := by
  cases i with
  | init b shown => exact h.init b shown
  | setSegments ms p => exact h.setSegments ms p
  | setBrightness b shown => exact h.setBrightness b shown
  | lookup c => exact .next { h with }
  | print cs => exact printRelated.print cs h
  | _ => cases hi

end AlikeButAcks

/-- Settles O36: states that differ in their draws alone are alike but for what the slots sample, and no command of the host
tells them apart. -/
theorem ackBitsGateNothing : Obligations.AckBitsGateNothing := by
  unfold Obligations.AckBitsGateNothing
  intro i s d₁ d₂ hi
  have hdraws : AlikeButAcks { s with draws := d₁ } { s with draws := d₂ } := ⟨rfl, rfl, rfl, rfl, rfl, rfl, rfl, rfl⟩
  have hends := hdraws.exec_host hi
  generalize exec i { s with draws := d₁ } = r, exec i { s with draws := d₂ } = r' at hends
  cases hends with
  | next h => exact ⟨h.trace, h.drv, h.pull, h.inited, h.fsm, h.adapter, h.statuses⟩
  | fault e => rfl
  | refused e => rfl

end Sys2Proof.Machine

/-! SUPPORT. The three host commands by their checks: what each answers where an operand is out of range, and INIT where it
is legal, as one record update (R120 to R128). -/

namespace Sys2Proof.Machine

open Sys2Proof.Safety

/-! ## An operand out of range (R120, R124, R128) -/

theorem brightnessLegal_eq_false_iff (b : Int) : brightnessLegal b = false ↔ b < 0 ∨ 7 < b := by
  rw [← Bool.not_eq_true, brightnessLegal_iff]
  omega

theorem positionLegal_eq_false_iff (p : Int) : positionLegal p = false ↔ p < 0 ∨ 5 < p := by
  rw [← Bool.not_eq_true, positionLegal_iff]
  omega

theorem execInit_illegal {b : Int} (hb : b < 0 ∨ 7 < b) (shown : Bool) (s : State) :
    execInit b shown s = raiseError .configurationError s :=
  if_pos (by rw [(brightnessLegal_eq_false_iff b).2 hb]; rfl)

theorem execSetBrightness_illegal {b : Int} {s : State} (hinit : s.inited = true) (hb : b < 0 ∨ 7 < b) (shown : Bool) :
    execSetBrightness b shown s = raiseError .configurationError s := by
  simp [execSetBrightness, hinit, (brightnessLegal_eq_false_iff b).2 hb]

/-- A position out of range is an error whatever the masks, too many of them included (R124, R201). -/
theorem setSegments_illegal {p : Int} {s : State} (hinit : s.inited = true) (hp : p < 0 ∨ 5 < p) (ms : List Byte) :
    setSegments ms p s = raiseError .rangeError s := by
  simp [setSegments, hinit, (positionLegal_eq_false_iff p).2 hp]

theorem setSegments_tooManyMasks {ms : List Byte} {p : Int} {s : State} (hinit : s.inited = true) (h0 : 0 ≤ p)
    (h5 : p ≤ 5) (hms : 6 < ms.length) : setSegments ms p s = .refused .tooManyMasks := by
  have hlegal : positionLegal p = true := (positionLegal_iff p).2 ⟨h0, h5⟩
  simp [setSegments, hinit, hlegal, Config.maxMasks, hms]

theorem setSegments_notInitialized {s : State} (hinit : s.inited = false) (ms : List Byte) (p : Int) :
    setSegments ms p s = .refused .notInitialized := by
  simp [setSegments, hinit]

theorem execSetBrightness_notInitialized {s : State} (hinit : s.inited = false) (b : Int) (shown : Bool) :
    execSetBrightness b shown s = .refused .notInitialized := by
  simp [execSetBrightness, hinit]

/-- Settles O29: the check of the brightness comes first and reads nothing of the state. -/
theorem initRejectsBadBrightness : Obligations.InitRejectsBadBrightness := by
  unfold Obligations.InitRejectsBadBrightness
  intro b shown s hb
  exact execInit_illegal hb shown s

/-- Settles O31: one lemma per outcome of the checks, in their order. -/
theorem setSegmentsChecksInOrder : Obligations.SetSegmentsChecksInOrder := by
  unfold Obligations.SetSegmentsChecksInOrder
  intro ms p s
  exact ⟨fun hinit => setSegments_notInitialized hinit ms p, fun hinit hp => setSegments_illegal hinit hp ms,
    setSegments_tooManyMasks, setSegments_legal⟩

/-- Settles O33: one lemma per check, in their order. -/
theorem setBrightnessChecksInOrder : Obligations.SetBrightnessChecksInOrder := by
  unfold Obligations.SetBrightnessChecksInOrder
  intro b shown s
  exact ⟨fun hinit => execSetBrightness_notInitialized hinit b shown,
    fun hinit hb => execSetBrightness_illegal hinit hb shown⟩

/-! ## What the commands do where their checks pass -/

/-- Settles O30: the checks pass whatever the masks and whatever position they run up to, and the command is its one
frame. -/
theorem setSegmentsSendsOneFrame : Obligations.SetSegmentsSendsOneFrame := by
  unfold Obligations.SetSegmentsSendsOneFrame
  intro ms p s hb hinit h0 h5 hms
  obtain ⟨u, as, -, hsent, hnext, hstate⟩ :=
    oneFrameCommand_next (addressByte p :: ms) s hb (by simp) (Nat.succ_le_succ hms)
  exact ⟨respondOk u, as, (setSegments_legal hinit h0 h5 hms).trans hnext, hsent.len, hstate⟩

/-- Settles O28: INIT completes from every state, and its set-up and three frames are each one record update. -/
theorem initSendsItsThreeFrames : Obligations.InitSendsItsThreeFrames := by
  unfold Obligations.InitSendsItsThreeFrames
  intro b shown s h0 h7
  obtain ⟨u, v, w, as, bs, cs, hnext, hu, hv, hw⟩ := execInit_next h0 h7 shown s
  obtain ⟨a, rfl⟩ := List.length_eq_one_iff.1 hu.len
  obtain ⟨z, rfl⟩ := List.length_eq_one_iff.1 hw.len
  refine ⟨respondOk (initDone w), a, bs, z, hnext, hv.len, ?_⟩
  rw [hw.state, hv.state, hu.state, initSetup_eq]
  simp [respondOk, initDone, beginCommand, lastAck, setupEvents, clearMasks]

end Sys2Proof.Machine

/-! SUPPORT. The character ROM: no step writes it, which lists BUILD accepts, what it makes of them, and LOOKUP's read of the
table (R142 to R154). -/

namespace Sys2Proof.Machine

open Sys2Proof.Safety

/-! ## O40: the constants -/

theorem params_across : Across fun s t => t.params = s.params where
  refl _ := rfl
  trans h h' := h'.trans h
  quiet h := h.params
  driveLow _ _ := rfl
  release _ _ := rfl
  waitBit _ := rfl
  cfgPull _ _ := rfl
  sampleDio s := by
    obtain ⟨ds, n, h⟩ := sampleDio_eq s
    rw [h]

/-- A ROM built of admissible parameters meets the constraints of D18. -/
theorem romBuilt_admissible {s : State} (h : RomBuilt s) : romAdmissible s.params.segdef s.rom = true := by
  obtain ⟨hparams, hbuild⟩ := h
  obtain ⟨-, rom, hrom, hadm⟩ := paramsAdmissible_iff.1 hparams
  cases hbuild.symm.trans hrom
  exact hadm

/-- `RomBuilt` speaks of the ROM and the parameters alone. -/
theorem romBuilt_of_eq {s t : State} (hrom : t.rom = s.rom) (hparams : t.params = s.params) (h : RomBuilt s) :
    RomBuilt t := by
  unfold RomBuilt
  rw [hrom, hparams]
  exact h

/-- Settles O40: every primitive and every quiet update keeps both constants, and RomBuilt reads nothing else. -/
theorem romNeverChanges : Obligations.RomNeverChanges := by
  unfold Obligations.RomNeverChanges
  intro s t h
  have hrom : t.rom = s.rom := (keepsMemories_across.step (fun _ => ⟨rfl, id⟩) h).1
  have hparams : t.params = s.params := params_across.step (fun _ => rfl) h
  refine ⟨hrom, hparams, fun hs => ?_⟩
  have ht : RomBuilt t := romBuilt_of_eq hrom hparams hs
  exact ⟨ht, romBuilt_admissible ht⟩

/-! ## O54: which lists build -/

/-- Where `seen` are the keys of the table, an accepted entry adds its own to both. -/
theorem buildEntry_seen {sd : SegDef} {d : RomDef} {seen : List Char} {rom rom' : Memory}
    (hseen : ∀ c, (romFind rom c).isSome = seen.contains c) (h : buildEntry sd rom d = some rom') (c : Char) :
    (romFind rom' c).isSome = (d.key :: seen).contains c := by
  obtain ⟨-, m, -, hf⟩ := buildEntry_some h
  rw [hf, List.contains_cons, ← hseen]
  by_cases hc : c = d.key <;> simp [hc]

/-- A list that builds is in dependency order and defines no key twice (R143, R148). -/
theorem defsOrdered_of_buildFrom {sd : SegDef} {ds : List RomDef} {seen : List Char} {rom rom' : Memory}
    (hseen : ∀ c, (romFind rom c).isSome = seen.contains c) (h : buildFrom sd ds rom = some rom') :
    defsOrdered seen ds = true := by
  induction ds generalizing seen rom with
  | nil => rfl
  | cons d ds ih =>
    obtain ⟨r, hr, hds⟩ := buildFrom_cons.1 h
    obtain ⟨hkey, m, hm, -⟩ := buildEntry_some hr
    have hnew : seen.contains d.key = false := by rw [← hseen, hkey]; rfl
    have hrefs : d.refs.all (seen.contains ·) = true := by
      simpa only [hseen, hm, Option.isSome_some] using (orRefs_isSome rom d.refs).symm
    simp only [defsOrdered, hnew, hrefs, ih (buildEntry_seen hseen hr) hds, Bool.not_false, Bool.and_self]

/-- Settles O54: both directions by induction on the list, with the keys seen so far being those of the table so far. -/
theorem buildRejectsForwardReferences : Obligations.BuildRejectsForwardReferences := by
  unfold Obligations.BuildRejectsForwardReferences
  intro sd defs
  rw [Option.isSome_iff_exists]
  have hempty : ∀ c, (romFind [] c).isSome = ([] : List Char).contains c := fun _ => rfl
  exact ⟨fun ⟨_, h⟩ => defsOrdered_of_buildFrom hempty h, buildFrom_of_defsOrdered sd hempty⟩

/-! ## O55: bit H -/

/-- Settles O55: no cell of the table has bit H, and a key's mask is one of the cells. -/
theorem auxiliaryBitNeverInRom : Obligations.AuxiliaryBitNeverInRom := by
  unfold Obligations.AuxiliaryBitNeverInRom
  intro sd defs rom hwf h c m hm
  have hcell : clearOf sd.h (romKey c, m) = true := Memory.find_all hm (build_clearOf_h hwf h)
  simpa [clearOf] using hcell

/-! ## O56: what an entry composes -/

/-- What `y` does not lack, a mask with more bits does not lack either. -/
theorem and_not_or_eq_zero {x y : Byte} (h : x &&& ~~~y = 0) (z : Byte) : x &&& ~~~(y ||| z) = 0 := by
  rw [BitVec.not_or, ← BitVec.and_assoc, h]
  exact BitVec.zero_and

/-- Each mask that is composed is in the table, and its bits are in the OR. -/
theorem orRefs_mem {rom : Memory} {cs : List Char} {r : Byte} (h : orRefs rom cs = some r) {c : Char} (hc : c ∈ cs) :
    ∃ v, romFind rom c = some v ∧ v &&& ~~~r = 0 := by
  induction cs generalizing r with
  | nil => cases hc
  | cons d cs ih =>
    unfold orRefs at h
    split at h
    · rename_i m r' hm hr'
      cases h
      obtain rfl | hc := List.mem_cons.1 hc
      · exact ⟨m, hm, and_not_or_eq_zero (BitVec.and_not_self m) r'⟩
      · obtain ⟨v, hv, hbits⟩ := ih hr' hc
        exact ⟨v, hv, by rw [BitVec.or_comm]; exact and_not_or_eq_zero hbits m⟩
    · cases h

/-- Settles O56: the entry's mask as BUILD makes it, and the bits of each mask composed in the OR. -/
theorem entriesComposeCompletely : Obligations.EntriesComposeCompletely := by
  unfold Obligations.EntriesComposeCompletely
  intro sd defs rom h d hd
  obtain ⟨r, hr, hmask⟩ := buildFrom_entry h hd
  refine ⟨r ||| orBits sd d.bits, r, hmask, hr, rfl, fun c hc => ?_⟩
  obtain ⟨v, hv, hbits⟩ := orRefs_mem hr hc
  exact ⟨v, hv, and_not_or_eq_zero hbits _⟩

/-! ## O53: LOOKUP -/

theorem romRead_hit {rom : Memory} {c : Char} {m : Byte} (h : romFind rom c = some m) : romRead rom c = ⟨true, m⟩ := by
  rw [romRead, h]

theorem romRead_miss {rom : Memory} {c : Char} (h : romFind rom c = none) :
    romRead rom c = ⟨false, Config.missMask c⟩ := by
  rw [romRead, h]

theorem exec_lookup (c : Char) (s : State) :
    exec (.lookup c) s = .next { s with romAnswers := s.romAnswers ++ [romRead s.rom c] } := rfl

/-- Settles O53: LOOKUP appends the answer of the ROM's read, a hit or a miss; the mask of a miss is `Config.missMask`. -/
theorem lookupIsAPureRead : Obligations.LookupIsAPureRead := by
  unfold Obligations.LookupIsAPureRead
  refine ⟨fun c => ⟨rfl, rfl⟩, Config.missMask, fun c s => ⟨fun m hm => ?_, fun hm => ?_⟩⟩
  · rw [exec_lookup, romRead_hit hm]
  · rw [exec_lookup, romRead_miss hm]

end Sys2Proof.Machine

/-! SUPPORT. PRINT character by character, with the commands it issues named: what each kind of character does to the rest
of PRINT (R171 to R176). -/

namespace Sys2Proof.Machine

open Sys2Proof.Safety

/-! ## The rest of PRINT -/

/-- Go on from a part of PRINT that was carried out; a stop ends PRINT. -/
def afterPart (r : PrintStep) (f : PrintVars → State → Result) : Result :=
  match r with
  | .ok (v, s) => f v s
  | .error e => e

/-- What PRINT still does with the characters `cs` to come: read them, flush the last batch and return (R171). -/
def printRest (cs : List Char) (v : PrintVars) (s : State) : Result :=
  afterPart (printChars cs v s) fun v s => afterPart (printFlush v s) fun v s => .next (printReturn v s)

theorem exec_print (cs : List Char) (s : State) : exec (.print cs) s = printRest cs ⟨0, 0, [], 0⟩ s := by
  change execPrint cs s = _
  unfold execPrint printRest
  cases printChars cs ⟨0, 0, [], 0⟩ s with
  | error e => rfl
  | ok p => obtain ⟨v, t⟩ := p; cases h : printFlush v t <;> simp [afterPart, h]

theorem afterPart_printCommand (r : Result) (v : PrintVars) (f : PrintVars → State → Result) :
    afterPart (printCommand r v) f = andThen r (f v) := by
  cases r <;> rfl

/-- No operation writes the ROM (R151). -/
theorem execAll_rom {is : List Instr} {s t : State} (h : execAll is s = .next t) : t.rom = s.rom := by
  induction is generalizing s with
  | nil => cases h; rfl
  | cons i is ih =>
    obtain ⟨u, hu, ht⟩ := andThen_eq_next.1 h
    exact (ih ht).trans (keepsMemories_across.exec (fun _ => ⟨rfl, id⟩) hu).1

theorem execAll_singleton (i : Instr) (s : State) : execAll [i] s = exec i s := andThen_next_right _

/-- A flush carries out the SET_SEGMENTS of its batch, if there is one, and empties the batch. -/
theorem afterPart_printFlush (v : PrintVars) (s : State) (f : PrintVars → State → Result) :
    afterPart (printFlush v s) f =
      andThen (execAll (flushed v.batch v.batchStart) s) (f { v with batch := [] }) := by
  unfold printFlush flushed
  split
  · rename_i hempty
    rw [← hempty]
    rfl
  · rw [afterPart_printCommand, execAll_singleton]
    rfl

/-- A pending clear carries out the flush and CLEAR, and leaves column 0 with no clear pending (R172). -/
theorem afterPart_printClear {s : State} (hp : s.adapter.clearPending = true) (v : PrintVars)
    (f : PrintVars → State → Result) :
    afterPart (printClear v s) f =
      andThen (execAll (flushed v.batch v.batchStart ++ [.setSegments clearMasks 0]) s) fun t =>
      f { v with batch := [] } (setCol 0 (setClearPending false t)) := by
  have hparts : afterPart (printClear v s) f = afterPart (printFlush v s) fun v t =>
      afterPart (printCommand (clearDisplay t) v) fun v u => f v (setCol 0 (setClearPending false u)) := by
    unfold printClear
    rw [if_pos hp]
    cases printFlush v s with
    | error e => rfl
    | ok p => obtain ⟨w, t⟩ := p; cases h : printCommand (clearDisplay t) w <;> simp [afterPart, h]
  rw [hparts, afterPart_printFlush, execAll_append, andThen_assoc]
  refine andThen_congr fun t _ => ?_
  rw [afterPart_printCommand, execAll_singleton]
  rfl

/-! ## One character -/

theorem counted_iff (c : Char) : counted c = true ↔ c.toNat ≠ 0x0A ∧ c.toNat ≠ 0x0D := by simp [counted]

theorem printRest_nil (v : PrintVars) (s : State) :
    printRest [] v s =
      andThen (execAll (flushed v.batch v.batchStart) s) fun t => .next (printReturn v t) :=
  afterPart_printFlush v s _

theorem printRest_cons (c : Char) (cs : List Char) (v : PrintVars) (s : State) :
    printRest (c :: cs) v s = afterPart (printChar c v s) (printRest cs) := by
  unfold printRest
  rw [printChars]
  cases printChar c v s <;> rfl

section
variable {c : Char} (cs : List Char) (v : PrintVars) {s : State}

/-- A newline makes a clear pending (R172). -/
theorem printRest_newline (hc : c.toNat = 0x0A) (s : State) :
    printRest (c :: cs) v s = printRest cs v (setClearPending true s) := by
  rw [printRest_cons, printChar, if_pos hc]
  rfl

/-- A carriage return flushes the batch and goes to column 0 (R173). -/
theorem printRest_carriageReturn (hc : c.toNat = 0x0D) (s : State) :
    printRest (c :: cs) v s =
      andThen (execAll (flushed v.batch v.batchStart) s) fun t => printRest cs { v with batch := [] } (setCol 0 t) := by
  rw [printRest_cons, printChar, if_neg (by omega), if_pos hc,
    ← afterPart_printFlush v s fun v t => printRest cs v (setCol 0 t)]
  cases printFlush v s <;> rfl

/-- A miss is reported and skipped (R174). -/
theorem printRest_miss (hc : counted c = true) (hm : romFind s.rom c = none) :
    printRest (c :: cs) v s = printRest cs { v with skipped := v.skipped + 1 } (diag (.lookupMiss c) s) := by
  obtain ⟨hnl, hcr⟩ := (counted_iff c).1 hc
  rw [printRest_cons, printChar, if_neg hnl, if_neg hcr, hm]
  rfl

/-- A hit carries out a pending clear and is then placed (R172, R175). -/
theorem printRest_hit {m : Byte} (hc : counted c = true) (hm : romFind s.rom c = some m) :
    printRest (c :: cs) v s =
      afterPart (printClear v s) fun v s => printRest cs (printPlace m v s).1 (printPlace m v s).2 := by
  obtain ⟨hnl, hcr⟩ := (counted_iff c).1 hc
  rw [printRest_cons, printChar, if_neg hnl, if_neg hcr, hm]
  cases printClear v s <;> rfl

theorem printRest_place {m : Byte} (hc : counted c = true) (hm : romFind s.rom c = some m)
    (hp : s.adapter.clearPending = false) :
    printRest (c :: cs) v s = printRest cs (printPlace m v s).1 (printPlace m v s).2 := by
  rw [printRest_hit cs v hc hm, printClear, if_neg (by simp [hp])]
  rfl

/-- A hit with a clear pending: the batch and CLEAR go out, and the character is read again with none pending (R172). -/
theorem printRest_clear {m : Byte} (hc : counted c = true) (hm : romFind s.rom c = some m)
    (hp : s.adapter.clearPending = true) :
    printRest (c :: cs) v s =
      andThen (execAll (flushed v.batch v.batchStart ++ [.setSegments clearMasks 0]) s) fun t =>
      printRest (c :: cs) { v with batch := [] } (setCol 0 (setClearPending false t)) := by
  rw [printRest_hit cs v hc hm, afterPart_printClear hp]
  refine andThen_congr fun t ht => (printRest_place cs _ hc ?_ rfl).symm
  exact (congrArg (romFind · c) (execAll_rom ht)).trans hm

end

/-! ## O60: the characters that send nothing -/

/-- Settles O60: each character by its own rule, and nothing is left to flush. -/
theorem printCharactersWithoutAFrame : Obligations.PrintCharactersWithoutAFrame := by
  unfold Obligations.PrintCharactersWithoutAFrame
  intro s
  refine ⟨?_, ?_, fun c hc hm => ?_, fun c m hc hm hcol hp => ?_⟩ <;> rw [exec_print]
  · rw [printRest_newline [] _ rfl]
    rfl
  · rw [printRest_carriageReturn [] _ rfl]
    rfl
  · rw [printRest_miss [] _ hc hm]
    rfl
  · rw [printRest_place [] _ hc hm hp, printPlace, if_pos (by rw [hcol]; decide)]
    rfl

end Sys2Proof.Machine

/-! SUPPORT. What the commands of PRINT keep, and PRINT from an initialised command boundary: it completes and counts every
character once (R171, R178, R179). -/

namespace Sys2Proof.Machine

open Sys2Proof.Safety

/-! ## Commands from an initialised command boundary -/

/-- `t` is an initialised command boundary, with the pulls, the ROM, the parameters and the two ports of `s`. -/
structure SameSession (s t : State) : Prop where
  atBoundary : AtBoundary t
  inited     : t.inited = true
  pull       : t.pull = s.pull
  rom        : t.rom = s.rom
  params     : t.params = s.params
  romAnswers : t.romAnswers = s.romAnswers
  port       : t.port = s.port

/-- `t` is a state of PRINT's session begun in `s`, with the adapter and the results returned so far of `u`. -/
structure Commanded (s u t : State) : Prop extends SameSession s t where
  adapter      : t.adapter = u.adapter
  printResults : t.printResults = u.printResults

section
variable {s u : State} (hu : SameSession s u)
include hu

/-- A SET_SEGMENTS of as many masks as a frame may carry completes, whatever its position. -/
theorem SameSession.setSegments {ms : List Byte} (hms : ms.length ≤ 6) (p : Int) :
    ∃ t, setSegments ms p u = .next t ∧ Commanded s u t := by
  obtain ⟨hinit, -⟩ | ⟨-, -, he⟩ | ⟨-, -, hlong, -⟩ | ⟨-, -, -, he⟩ := setSegments_ends ms p u
  · exact absurd hu.inited (by simp [hinit])
  · exact ⟨_, he, { hu with adapter := rfl, printResults := rfl }⟩
  · omega
  · obtain ⟨w, as, -, -, hnext, hstate⟩ :=
      oneFrameCommand_next (addressByte p :: ms) u hu.atBoundary (by simp) (Nat.succ_le_succ hms)
    exact ⟨_, he.trans hnext, by rw [hstate]; exact { hu with adapter := rfl, printResults := rfl }⟩

theorem SameSession.flushed {ms : List Byte} (hms : ms.length ≤ 6) (p : Nat) :
    ∃ t, execAll (flushed ms p) u = .next t ∧ Commanded s u t := by
  unfold Safety.flushed
  split
  · exact ⟨u, rfl, { hu with adapter := rfl, printResults := rfl }⟩
  · rw [execAll_singleton]
    exact hu.setSegments hms p

theorem SameSession.flushed_clear {ms : List Byte} (hms : ms.length ≤ 6) (p : Nat) :
    ∃ t, execAll (Safety.flushed ms p ++ [.setSegments clearMasks 0]) u = .next t ∧ Commanded s u t := by
  obtain ⟨t, ht, hkept⟩ := hu.flushed hms p
  obtain ⟨w, hw, hcleared⟩ := hkept.toSameSession.setSegments (ms := clearMasks) (by decide) 0
  refine ⟨w, ?_, { hcleared with adapter := ?_, printResults := ?_ }⟩
  · rw [execAll_append, ht, andThen_next, execAll_singleton]
    exact hw
  · exact hcleared.adapter.trans hkept.adapter
  · exact hcleared.printResults.trans hkept.printResults

end

/-! ## O58: PRINT completes -/

/-- What holds of PRINT's variables and state from one character to the next, in a session begun in `s`: the batch ends at
the column, and so has no more masks than a frame may carry. -/
structure Printing (s : State) (v : PrintVars) (u : State) : Prop extends SameSession s u where
  printResults : u.printResults = s.printResults
  short        : v.batch.length ≤ 6
  beforeCol    : v.batch.length ≤ u.adapter.col
  colWithin    : s.adapter.col ≤ 6 → u.adapter.col ≤ 6

/-- PRINT, begun in `s`, completes and returns counts that add up to `n`. -/
def ReturnsCounts (s : State) (n : Nat) (r : Result) : Prop :=
  ∃ t w k, r = .next t ∧ t.printResults = s.printResults ++ [⟨w, k⟩] ∧ w + k = n ∧ SameSession s t ∧
    (s.adapter.col ≤ 6 → t.adapter.col ≤ 6)

namespace Printing

variable {s u t : State} {v : PrintVars} (h : Printing s v u)
include h

theorem setClearPending (b : Bool) : Printing s v (setClearPending b u) := { h with }

theorem miss (c : Char) : Printing s { v with skipped := v.skipped + 1 } (diag (.lookupMiss c) u) := { h with }

/-- After the batch has gone out the column is 0. -/
theorem flushed (ht : Commanded s u t) : Printing s { v with batch := [] } (setCol 0 t) :=
  { ht with
    printResults := ht.printResults.trans h.printResults
    short := Nat.zero_le _
    beforeCol := Nat.zero_le _
    colWithin := fun _ => Nat.zero_le _ }

theorem place (m : Byte) : Printing s (printPlace m v u).1 (printPlace m v u).2 := by
  unfold printPlace
  split
  · exact { h with }
  · rename_i hroom
    have hcol : u.adapter.col ≤ 5 := by simpa [Config.npos] using hroom
    have hlen : v.batch.length + 1 ≤ u.adapter.col + 1 := Nat.succ_le_succ h.beforeCol
    exact
      { h with
        short := by rw [List.length_append, List.length_singleton]; omega
        beforeCol := by rw [List.length_append]; exact hlen
        colWithin := fun _ => Nat.succ_le_succ hcol }

end Printing

theorem printPlace_counts (m : Byte) (v : PrintVars) (s : State) :
    (printPlace m v s).1.written + (printPlace m v s).1.skipped = v.written + v.skipped + 1 := by
  unfold printPlace
  split <;> dsimp only <;> omega

/-- PRINT completes from every state between two characters, and counts the characters to come once each. -/
theorem printRest_returnsCounts (cs : List Char) {s u : State} {v : PrintVars} (h : Printing s v u) :
    ReturnsCounts s (v.written + v.skipped + (cs.filter counted).length) (printRest cs v u) := by
  induction cs generalizing v u with
  | nil =>
    obtain ⟨t, ht, hkept⟩ := h.toSameSession.flushed h.short v.batchStart
    rw [printRest_nil, ht]
    refine ⟨printReturn v t, v.written, v.skipped, rfl, ?_, rfl, { hkept with }, ?_⟩
    · rw [← h.printResults, ← hkept.printResults]
      rfl
    · intro hcol
      exact (congrArg Adapter.col hkept.adapter).trans_le (h.colWithin hcol)
  | cons c cs ih =>
    cases hc : counted c with
    | false =>
      rw [List.filter_cons_of_neg (by simp [hc])]
      by_cases hnl : c.toNat = 0x0A
      · rw [printRest_newline cs v hnl]
        exact ih (h.setClearPending true)
      · have hcr : c.toNat = 0x0D := by simpa [counted, hnl] using hc
        obtain ⟨t, ht, hkept⟩ := h.toSameSession.flushed h.short v.batchStart
        rw [printRest_carriageReturn cs v hcr, ht]
        exact ih (h.flushed hkept)
    | true =>
      rw [List.filter_cons_of_pos hc, List.length_cons]
      cases hm : romFind u.rom c with
      | none =>
        rw [printRest_miss cs v hc hm]
        simpa only [Nat.add_assoc, Nat.add_comm 1] using ih (h.miss c)
      | some m =>
        have hplaced {v : PrintVars} {u : State} (h : Printing s v u) (hm : romFind u.rom c = some m)
            (hp : u.adapter.clearPending = false) :
            ReturnsCounts s (v.written + v.skipped + ((cs.filter counted).length + 1)) (printRest (c :: cs) v u) := by
          rw [printRest_place cs v hc hm hp]
          simpa only [printPlace_counts, Nat.add_assoc, Nat.add_comm 1] using ih (h.place m)
        cases hp : u.adapter.clearPending with
        | false => exact hplaced h hm hp
        | true =>
          obtain ⟨t, ht, hkept⟩ := h.toSameSession.flushed_clear h.short v.batchStart
          have hrom : romFind t.rom c = some m := by rw [hkept.rom, ← h.rom, hm]
          rw [printRest_clear cs v hc hm hp, ht]
          exact hplaced ((h.flushed hkept).setClearPending false) hrom rfl

/-- Settles O58: PRINT begins between two characters, with nothing counted and an empty batch. -/
theorem printCountsEveryCharacter : Obligations.PrintCountsEveryCharacter := by
  unfold Obligations.PrintCountsEveryCharacter
  intro cs s hb hinit
  have hbegin : Printing s ⟨0, 0, [], 0⟩ s :=
    { atBoundary := hb, inited := hinit, pull := rfl, rom := rfl, params := rfl, romAnswers := rfl, port := rfl,
      printResults := rfl, short := Nat.zero_le _, beforeCol := Nat.zero_le _, colWithin := id }
  obtain ⟨t, w, k, hnext, hresults, hcounts, hkept, hcol⟩ := printRest_returnsCounts cs hbegin
  rw [exec_print]
  exact ⟨t, w, k, hnext, hresults, by simpa using hcounts, hkept.atBoundary, hkept.inited, hcol, hkept.pull, hkept.rom,
    hkept.params, hkept.romAnswers, hkept.port⟩

end Sys2Proof.Machine

/-! SUPPORT. A line of PRINT, cut or not: PRINT ends as the commands it issues, which neither read nor write the adapter's
state (R172 to R178). -/

namespace Sys2Proof.Machine

open Sys2Proof.Safety

/-! ## Commands issued one after another -/

/-- Commands that are all SET_SEGMENTS, as those of PRINT are. -/
def OnlySegments (is : List Instr) : Prop := ∀ i ∈ is, ∃ ms p, i = .setSegments ms p

theorem onlySegments_flushed (ms : List Byte) (p : Nat) : OnlySegments (flushed ms p) := by
  unfold flushed OnlySegments
  split <;> simp

theorem onlySegments_flushed_clear (ms : List Byte) (p : Nat) :
    OnlySegments (flushed ms p ++ [.setSegments clearMasks 0]) := by
  intro i hi
  obtain hi | hi := List.mem_append.1 hi
  · exact onlySegments_flushed ms p i hi
  · exact ⟨clearMasks, 0, List.mem_singleton.1 hi⟩

/-- The adapter's state may be written after the commands instead of before them (R170). -/
theorem execAll_withAdapter {is : List Instr} (h : OnlySegments is) (a : Adapter) (s : State) :
    execAll is (withAdapter a s) = mapNext (withAdapter a) (execAll is s) := by
  induction is generalizing s with
  | nil => rfl
  | cons i is ih =>
    obtain ⟨ms, p, rfl⟩ := h i (by simp)
    calc execAll (.setSegments ms p :: is) (withAdapter a s)
        = andThen (mapNext (withAdapter a) (setSegments ms p s)) (execAll is) :=
          congrArg (andThen · _) (setSegments_withAdapter a ms p s)
      _ = andThen (setSegments ms p s) fun t => execAll is (withAdapter a t) := andThen_assoc _ _ _
      _ = andThen (setSegments ms p s) fun t => mapNext (withAdapter a) (execAll is t) :=
          andThen_congr fun t _ => ih (fun j hj => h j (by simp [hj])) t
      _ = mapNext (withAdapter a) (execAll (.setSegments ms p :: is) s) := (andThen_assoc _ _ _).symm

theorem andThen_execAll_withAdapter {is : List Instr} (h : OnlySegments is) (a : Adapter) (s : State)
    (f : State → Result) :
    andThen (execAll is (withAdapter a s)) f = andThen (execAll is s) fun t => f (withAdapter a t) := by
  rw [execAll_withAdapter h]
  exact andThen_assoc _ _ _

/-! ## One line -/

/-- PRINT's return with the adapter and the counts it ends with. -/
def endPrint (a : Adapter) (written skipped : Nat) (s : State) : State :=
  { s with adapter := a, printResults := s.printResults ++ [⟨written, skipped⟩] }

/-- The characters read first leave the variables and the state in which the others are read. -/
theorem printRest_append {cs ds : List Char} {v w : PrintVars} {s t : State} (h : printChars cs v s = .ok (w, t)) :
    printRest (cs ++ ds) v s = printRest ds w t := by
  induction cs generalizing v s with
  | nil => cases h; rfl
  | cons c cs ih =>
    rw [List.cons_append, printRest_cons]
    rw [printChars] at h
    cases hc : printChar c v s with
    | error e => simp [hc] at h
    | ok p => rw [hc] at h; exact ih h

/-- PRINT's variables after a line of `n` characters from column `col`, the batch before it empty: `ms` were placed, and
the rest skipped. -/
def afterLine (v : PrintVars) (col n : Nat) (ms : List Byte) : PrintVars :=
  { written := v.written + ms.length, skipped := v.skipped + (n - ms.length), batch := ms,
    batchStart := if ms = [] then v.batchStart else col }

theorem flushed_afterLine (v : PrintVars) (col n : Nat) (ms : List Byte) :
    flushed (afterLine v col n ms).batch (afterLine v col n ms).batchStart = flushed ms col := by
  by_cases hms : ms = [] <;> simp [flushed, afterLine, hms]

section
variable {cs : List Char} {ms : List Byte} {v : PrintVars} {s : State}

/-- A line with no batch and no clear pending before it (R174 to R176). -/
theorem printRest_line_append (ds : List Char) (hb : v.batch = []) (hc : ∀ c ∈ cs, counted c = true)
    (hp : s.adapter.clearPending = false) (hm : ms = (cs.filterMap (romFind s.rom)).take (6 - s.adapter.col)) :
    printRest (cs ++ ds) v s = printRest ds (afterLine v s.adapter.col cs.length ms) (withAdapter
      ⟨s.adapter.col + ms.length, false⟩
      { s with diags := s.diags ++ (cs.filter fun c => (romFind s.rom c).isNone).map .lookupMiss }) := by
  rw [printRest_append (printChars_line cs v s ms hc hp hm)]
  congr 1
  by_cases hms : ms = [] <;> simp [afterLine, hb, hms]

/-- PRINT of its last line. -/
theorem printRest_line (hb : v.batch = []) (hc : ∀ c ∈ cs, counted c = true) (hp : s.adapter.clearPending = false)
    (hm : ms = (cs.filterMap (romFind s.rom)).take (6 - s.adapter.col)) :
    printRest cs v s =
      andThen (execAll (flushed ms s.adapter.col) { s with
        diags := s.diags ++ (cs.filter fun c => (romFind s.rom c).isNone).map .lookupMiss }) fun t =>
      .next (endPrint ⟨s.adapter.col + ms.length, false⟩ (v.written + ms.length)
        (v.skipped + (cs.length - ms.length)) t) := by
  have hread := printRest_line_append [] hb hc hp hm
  rw [List.append_nil] at hread
  rw [hread, printRest_nil, flushed_afterLine, andThen_execAll_withAdapter (onlySegments_flushed _ _)]
  rfl

/-! ## Lines of hits -/

theorem filterMap_of_hits (h : Hits s cs ms) : cs.filterMap (romFind s.rom) = ms := by
  obtain ⟨-, hms⟩ := h
  simpa using congrArg (List.filterMap id) hms

theorem no_miss_of_hits (h : Hits s cs ms) : (cs.filter fun c => (romFind s.rom c).isNone) = [] := by
  obtain ⟨-, hms⟩ := h
  refine List.filter_eq_nil_iff.2 fun c hc hmiss => ?_
  have hmem : romFind s.rom c ∈ ms.map some := hms ▸ List.mem_map_of_mem hc
  obtain ⟨m, -, hm⟩ := List.mem_map.1 hmem
  simp [← hm] at hmiss

theorem hits_of_rom_eq {t : State} (hrom : t.rom = s.rom) (h : Hits s cs ms) : Hits t cs ms := by
  unfold Hits
  rw [hrom]
  exact h

/-- A line of hits fills the columns there are, and the hits beyond them are skipped (R175, R176). -/
theorem printRest_hits_append (ds : List Char) (h : Hits s cs ms) (hb : v.batch = [])
    (hp : s.adapter.clearPending = false) {ns : List Byte} (hns : ns = ms.take (6 - s.adapter.col)) :
    printRest (cs ++ ds) v s =
      printRest ds (afterLine v s.adapter.col cs.length ns) (withAdapter ⟨s.adapter.col + ns.length, false⟩ s) := by
  have hline := printRest_line_append ds hb h.1 hp (hns.trans (by rw [filterMap_of_hits h]))
  simpa only [no_miss_of_hits h, List.map_nil, List.append_nil] using hline

/-- A last line of hits from column `col`: one SET_SEGMENTS, or none where none of them is placed. -/
theorem printRest_hits (h : Hits s cs ms) (hb : v.batch = []) (col : Nat) {ns : List Byte}
    (hns : ns = ms.take (6 - col)) :
    printRest cs v (withAdapter ⟨col, false⟩ s) =
      andThen (execAll (flushed ns col) s) fun t =>
      .next (endPrint ⟨col + ns.length, false⟩ (v.written + ns.length) (v.skipped + (cs.length - ns.length)) t) := by
  have hread := printRest_hits_append (s := withAdapter ⟨col, false⟩ s) [] h hb rfl hns
  rw [List.append_nil] at hread
  rw [hread, printRest_nil, flushed_afterLine]
  exact andThen_execAll_withAdapter (onlySegments_flushed ns col) ⟨col + ns.length, false⟩ s _

/-- After some commands, a last line of hits from column 0 is one more SET_SEGMENTS at position 0. -/
theorem andThen_printRest_hits (is : List Instr) (h : Hits s cs ms) (hb : v.batch = []) :
    (andThen (execAll is s) fun t => printRest cs v (withAdapter ⟨0, false⟩ t)) =
      andThen (execAll (is ++ flushed (ms.take 6) 0) s) fun t =>
      .next (endPrint ⟨(ms.take 6).length, false⟩ (v.written + (ms.take 6).length)
        (v.skipped + (cs.length - (ms.take 6).length)) t) := by
  rw [execAll_append, andThen_assoc]
  refine andThen_congr fun t ht => ?_
  simpa only [Nat.zero_add] using printRest_hits (hits_of_rom_eq (execAll_rom ht) h) hb 0 rfl

/-- A line of hits with a clear pending: the batch before it and CLEAR, and the line from column 0 (R172). -/
theorem printRest_hits_clear (h : Hits s cs ms) (hne : cs ≠ []) (a : Adapter) (ha : a.clearPending = true) :
    printRest cs v (withAdapter a s) =
      andThen (execAll (flushed v.batch v.batchStart ++ .setSegments clearMasks 0 :: flushed (ms.take 6) 0) s) fun t =>
      .next (endPrint ⟨(ms.take 6).length, false⟩ (v.written + (ms.take 6).length)
        (v.skipped + (cs.length - (ms.take 6).length)) t) := by
  obtain ⟨c, cs, rfl⟩ := List.exists_cons_of_ne_nil hne
  obtain ⟨hc, hms⟩ := h
  obtain ⟨m, ms, rfl⟩ : ∃ m ms', ms = m :: ms' := by
    cases ms <;> simp at hms ⊢
  have hm : romFind s.rom c = some m := (List.cons.inj hms).1
  rw [printRest_clear cs v (s := withAdapter a s) (hc c (by simp)) hm ha,
    andThen_execAll_withAdapter (onlySegments_flushed_clear _ _), List.append_cons _ _ (flushed _ 0)]
  exact andThen_printRest_hits (v := { v with batch := [] }) _ ⟨hc, hms⟩ rfl

end

/-! ## O59: the commands of a line -/

/-- Settles O59: read the line, carry out what cuts it, and read the rest from column 0. -/
theorem printBatchesOneLine : Obligations.PrintBatchesOneLine := by
  unfold Obligations.PrintBatchesOneLine
  refine ⟨fun cs ms s hc hp hm => ?_, fun cs ms s h hne hp => ?_,
    fun cs₁ cs₂ ms₁ ms₂ ns₁ ns₂ s h₁ h₂ hp hns₁ hns₂ => ?_,
    fun cs₁ cs₂ ms₁ ms₂ ns₁ ns₂ s h₁ h₂ hne hp hns₁ hns₂ => ?_⟩ <;> rw [exec_print]
  · rw [printRest_line rfl hc hp hm]
    simp only [Nat.zero_add]
    rfl
  · refine (printRest_hits_clear h hne s.adapter hp).trans ?_
    simp only [Nat.zero_add]
    rfl
  · rw [printRest_hits_append _ h₁ rfl hp hns₁, printRest_carriageReturn cs₂ _ rfl, flushed_afterLine,
      andThen_execAll_withAdapter (onlySegments_flushed _ _), hns₂]
    refine (andThen_printRest_hits _ h₂ rfl).trans ?_
    simp only [afterLine, Nat.zero_add]
    rfl
  · rw [printRest_hits_append _ h₁ rfl hp hns₁, printRest_newline cs₂ _ rfl, hns₂]
    refine (printRest_hits_clear h₂ hne ⟨s.adapter.col + ns₁.length, true⟩ rfl).trans ?_
    rw [flushed_afterLine]
    simp only [afterLine, Nat.zero_add]
    rfl

end Sys2Proof.Machine

/-! SUPPORT. The host commands that end in an error, and SET_SEGMENTS with no slave to acknowledge (R132, R195, R210). -/

namespace Sys2Proof.Machine

open Sys2Proof.Safety

/-! ## O41: an error is the whole effect (R132, R195) -/

/-- How a command of the host that completes has answered: with a status and nothing else done, or with Ok and the ACK bits
of what it sent (R132, R133). -/
inductive Answered (s t : State) : Prop where
  | raised (e : Status) (h : t = { s with responses := s.responses ++ [⟨e, []⟩] })
  | sent (as : List Bool) (h : t.responses = s.responses ++ [⟨.ok, as⟩])

theorem respondOk_answered {s u : State} (h : u.responses = s.responses) : Answered s (respondOk u) :=
  .sent u.acks (by rw [respondOk, h])

theorem oneFrameCommand_answered {bytes : List Byte} {s t : State} (h : oneFrameCommand bytes s = .next t) :
    Answered s t := by
  obtain ⟨u, as, hu, -, rfl⟩ := oneFrameCommand_sent h
  exact respondOk_answered hu.responses_eq

theorem setSegments_answered {ms : List Byte} {p : Int} {s t : State} (h : setSegments ms p s = .next t) :
    Answered s t := by
  obtain ⟨-, hraised⟩ | ⟨-, hframe⟩ := setSegments_sent h
  · exact .raised .rangeError hraised
  · exact oneFrameCommand_answered hframe

theorem execSetBrightness_answered {b : Int} {shown : Bool} {s t : State} (h : execSetBrightness b shown s = .next t) :
    Answered s t := by
  obtain ⟨-, hraised⟩ | ⟨-, hframe⟩ := execSetBrightness_sent h
  · exact .raised .configurationError hraised
  · exact oneFrameCommand_answered hframe

/-- None of INIT's set-up and three frames touches the responses, and it answers Ok after the last. -/
theorem execInit_answered {b : Int} {shown : Bool} {s t : State} (h : execInit b shown s = .next t) : Answered s t := by
  obtain ⟨-, hraised⟩ | ⟨-, u, v, w, as, bs, cs, hu, hv, hw, rfl⟩ := execInit_sent h
  · exact .raised .configurationError hraised
  · have hsetup : (initSetup (beginCommand s)).responses = s.responses := by rw [initSetup_eq]; rfl
    have hframes : w.responses = s.responses :=
      hw.responses_eq.trans (hv.responses_eq.trans (hu.responses_eq.trans hsetup))
    exact respondOk_answered hframes

/-- An answer that is not Ok was raised: the response is `⟨e, []⟩` and the rest of the state is as before. -/
theorem Answered.raised_of_not_ok {s t : State} {r : Response} (h : Answered s t) (hr : t.responses = s.responses ++ [r])
    (hne : r.status ≠ .ok) : r.acks = [] ∧ t = { s with responses := t.responses } := by
  cases h with
  | raised e h =>
    subst h
    obtain rfl : ⟨e, []⟩ = r := by simpa using hr
    exact ⟨rfl, rfl⟩
  | sent as h =>
    obtain rfl : ⟨.ok, as⟩ = r := by simpa using h.symm.trans hr
    exact absurd rfl hne

/-- Settles O41: each of the three commands raises its error before it does anything, or answers Ok. -/
theorem errorsHaveNoOtherEffect : Obligations.ErrorsHaveNoOtherEffect := by
  unfold Obligations.ErrorsHaveNoOtherEffect
  intro i s t r hi h hr hne
  have hanswered : Answered s t := by
    obtain ⟨b, shown, rfl⟩ | ⟨ms, p, rfl⟩ | ⟨b, shown, rfl⟩ := hi
    · exact execInit_answered h
    · exact setSegments_answered h
    · exact execSetBrightness_answered h
  exact hanswered.raised_of_not_ok hr hne

/-! ## O37: every ACK bit is 1 and nothing stops (R210) -/

/-- Settles O37: SET_SEGMENTS is one frame of `ms.length + 1` bytes, and with no slave each of its ACK bits is 1. -/
theorem missingSlaveStopsNothing : Obligations.MissingSlaveStopsNothing := by
  unfold Obligations.MissingSlaveStopsNothing
  intro ms p s hb hinit hsrc h0 h5 h6
  obtain ⟨u, as, -, hsent, hnext, hstate⟩ :=
    oneFrameCommand_next (addressByte p :: ms) s hb (by simp) (Nat.succ_le_succ h6)
  have has : as = List.replicate (ms.length + 1) true := hsent.absent hsrc
  have hexec : exec (.setSegments ms p) s = .next (respondOk u) := (setSegments_legal hinit h0 h5 h6).trans hnext
  rw [has] at hstate
  exact ⟨respondOk u, hexec, by rw [hstate], by rw [hstate]⟩

end Sys2Proof.Machine
